-- ==== Sys2Proof/Word.lean ====
section
/-! DEFINITION. The word types of FSAT-BTE (spec/00_scope.md R11): a byte is 8 bits, a word 32, both unsigned, and the widths of
the identifier spaces (spec/20_memory.md R61). -/

namespace Sys2Proof

/-- R11: "`byte` is an 8-bit unsigned value". -/
abbrev Byte := BitVec 8

/-- R11: "`word` is a 32-bit unsigned value". -/
abbrev Word := BitVec 32

/-- R61: a bus id is 4 bits. -/
abbrev BusId := BitVec 4

/-- R61: a slave id is 4 bits. -/
abbrev SlaveId := BitVec 4

/-- R61: a two-wire target address is 7 bits. -/
abbrev Addr7 := BitVec 7

/-- R85: a timeout is an unsigned 16-bit tick count. -/
abbrev Timeout := BitVec 16

/-- R9: at most 15 client ports, so a client's port id is 0..14. -/
abbrev PortIx := Fin 15

end Sys2Proof
end

