-- ==== Sys2Proof/Moves.lean ====
section
/-! DEFINITION. The steps of the block's agents (spec/10_state.md R20), one constructor for each rule that gives an agent a step.
A move carries the draws its rule makes: R39 says that the host's next command, the bus environment's choices and the
arbiter's choice are no state but "parameters or draws of the step relation". DESIGN CHOICE (logs 3, 4). -/

namespace Sys2Proof

/-- One atomic step of one agent (R41), with its draws. -/
inductive Move where
  /-- Host and Port(p): present the command whose bytes are `bytes` on client port `p` (R256, R80). -/
  | present (p : PortIx) (bytes : List Byte)
  /-- Host: assert reset; bit b of `busy` is the level of BUSY drawn for bus b (R270, R37). -/
  | reset (busy : BitVec 16)
  /-- Clock: advance `tick` (R23). -/
  | clockTick
  /-- Port(p): the wait of `p` times out (R111, R202 (b), R204 (b)). -/
  | portTimeout (p : PortIx)
  /-- Port(p): a waiting enqueue finds room (R202 (a)). -/
  | portEnqueue (p : PortIx)
  /-- Port(p): a waiting dequeue finds an entry (R204 (a)). -/
  | portDequeue (p : PortIx)
  /-- Arbiter(b): grant the free lock of `b` to the waiting port `q` (R113). -/
  | lockGrant (b : BusId) (q : PortIx)
  /-- I2C(b): bus free, assert start (R140). -/
  | i2cStart (b : BusId)
  /-- I2C(b): start latched, send the address byte (R141). -/
  | i2cAddress (b : BusId)
  /-- I2C(b): address acknowledged (R142). -/
  | i2cAcked (b : BusId)
  /-- I2C(b): address not acknowledged (R143). -/
  | i2cNotAcked (b : BusId)
  /-- I2C(b): write byte complete (R145). -/
  | i2cByteSent (b : BusId)
  /-- I2C(b): read byte received (R146). -/
  | i2cByteReceived (b : BusId)
  /-- I2C(b): wire timeout (R148). -/
  | i2cWireTimeout (b : BusId)
  /-- SPI(b): byte exchange complete (R180). -/
  | spiExchange (b : BusId)
  /-- SPI(b): wire timeout (R183). -/
  | spiWireTimeout (b : BusId)
  /-- Consumer(b): take a request (R211). -/
  | consTake (b : BusId)
  /-- Consumer(b): take the lock and start (R213). -/
  | consStart (b : BusId)
  /-- Consumer(b): push the result (R215). -/
  | consPush (b : BusId)
  /-- Env(b): set the level of BUSY (R33, R151). -/
  | envBusy (b : BusId) (level : Bool)
  /-- Env(b): start latched, `SB <- 1` (R150). -/
  | envStartLatched (b : BusId)
  /-- Env(b): the addressed slave acknowledged, `ADDR <- 1` (R150). -/
  | envAddrAck (b : BusId)
  /-- Env(b): no slave acknowledged, `AF <- 1` (R150). -/
  | envAddrNack (b : BusId)
  /-- Env(b): `BTF <- 1; AF <- nack` (R151). -/
  | envByteDone (b : BusId) (nack : Bool)
  /-- Env(b): `RXNE <- 1; DR <- v` (R151). -/
  | envByteReady (b : BusId) (v : Byte)
  /-- Env(b): `SRXNE <- 1; SDR <- v` (R184). -/
  | envExchange (b : BusId) (v : Byte)
deriving DecidableEq, Repr, Inhabited

/-- Whether the move is the host's reset, the only move a fatal block takes (R247). -/
def Move.isReset : Move → Bool
  | .reset _ => true
  | .present _ _ | .clockTick | .portTimeout _ | .portEnqueue _ | .portDequeue _ | .lockGrant _ _ | .i2cStart _ | .i2cAddress _
  | .i2cAcked _ | .i2cNotAcked _ | .i2cByteSent _ | .i2cByteReceived _ | .i2cWireTimeout _ | .spiExchange _ | .spiWireTimeout _
  | .consTake _ | .consStart _ | .consPush _ | .envBusy _ _ | .envStartLatched _ | .envAddrAck _ | .envAddrNack _
  | .envByteDone _ _ | .envByteReady _ _ | .envExchange _ _ => false

end Sys2Proof
end

