-- ==== Sys2Proof/Config.lean ====
section
/-! DEFINITION. The configuration (spec/00_scope.md R9), when it is valid (R10), and the free value of the model.
A configuration is a plain value that the state carries and no step writes (log 1), so that every statement over all states is a
statement over all configurations. Parameters that no rule reads (BUS_CLOCK, TICK_PERIOD, CS_ACTIVE_LEVEL, SPI_MODE,
SPI_BIT_ORDER: R9; BTE_BASE: R67) are left out. -/

namespace Sys2Proof

/-- R9, R31: a slave descriptor `(slave_id, cs_line)` of a four-wire bus. -/
structure SlaveDesc where
  id : SlaveId
  line : Nat
deriving DecidableEq, Repr

/-- R9: `KIND(b)`, a four-wire bus with its ordered slave descriptors `SLAVES(b)`. -/
inductive BusKind where
  | twoWire
  | fourWire (slaves : List SlaveDesc)
deriving DecidableEq, Repr

/-- R9, R200: the capacities of the two FIFOs of a bus that has a channel. -/
structure ChannelDepth where
  rqDepth : Nat
  rspDepth : Nat
deriving DecidableEq, Repr

/-- The parameters of one bus (R9); `channel` is present exactly when `HAS_CHANNEL(b)`. -/
structure BusConfig where
  kind : BusKind
  channel : Option ChannelDepth
deriving DecidableEq, Repr

/-- The implementation parameters of R9. `N_BUS` is the length of `buses`; `wireTimeout = none` is `INF`. -/
structure Config where
  buses : List BusConfig
  nPort : Nat
  i2cMaxLen : Nat
  spiMaxLen : Nat
  wireTimeout : Option Nat
deriving DecidableEq, Repr

namespace Config

/-- R9: `N_BUS`. -/
def nBus (c : Config) : Nat := c.buses.length

/-- R24: the parameters of bus `b`, none where `b ≥ N_BUS` (the spec's `NotFound`). -/
def bus? (c : Config) (b : BusId) : Option BusConfig := c.buses[b.toNat]?

/-- R24, R117: `b < N_BUS`. -/
def hasBus (c : Config) (b : BusId) : Bool := b.toNat < c.nBus

/-- R9: `KIND(b) = TwoWire`. -/
def isTwoWire (c : Config) (b : BusId) : Bool :=
  match c.bus? b with
  | some ⟨.twoWire, _⟩ => true
  | some ⟨.fourWire _, _⟩ => false
  | none => false

/-- R9: `KIND(b) = FourWire`. -/
def isFourWire (c : Config) (b : BusId) : Bool :=
  match c.bus? b with
  | some ⟨.fourWire _, _⟩ => true
  | some ⟨.twoWire, _⟩ => false
  | none => false

/-- R9: `SLAVES(b)`, empty on a bus that is not four-wire. -/
def slaves (c : Config) (b : BusId) : List SlaveDesc :=
  match c.bus? b with
  | some ⟨.fourWire ss, _⟩ => ss
  | some ⟨.twoWire, _⟩ => []
  | none => []

/-- R61: `s` is the id of a descriptor of `SLAVES(b)`. -/
def hasSlave (c : Config) (b : BusId) (s : SlaveId) : Bool := (c.slaves b).any (·.id == s)

/-- R9: the channel of `b`, where it has one. -/
def channel? (c : Config) (b : BusId) : Option ChannelDepth := (c.bus? b).bind (·.channel)

/-- R9: `HAS_CHANNEL(b)`. -/
def hasChannel (c : Config) (b : BusId) : Bool := (c.channel? b).isSome

/-- R9: `RQ_DEPTH(b)`, 0 where there is no FIFO. -/
def rqDepth (c : Config) (b : BusId) : Nat :=
  match c.channel? b with
  | some d => d.rqDepth
  | none => 0

/-- R9: `RSP_DEPTH(b)`, 0 where there is no FIFO. -/
def rspDepth (c : Config) (b : BusId) : Nat :=
  match c.channel? b with
  | some d => d.rspDepth
  | none => 0

/-- R9: a FIFO holds 1..255 entries. -/
def depthOk (d : Nat) : Bool := 1 ≤ d && d ≤ 255

/-- R10, for one bus: distinct slave ids and distinct lines; FIFO capacities in range (R9; log 21). -/
def busOk (b : BusConfig) : Bool :=
  (match b.kind with
    | .twoWire => true
    | .fourWire ss => decide (ss.map (·.id)).Nodup && decide (ss.map (·.line)).Nodup) &&
  (match b.channel with
    | some d => depthOk d.rqDepth && depthOk d.rspDepth
    | none => true)

/-- R10: the configuration is valid. -/
def valid (c : Config) : Bool :=
  (1 ≤ c.nBus && c.nBus ≤ 16) && (1 ≤ c.nPort && c.nPort ≤ 15) && c.buses.all busOk &&
  (1 ≤ c.i2cMaxLen && c.i2cMaxLen ≤ 63) && (1 ≤ c.spiMaxLen && c.spiMaxLen ≤ 63) &&
  (match c.wireTimeout with
    | none => true
    | some w => 1 ≤ w && w ≤ 0xFFFE)

/-- DESIGN CHOICE (log 2): the configuration `State.reset` carries, `CFG` of spec/95_test_vectors.md section 0: bus 0 two-wire, bus 1
four-wire with slaves 0 and 1, both with a channel of depth 10, four ports, limits 32, `WIRE_TIMEOUT = INF`. -/
def vectors : Config where
  buses := [⟨.twoWire, some ⟨10, 10⟩⟩, ⟨.fourWire [⟨0, 0⟩, ⟨1, 1⟩], some ⟨10, 10⟩⟩]
  nPort := 4
  i2cMaxLen := 32
  spiMaxLen := 32
  wireTimeout := none

/-- FREE VALUE (log 4): the step that is taken next where no move is fixed. R41: "Any enabled step may be taken next", under no
fairness. Nothing in the model can evaluate it, so what holds of it holds of every interleaving and every draw. -/
opaque freeMove : Nat → Move

end Config

end Sys2Proof
end

