-- ==== Sys2Proof/Syntax.lean ====
section
/-! DEFINITION. The ten commands as syntax, one constructor for each row of spec/opcode_table.json, with the operand fields of
spec/30_encoding.md R82. The payload is no operand: it stands in `PAYLOAD[p]`, and `LEN` says how much of it is used (R90). -/

namespace Sys2Proof

/-- R86: `DEST` of I2C_READ, and R27: `job_dest`. `port` is 0, `fifo` is 1. -/
inductive Dest where
  | port
  | fifo
deriving DecidableEq, Repr

/-- R89: `QSEL` of CH_DEQ. `rq` is 0, `rsp` is 1. -/
inductive QSel where
  | rq
  | rsp
deriving DecidableEq, Repr

/-- A command's header fields and, for CH_ENQ_REQ, its descriptor word (R80, R83). -/
inductive Instr where
  /-- LOCK_ACQUIRE, format L (R110). -/
  | lockAcquire (bus : BusId) (t : Timeout)
  /-- LOCK_RELEASE, format N (R112). -/
  | lockRelease (bus : BusId)
  /-- I2C_WRITE, format I (R130). -/
  | i2cWrite (bus : BusId) (addr : Addr7) (len : BitVec 6)
  /-- I2C_READ, format I (R131). -/
  | i2cRead (bus : BusId) (dest : Dest) (addr : Addr7) (len : BitVec 6)
  /-- SPI_SELECT, format S (R170). -/
  | spiSelect (bus : BusId) (slave : SlaveId)
  /-- SPI_DESELECT, format S (R171). -/
  | spiDeselect (bus : BusId) (slave : SlaveId)
  /-- SPI_XFER_BYTE, format B (R172). -/
  | spiXferByte (bus : BusId) (tx : Byte)
  /-- SPI_XFER_BUF, format X (R173). -/
  | spiXferBuf (bus : BusId) (len : BitVec 6)
  /-- CH_ENQ_REQ, format Q, with its descriptor `D` as presented: its reserved bits are checked after the header (R93, R244). -/
  | chEnqReq (bus : BusId) (t : Timeout) (d : Word)
  /-- CH_DEQ, format Q (R203). -/
  | chDeq (bus : BusId) (q : QSel) (t : Timeout)
deriving DecidableEq, Repr

namespace Instr

/-- `H[23:20]`, the bus every command names (R81). -/
def bus : Instr → BusId
  | .lockAcquire b _ => b
  | .lockRelease b => b
  | .i2cWrite b _ _ => b
  | .i2cRead b _ _ _ => b
  | .spiSelect b _ => b
  | .spiDeselect b _ => b
  | .spiXferByte b _ => b
  | .spiXferBuf b _ => b
  | .chEnqReq b _ _ => b
  | .chDeq b _ _ => b

/-- `H[31:24]`, the opcode of R83. -/
def opcode : Instr → BitVec 8
  | .lockAcquire _ _ => 0x01
  | .lockRelease _ => 0x02
  | .i2cWrite _ _ _ => 0x10
  | .i2cRead _ _ _ _ => 0x11
  | .spiSelect _ _ => 0x20
  | .spiDeselect _ _ => 0x21
  | .spiXferByte _ _ => 0x22
  | .spiXferBuf _ _ => 0x23
  | .chEnqReq _ _ _ => 0x30
  | .chDeq _ _ _ => 0x31

end Instr

end Sys2Proof
end

