-- ==== Sys2Proof/WellFormed.lean ====
section
/-! DEFINITION. Which terms of `Instr` are well-formed whatever the configuration. Operand widths are in the types; what is left are
the reserved bits every descriptor has (R84, R87) and the length no read has (R131). Checks that depend on the configuration are
made by the presenting step (R244), not here. -/

namespace Sys2Proof

/-- R87, for either kind of bus: `D[31:16]` and `D[7:6]` are zero. -/
def descriptorWf (d : Word) : Bool := d.extractLsb' 16 16 == 0 && d.extractLsb' 6 2 == 0

/-- R84, R131: well-formed whatever the configuration. -/
def Instr.wf : Instr → Bool
  | .lockAcquire _ _ => true
  | .lockRelease _ => true
  | .i2cWrite _ _ _ => true
  | .i2cRead _ _ _ len => len != 0
  | .spiSelect _ _ => true
  | .spiDeselect _ _ => true
  | .spiXferByte _ _ => true
  | .spiXferBuf _ _ => true
  | .chEnqReq _ _ d => descriptorWf d
  | .chDeq _ _ _ => true

end Sys2Proof
end

