-- ==== Sys2Proof/Decode.lean ====
section
/-! DEFINITION. Decoding a presented command and, after it, encoding one (spec/30_encoding.md R80..R93, spec/20_memory.md R63).
Decoding is total on any bytes and rejects by name. -/

namespace Sys2Proof

/-! ## Byte order and fields -/

/-- R63: a word as four bytes, least significant first. -/
def leBytes (w : Word) : List Byte :=
  [w.extractLsb' 0 8, w.extractLsb' 8 8, w.extractLsb' 16 8, w.extractLsb' 24 8]

/-- R63: the word of four bytes, least significant first, and what follows them. -/
def takeWord : List Byte → Option (Word × List Byte)
  | b0 :: b1 :: b2 :: b3 :: rest => some (b3 ++ b2 ++ b1 ++ b0, rest)
  | _ => none

/-- R81: `H[23:20]`. -/
def busField (h : Word) : BusId := h.extractLsb' 20 4

/-- R82, R85: `T = H[15:0]`. -/
def timeoutField (h : Word) : Timeout := h.extractLsb' 0 16

/-- R86: `ADDR7 = H[14:8]`. -/
def addrField (h : Word) : Addr7 := h.extractLsb' 8 7

/-- R86: `LEN = H[5:0]`. -/
def lenField (h : Word) : BitVec 6 := h.extractLsb' 0 6

/-- R82: `SLAVE = H[19:16]`. -/
def slaveField (h : Word) : SlaveId := h.extractLsb' 16 4

/-- R82: `TX = H[7:0]`. -/
def txField (h : Word) : Byte := h.extractLsb' 0 8

/-- R86: `DEST = H[16]`. -/
def destField (h : Word) : Dest := if h.getLsbD 16 then .fifo else .port

/-- R81: `QSEL = H[16]`. -/
def qselField (h : Word) : QSel := if h.getLsbD 16 then .rsp else .rq

/-! ## The opcode table -/

/-- A row of spec/opcode_table.json: a word matches it when `H & mask = pattern` (R93). `build` reads the operand fields of the header
and, where the command has one, of its descriptor. -/
structure OpcodeRow where
  pattern : Word
  mask : Word
  hasDescriptor : Bool
  build : Word → Word → Instr

/-- The rows that take and release the lock (R83). -/
def lockRows : List OpcodeRow :=
  [ ⟨0x01000000, 0xFF0F0000, false, fun h _ => .lockAcquire (busField h) (timeoutField h)⟩,
    ⟨0x02000000, 0xFF0FFFFF, false, fun h _ => .lockRelease (busField h)⟩ ]

/-- The two-wire rows (R83). -/
def i2cRows : List OpcodeRow :=
  [ ⟨0x10000000, 0xFF0F80C0, false, fun h _ => .i2cWrite (busField h) (addrField h) (lenField h)⟩,
    ⟨0x11000000, 0xFF0E80C0, false, fun h _ => .i2cRead (busField h) (destField h) (addrField h) (lenField h)⟩ ]

/-- The four-wire rows (R83). -/
def spiRows : List OpcodeRow :=
  [ ⟨0x20000000, 0xFF00FFFF, false, fun h _ => .spiSelect (busField h) (slaveField h)⟩,
    ⟨0x21000000, 0xFF00FFFF, false, fun h _ => .spiDeselect (busField h) (slaveField h)⟩,
    ⟨0x22000000, 0xFF0FFF00, false, fun h _ => .spiXferByte (busField h) (txField h)⟩,
    ⟨0x23000000, 0xFF0FFFC0, false, fun h _ => .spiXferBuf (busField h) (lenField h)⟩ ]

/-- The channel rows (R83). -/
def channelRows : List OpcodeRow :=
  [ ⟨0x30000000, 0xFF0F0000, true, fun h d => .chEnqReq (busField h) (timeoutField h) d⟩,
    ⟨0x31000000, 0xFF0E0000, false, fun h _ => .chDeq (busField h) (qselField h) (timeoutField h)⟩ ]

/-- The opcode table, in the order of R83. -/
def opcodeTable : List OpcodeRow := lockRows ++ i2cRows ++ spiRows ++ channelRows

/-- R93: `(H & row.mask) = row.match`. -/
def OpcodeRow.fits (r : OpcodeRow) (h : Word) : Bool := h &&& r.mask == r.pattern

/-- R93: the row a header word matches, none where the word is illegal. -/
def rowOf (h : Word) : Option OpcodeRow := opcodeTable.find? (·.fits h)

/-- R93, R81: the command of a header and a descriptor word, none where the header is illegal. -/
def decodeWords (h d : Word) : Option Instr := (rowOf h).map (fun r => r.build h d)

/-! ## Length and bytes -/

/-- R87: `D[15]`, `DIR`: true is read. -/
def descriptorIsRead (d : Word) : Bool := d.getLsbD 15

/-- R87: `LEN = D[5:0]`. -/
def descriptorLen (d : Word) : BitVec 6 := d.extractLsb' 0 6

/-- R90: the payload length `n(H, D)`. A bus that does not exist has no kind, and its command is fatal before the payload matters
(log 16). -/
def payloadLen (c : Config) : Instr → Nat
  | .i2cWrite _ _ len => len.toNat
  | .spiXferBuf _ len => len.toNat
  | .chEnqReq b _ d => if !descriptorIsRead d || c.isFourWire b then (descriptorLen d).toNat else 0
  | .lockAcquire _ _ => 0
  | .lockRelease _ => 0
  | .i2cRead _ _ _ _ => 0
  | .spiSelect _ _ => 0
  | .spiDeselect _ _ => 0
  | .spiXferByte _ _ => 0
  | .chDeq _ _ _ => 0

/-- Why bytes are no command. The two `illegal` reasons are R84's; the three `incomplete` ones say that the host has not
presented complete bytes (R256, R80; log 14). -/
inductive DecodeError where
  /-- R84: the opcode of the header is not in R83. -/
  | illegalOpcode (h : Word)
  /-- R84: a reserved field of the header is not zero. -/
  | illegalReserved (h : Word)
  /-- Fewer than four bytes. -/
  | incompleteHeader
  /-- CH_ENQ_REQ without four bytes of descriptor. -/
  | incompleteDescriptor
  /-- Fewer payload bytes than R90 asks for. -/
  | incompletePayload
deriving DecidableEq, Repr

/-- A decoded command: the instruction, its header word, its payload, and the bytes after it. -/
structure Decoded where
  instr : Instr
  header : Word
  payload : List Byte
  rest : List Byte
deriving DecidableEq, Repr

/-- R83, R84: the opcode of `h` is assigned. -/
def opcodeAssigned (h : Word) : Bool := opcodeTable.any fun r => r.pattern.extractLsb' 24 8 == h.extractLsb' 24 8

/-- R84: the name of an illegal header. -/
def illegalHeader (h : Word) : DecodeError := if opcodeAssigned h then .illegalReserved h else .illegalOpcode h

/-- R80: the descriptor that follows the header, where the row has one. -/
def takeDescriptor (r : OpcodeRow) (bs : List Byte) : Option (Word × List Byte) :=
  if r.hasDescriptor then takeWord bs else some (0, bs)

/-- R80: split off the payload. -/
def takePayload (c : Config) (h : Word) (i : Instr) (bs : List Byte) : Except DecodeError Decoded :=
  if bs.length < payloadLen c i then .error .incompletePayload
  else .ok ⟨i, h, bs.take (payloadLen c i), bs.drop (payloadLen c i)⟩

/-- R80, R93: the command at the start of a byte sequence, on the machine of configuration `c`. The header is judged before any later
byte is looked at (log 15). -/
def decode (c : Config) (bs : List Byte) : Except DecodeError Decoded :=
  match takeWord bs with
  | none => .error .incompleteHeader
  | some (h, afterHeader) =>
    match rowOf h with
    | none => .error (illegalHeader h)
    | some r =>
      match takeDescriptor r afterHeader with
      | none => .error .incompleteDescriptor
      | some (d, afterDesc) => takePayload c h (r.build h d) afterDesc

/-! ## Encoding -/

/-- R86: the value of `H[16]` for a destination. -/
def Dest.bit : Dest → BitVec 1
  | .port => 0
  | .fifo => 1

/-- R89: the value of `H[16]` for a queue. -/
def QSel.bit : QSel → BitVec 1
  | .rq => 0
  | .rsp => 1

/-- R81, R82: the header word of a command, field by field from bit 31 down. -/
def encodeHeader : Instr → Word
  | .lockAcquire b t => 0x01#8 ++ b ++ 0#4 ++ t
  | .lockRelease b => 0x02#8 ++ b ++ 0#20
  | .i2cWrite b a len => 0x10#8 ++ b ++ 0#5 ++ a ++ 0#2 ++ len
  | .i2cRead b dest a len => 0x11#8 ++ b ++ 0#3 ++ dest.bit ++ 0#1 ++ a ++ 0#2 ++ len
  | .spiSelect b s => 0x20#8 ++ b ++ s ++ 0#16
  | .spiDeselect b s => 0x21#8 ++ b ++ s ++ 0#16
  | .spiXferByte b tx => 0x22#8 ++ b ++ 0#12 ++ tx
  | .spiXferBuf b len => 0x23#8 ++ b ++ 0#14 ++ len
  | .chEnqReq b t _ => 0x30#8 ++ b ++ 0#4 ++ t
  | .chDeq b q t => 0x31#8 ++ b ++ 0#3 ++ q.bit ++ t

/-- R80: the descriptor, where the command has one. -/
def encodeDescriptor : Instr → List Word
  | .chEnqReq _ _ d => [d]
  | .lockAcquire _ _ => []
  | .lockRelease _ => []
  | .i2cWrite _ _ _ => []
  | .i2cRead _ _ _ _ => []
  | .spiSelect _ _ => []
  | .spiDeselect _ _ => []
  | .spiXferByte _ _ => []
  | .spiXferBuf _ _ => []
  | .chDeq _ _ _ => []

/-- The words of a command, in the order they are presented (R80). -/
def encode (i : Instr) : List Word := encodeHeader i :: encodeDescriptor i

/-- The bytes of a command: its words, each least significant byte first (R63), then its payload (R80). -/
def encodeBytes (i : Instr) (payload : List Byte) : List Byte := (encode i).flatMap leBytes ++ payload

/-! ## The host's view of a table word -/

/-- The longest command: 8 bytes of words and 63 of payload (R80). -/
def maxCommandBytes : Nat := 71

/-- The `n` bytes of a number, least significant first. -/
def numberBytes : Nat → Nat → List Byte
  | 0, _ => []
  | n + 1, w => BitVec.ofNat 8 w :: numberBytes n (w / 256)

/-- The bytes of a table word of `nbits` bits, every bit above them zero, up to the longest command. -/
def tableBytes (nbits w : Nat) : List Byte := numberBytes maxCommandBytes (w % 2 ^ nbits)

/-- The instruction the decoder reads from a word numbered as spec/opcode_table.json numbers it, none where it rejects the word. -/
def decodeTableWord (nbits w : Nat) : Option Instr :=
  match decode Config.vectors (tableBytes nbits w) with
  | .ok d => some d.instr
  | .error _ => none

end Sys2Proof
end

