-- ==== Sys2Proof/Machine/State.lean ====
section
/-! DEFINITION. The state of the block (spec/10_state.md R20..R35) as plain data, why a step can stop, and the state after reset
(R37). -/

namespace Sys2Proof.Machine

/-! ## Identifiers and codes -/

/-- R25: a port id, a client's or the internal port of a bus's consumer. -/
inductive PortId where
  | client (p : PortIx)
  | consumer (b : BusId)
deriving DecidableEq, Repr

/-- R245: the ordinary statuses. -/
inductive Status where
  | ok
  | addrNack
  | dataNack
  | busTimeout
  | lockTimeout
  | queueFull
  | queueEmpty
deriving DecidableEq, Repr

/-- R242: the causes of a fatal fault. -/
inductive Cause where
  | unknownBusOrSlave
  | illegalCommand
  | lockNotHeld
  | csProtocol
deriving DecidableEq, Repr

/-! ## Ports -/

/-- R21: what a waiting port waits for. -/
inductive WaitKind where
  | lockWait
  | enqWait
  | deqWait (q : QSel)
deriving DecidableEq, Repr

/-- R21: `Waiting` "carries the wait kind ..., the start tick `t0` and the timeout `T`", and the bus waited on (R110, R201, R203). -/
structure Wait where
  kind : WaitKind
  bus : BusId
  t0 : Word
  timeout : Timeout
deriving DecidableEq, Repr

/-- R21: `pstate[p]`. -/
inductive PState where
  | ready
  | waiting (w : Wait)
  | executing
deriving DecidableEq, Repr

/-- R21: the registers of one client port. -/
structure Port where
  pstate : PState
  cmd : Word
  desc : Word
  payload : List Byte
  resp : Word
  rdata : List Byte
deriving DecidableEq, Repr

/-! ## Buses -/

/-- R26: `i2c_state[b]`. The source's Acked, NotAcked and Stopped are transient. -/
inductive I2cState where
  | idle
  | waitBusFree
  | started
  | addressSent
  | transferActive
deriving DecidableEq, Repr

/-- R31: `spi_state[b]`. -/
inductive SpiState where
  | idle
  | transferring
deriving DecidableEq, Repr

/-- R34: `cons_state[b]`. -/
inductive ConsState where
  | cIdle
  | cLock
  | cRun
  | cPush
deriving DecidableEq, Repr

/-- R27: `job_dir`, and R32: the direction of a request. `write` is 0, `read` is 1. -/
inductive Dir where
  | write
  | read
deriving DecidableEq, Repr

/-- R27: the job registers of a bus. A four-wire bus has `port`, `len`, `idx` and `t0` of them (log 13). -/
structure Job where
  port : PortId
  dir : Dir
  addr : Addr7
  len : Nat
  idx : Nat
  dest : Dest
  t0 : Word
deriving DecidableEq, Repr

/-- R32: a TransferRequest. `target` is the 7-bit address on a two-wire bus and the slave id on a four-wire bus. -/
structure Request where
  dir : Dir
  target : BitVec 7
  len : BitVec 6
  data : List Byte
deriving DecidableEq, Repr

/-- R32: a ResponseEntry. -/
structure Response where
  status : Status
  count : Nat
  hasData : Bool
  data : List Byte
deriving DecidableEq, Repr

/-- R259: a wire event. -/
inductive WireEvent where
  | start
  | addr (a : Byte)
  | tx (d : Byte)
  | ackCtl (e : Bool)
  | rx (v : Byte)
  | stop
  | cs (s : SlaveId) (level : Bool)
  | xfer (t r : Byte)
deriving DecidableEq, Repr

/-- R24..R35: the instance state of one bus. A two-wire bus uses no field of the four-wire engine and the other way round (log 13). -/
structure Bus where
  /-- R25 -/
  lockOwner : Option PortId
  /-- R26 -/
  i2cState : I2cState
  /-- R27 -/
  job : Job
  /-- R28 -/
  ackEn : Bool
  /-- R29: `BUSY` -/
  busy : Bool
  /-- R29: `SB` -/
  sb : Bool
  /-- R29: `ADDR` -/
  addr : Bool
  /-- R29: `AF` -/
  af : Bool
  /-- R29: `BTF` -/
  btf : Bool
  /-- R29: `RXNE` -/
  rxne : Bool
  /-- R29: `DR` -/
  dr : Byte
  /-- R30: `JOBBUF[b]`, 63 bytes indexed 0..62 -/
  jobBuf : Vector Byte 63
  /-- R31: bit s is `cs[b][s]` -/
  cs : BitVec 16
  /-- R31 -/
  spiState : SpiState
  /-- R31: `SRXNE` -/
  srxne : Bool
  /-- R31: `SDR` -/
  sdr : Byte
  /-- R32: head first -/
  rq : List Request
  /-- R32: head first -/
  rsp : List Response
  /-- R34 -/
  consState : ConsState
  /-- R34: `creq[b]` -/
  creq : Request
  /-- R34: `cres[b]` -/
  cres : Response
  /-- R35: oldest first -/
  trace : List WireEvent
deriving DecidableEq, Repr

/-! ## The block -/

/-- The command interface (R256): what the host presents in a presenting step. The model's own field (log 6). -/
structure Presented where
  port : PortIx
  cmd : Word
  payload : List Byte
deriving DecidableEq, Repr

/-- The state of the block. The last four fields are the model's own (logs 1, 3, 4, 6). -/
structure State where
  /-- R21, by port id; a port at or above `N_PORT` takes no step (log 12) -/
  ports : Vector Port 15
  /-- R24, by bus id; a bus at or above `N_BUS` is never read or written (log 12) -/
  buses : Vector Bus 16
  /-- R23 -/
  tick : Word
  /-- R23 -/
  fatal : Bool
  /-- R23, R242 -/
  fatalCause : BitVec 4
  /-- R23 -/
  fatalPort : BitVec 5
  /-- R23 -/
  fatalCmd : Word
  /-- R9: the configuration, which no step writes -/
  cfg : Config
  /-- R39: the moves already fixed, next first -/
  moves : List Move
  /-- the number of free moves taken -/
  draws : Nat
  /-- R256: the command interface -/
  pres : Presented
deriving DecidableEq, Repr

/-- Why the machine can stop with a fault. A fatal fault of the block (R243) is none of these: it is a next state. -/
inductive Fault where
  /-- Raised by an engine step whose job index is no index of JOBBUF, 0..62 (R30). Safe: no state that R38 (f) allows has such an index
  (log 17). -/
  | jobBufferIndex
deriving DecidableEq, Repr

/-- Why the machine can refuse. -/
inductive Refusal where
  /-- Raised by an arm of `exec` that has no meaning yet; no arm uses it. Safe. -/
  | notModelled (mnemonic : String)
  /-- Raised by `step`: R10, "The model refuses to run an invalid configuration (it has no meaning for one)". Safe (log 24). -/
  | invalidConfiguration
  /-- Raised by `exec` where the presenting step it stands for does not exist: the port is not Ready, is no client port, or the block is
  fatal (R256, R41; spec/93_implementation_defined.md I25: refuse). `step` never runs `exec` there. Safe (log 7). -/
  | noPresentingStep
deriving DecidableEq, Repr

/-! ## Reset -/

/-- R37, for a port. The registers R37 leaves unspecified are zero: DESIGN CHOICE (log 10). -/
def Port.reset : Port where
  pstate := .ready
  cmd := 0
  desc := 0
  payload := []
  resp := 0
  rdata := []

/-- R37 leaves the job registers unspecified: DESIGN CHOICE (log 10). -/
def Job.reset : Job where
  port := .client 0
  dir := .write
  addr := 0
  len := 0
  idx := 0
  dest := .port
  t0 := 0

/-- R34 leaves `creq` unspecified where it is not held: DESIGN CHOICE (log 10). -/
def Request.reset : Request where
  dir := .write
  target := 0
  len := 0
  data := []

/-- R34 leaves `cres` unspecified where it is not held: DESIGN CHOICE (log 10). -/
def Response.reset : Response where
  status := .ok
  count := 0
  hasData := false
  data := []

/-- R37, for a bus whose BUSY the environment draws as `busy`. `DR`, `SDR`, `JOBBUF`, the job registers, `creq` and `cres` are unspecified
there and zero here: DESIGN CHOICE (log 10). -/
def Bus.reset (busy : Bool) : Bus where
  lockOwner := none
  i2cState := .idle
  job := Job.reset
  ackEn := false
  busy := busy
  sb := false
  addr := false
  af := false
  btf := false
  rxne := false
  dr := 0
  jobBuf := Vector.replicate 63 0
  cs := 0
  spiState := .idle
  srxne := false
  sdr := 0
  rq := []
  rsp := []
  consState := .cIdle
  creq := Request.reset
  cres := Response.reset
  trace := []

/-- The interface before any command: DESIGN CHOICE (log 6). -/
def Presented.reset : Presented where
  port := 0
  cmd := 0
  payload := []

/-- R270, R37: the state after reset of the block of configuration `cfg`, where the environment draws BUSY of bus b as bit b of
`busy`. -/
def State.resetOf (cfg : Config) (busy : BitVec 16) : State where
  ports := Vector.replicate 15 Port.reset
  buses := Vector.ofFn fun b => Bus.reset (busy.getLsbD b.val)
  tick := 0
  fatal := false
  fatalCause := 0
  fatalPort := 0
  fatalCmd := 0
  cfg := cfg
  moves := []
  draws := 0
  pres := Presented.reset

/-- The state right after reset, on the configuration of spec/95_test_vectors.md (log 2) with every BUSY low (log 11), no move fixed. -/
def State.reset : State := State.resetOf Config.vectors 0

end Sys2Proof.Machine
end

