-- ==== Sys2Proof/Machine/Operands.lean ====
section
/-! DEFINITION. Operand forms: codes, descriptors and requests (spec/30_encoding.md R87), response words and items (R88, R89), timeouts
(R85), the address byte (spec/41_i2c.md R133). -/

namespace Sys2Proof.Machine

/-! ## Codes -/

/-- R245: the status codes. -/
def Status.code : Status → BitVec 4
  | .ok => 0
  | .addrNack => 1
  | .dataNack => 2
  | .busTimeout => 3
  | .lockTimeout => 4
  | .queueFull => 5
  | .queueEmpty => 6

/-- R242: the fatal cause codes. -/
def Cause.code : Cause → BitVec 4
  | .unknownBusOrSlave => 1
  | .illegalCommand => 2
  | .lockNotHeld => 3
  | .csProtocol => 4

/-- R20, R61: the port ids, `0..N_PORT-1` for clients and `16+b` for `CONSUMER(b)`. -/
def PortId.code : PortId → BitVec 5
  | .client p => BitVec.ofNat 5 p.val
  | .consumer b => 1#1 ++ b

/-- R27: 0 write, 1 read. -/
def Dir.bit : Dir → BitVec 1
  | .write => 0
  | .read => 1

/-- R21: the encoding of `pstate`. -/
def PState.code : PState → BitVec 2
  | .ready => 0
  | .waiting _ => 1
  | .executing => 2

/-- R26: the encoding of `i2c_state`. -/
def I2cState.code : I2cState → BitVec 3
  | .idle => 0
  | .waitBusFree => 1
  | .started => 2
  | .addressSent => 3
  | .transferActive => 4

/-- R31: the encoding of `spi_state`. -/
def SpiState.code : SpiState → BitVec 3
  | .idle => 0
  | .transferring => 1

/-- R34: the encoding of `cons_state`. -/
def ConsState.code : ConsState → BitVec 2
  | .cIdle => 0
  | .cLock => 1
  | .cRun => 2
  | .cPush => 3

/-! ## Descriptors and requests -/

/-- R87: `DIR = D[15]`. -/
def descriptorDir (d : Word) : Dir := if descriptorIsRead d then .read else .write

/-- R87, two-wire: `ADDR7 = D[14:8]`. -/
def descriptorAddr (d : Word) : Addr7 := d.extractLsb' 8 7

/-- R87, four-wire: `SLAVE = D[11:8]`. -/
def descriptorSlave (d : Word) : SlaveId := d.extractLsb' 8 4

/-- R201: `target(D, KIND(b))`. -/
def descriptorTarget (c : Config) (b : BusId) (d : Word) : BitVec 7 :=
  if c.isFourWire b then (descriptorSlave d).setWidth 7 else descriptorAddr d

/-- R205 1: the reserved fields of the descriptor are zero; a four-wire one has also `D[14:12]` reserved (R87). -/
def descriptorReservedOk (c : Config) (b : BusId) (d : Word) : Bool :=
  descriptorWf d && (!c.isFourWire b || d.extractLsb' 12 3 == 0)

/-- R205 2: the length is in range. -/
def descriptorLenOk (c : Config) (b : BusId) (d : Word) : Bool :=
  if c.isFourWire b then (descriptorLen d).toNat ≤ c.spiMaxLen
  else (descriptorLen d).toNat ≤ c.i2cMaxLen && (!descriptorIsRead d || 1 ≤ (descriptorLen d).toNat)

/-- R205 3: a four-wire request names a known slave. -/
def descriptorSlaveOk (c : Config) (b : BusId) (d : Word) : Bool :=
  !c.isFourWire b || c.hasSlave b (descriptorSlave d)

/-- R201: the request `(D[15], target(D, KIND(b)), D[5:0], PAYLOAD[p][0..m-1])` with `m = n(H, D)`. -/
def requestOf (c : Config) (b : BusId) (d : Word) (payload : List Byte) : Request where
  dir := descriptorDir d
  target := descriptorTarget c b d
  len := descriptorLen d
  data := payload.take (if !descriptorIsRead d || c.isFourWire b then (descriptorLen d).toNat else 0)

/-- R212, R213: the slave a four-wire request names. -/
def Request.slave (r : Request) : SlaveId := r.target.setWidth 4

/-- R89: the descriptor of a request, as in R87. -/
def Request.descriptor (r : Request) : Word := 0#16 ++ r.dir.bit ++ r.target ++ 0#2 ++ r.len

/-- R89, `QSEL = 0`: the descriptor as four bytes, then the data bytes. -/
def Request.item (r : Request) : List Byte := leBytes r.descriptor ++ r.data

/-! ## Response words -/

/-- R88: `STATUS`, `COUNT`, `DATA` and `ITEM`; the reserved bits are 0. -/
def responseWord (st : Status) (count : Nat) (data item : Bool) : Word :=
  0#20 ++ BitVec.ofBool item ++ BitVec.ofBool data ++ BitVec.ofNat 6 count ++ st.code

/-- R149: `W(s, c, d)`. -/
def W (st : Status) (count : Nat) (data : Bool) : Word := responseWord st count data false

/-- R203: `W(OK, 0, 0) | ITEM`. -/
def itemWord : Word := responseWord .ok 0 false true

/-- R88: the encoded form `E` of a ResponseEntry. -/
def Response.word (e : Response) : Word := responseWord e.status e.count e.hasData false

/-- R89, `QSEL = 1`: the entry word as four bytes, then the data bytes when `E.DATA = 1`. -/
def Response.item (e : Response) : List Byte := leBytes e.word ++ (if e.hasData then e.data else [])

/-! ## Timeouts and the address byte -/

/-- R12: `elapsed(t0) = (tick - t0) mod 2^32`. -/
def elapsed (tick t0 : Word) : Nat := (tick - t0).toNat

/-- R85: "wait without bound". -/
def forever : Timeout := 0xFFFF

/-- R111, R202 (b), R204 (b): `T ≠ 0xFFFF` and `elapsed(t0) ≥ T`. -/
def Wait.expired (w : Wait) (tick : Word) : Bool := w.timeout != forever && w.timeout.toNat ≤ elapsed tick w.t0

/-- R133: `abyte = zext_8(job_addr7 ++ job_dir)`. -/
def addressByte (a : Addr7) (d : Dir) : Byte := a ++ d.bit

end Sys2Proof.Machine
end

