-- ==== Sys2Proof/Machine/Flags.lean ====
section
/-! DEFINITION. Every computation of a flag: the peripheral status flags (spec/10_state.md R29), the acknowledgment control (spec/41_i2c.md R144),
the DATA flag of a response (R147), what each wire wait awaits (R148, spec/42_spi.md R183), the chip-select bits (R31). All of it on one
bus. -/

namespace Sys2Proof.Machine

/-! ## Peripheral flags -/

/-- R147: `SB <- 0; ADDR <- 0; AF <- 0; BTF <- 0; RXNE <- 0` and `ack_en <- 0`. -/
def Bus.clearFlags (u : Bus) : Bus :=
  { u with sb := false, addr := false, af := false, btf := false, rxne := false, ackEn := false }

/-- R144: the acknowledgment control for read byte `i` is 1 exactly when `i < job_len - 1`. -/
def ackBit (job : Job) (i : Nat) : Bool := i < job.len - 1

/-- R147: `hasdata(b) = (job_dir = 1 and job_dest = 0)`. -/
def Job.hasData (job : Job) : Bool := job.dir == .read && job.dest == .port

/-- R148: the awaited event of the engine's state has not occurred. -/
def Bus.i2cAwaiting (u : Bus) : Bool :=
  match u.i2cState with
  | .idle => false
  | .waitBusFree => u.busy
  | .started => !u.sb
  | .addressSent => !u.addr && !u.af
  | .transferActive =>
    match u.job.dir with
    | .write => !u.btf
    | .read => !u.rxne

/-- R148, R183: `WIRE_TIMEOUT ≠ INF` and `elapsed(job_t0) ≥ WIRE_TIMEOUT`. -/
def wireExpired (c : Config) (tick t0 : Word) : Bool :=
  match c.wireTimeout with
  | none => false
  | some w => w ≤ elapsed tick t0

/-! ## Chip-select bits -/

/-- R31: the bit of slave `s`. -/
def csBit (s : SlaveId) : BitVec 16 := 1#16 <<< s.toNat

/-- R61: every slave id, in order. -/
def slaveIds : List SlaveId := (List.range 16).map (BitVec.ofNat 4)

/-- The slaves whose lines are asserted, by id (log 18). -/
def assertedLines (cs : BitVec 16) : List SlaveId := slaveIds.filter fun s => cs.getLsbD s.toNat

/-- R170, R112: "no `cs[b][s] = 1`". -/
def noneAsserted (cs : BitVec 16) : Bool := cs == 0

/-- R172: "exactly one `cs[b][s] = 1`". -/
def oneAsserted (cs : BitVec 16) : Bool := slaveIds.any fun s => cs == csBit s

end Sys2Proof.Machine
end

