-- ==== Sys2Proof/Machine/Ops.lean ====
section
/-! DEFINITION. The shared operations: reading and writing ports, buses and the job buffer; the trace; answering a port; taking the
fatal fault and the return from it; the form every presenting step has; starting and finishing jobs. -/

namespace Sys2Proof.Machine

/-! ## Ports and buses -/

/-- The registers of client port `p` (R21). -/
def State.port (s : State) (p : PortIx) : Port := s.ports[p.val]

/-- The instance state of bus `b` (R24). -/
def State.bus (s : State) (b : BusId) : Bus := s.buses[b.toNat]

/-- Replace the registers of client port `p`. -/
def State.setPort (s : State) (p : PortIx) (x : Port) : State := { s with ports := s.ports.set p.val x }

/-- Replace the instance state of bus `b`. -/
def State.setBus (s : State) (b : BusId) (u : Bus) : State := { s with buses := s.buses.set b.toNat u }

/-! ## The job buffer -/

/-- R12, R30: `MemRead(JOBBUF[b], i, 1)`, none where `i` is not in 0..62. -/
def bufRead (m : Vector Byte 63) (i : Nat) : Option Byte := m[i]?

/-- R12, R30: `MemWrite(JOBBUF[b], i, 1, v)`, none where `i` is not in 0..62. -/
def bufWrite (m : Vector Byte 63) (i : Nat) (v : Byte) : Option (Vector Byte 63) :=
  if h : i < 63 then some (m.set i v) else none

/-- R130: `for i in 0..n-1: MemWrite(JOBBUF[b], i, 1, data[i])`; every other byte stays. -/
def bufLoad (m : Vector Byte 63) (data : List Byte) : Vector Byte 63 :=
  Vector.ofFn fun i => (data[i.val]?).getD m[i.val]

/-- R147: `[MemRead(JOBBUF[b], i, 1) for i in 0..n-1]`. -/
def bufPrefix (m : Vector Byte 63) (n : Nat) : List Byte := m.toList.take n

/-! ## The trace -/

/-- R12: `emit(b, ev)`. -/
def Bus.emit (u : Bus) (ev : WireEvent) : Bus := { u with trace := u.trace ++ [ev] }

/-! ## Answering a port -/

/-- R42: `respond(p, W, bytes)` for a client port. -/
def respond (s : State) (p : PortIx) (w : Word) (bytes : List Byte) : State :=
  s.setPort p { s.port p with pstate := .ready, resp := w, rdata := bytes }

/-- R21: the port waits from now on. -/
def startWait (s : State) (p : PortIx) (kind : WaitKind) (b : BusId) (t : Timeout) : State :=
  s.setPort p { s.port p with pstate := .waiting ⟨kind, b, s.tick, t⟩ }

/-- R21: an engine runs the port's job. -/
def setExecuting (s : State) (p : PortIx) : State := s.setPort p { s.port p with pstate := .executing }

/-! ## The fatal fault, and the return from it -/

/-- R243: `fatal <- 1; fatal_cause <- c; fatal_port <- p; fatal_cmd <- H`, and nothing else. -/
def takeFatal (s : State) (p : PortIx) (c : Cause) (h : Word) : State :=
  { s with fatal := true, fatalCause := c.code, fatalPort := (PortId.client p).code, fatalCmd := h }

/-- R247, R270: reset, the only way out of a fatal state. The configuration does not change (R10); the moves still to come are the
outside world's and stay (log 20). `busy` is the environment's draw of BUSY. -/
def resetBlock (s : State) (busy : BitVec 16) : State :=
  { State.resetOf s.cfg busy with moves := s.moves, draws := s.draws }

/-! ## The presenting step -/

/-- The checks of a command in their order, each with the cause it raises: the first that fails (R244). -/
def firstFailing : List (Bool × Cause) → Option Cause
  | [] => none
  | (ok, c) :: rest => if ok then firstFailing rest else some c

/-- R41, R243, R256: a presenting step of port `p` exists, that is, the block is not fatal and `p` is a client port that is Ready. -/
def presentable (s : State) (p : PortIx) : Bool :=
  !s.fatal && p.val < s.cfg.nPort && (s.port p).pstate == .ready

/-- R21, R65: the presented header, descriptor (where the command has one) and payload are copied into the port registers (log 9). -/
def accept (s : State) (desc : Option Word) : State :=
  s.setPort s.pres.port
    { s.port s.pres.port with
      cmd := s.pres.cmd
      desc := desc.getD (s.port s.pres.port).desc
      payload := s.pres.payload }

/-- The presenting step of a command (R244): its checks in order; on the first that fails the fatal fault, which changes nothing
else (R243; log 8); otherwise the command is copied in and its pseudocode runs. -/
def issue (s : State) (desc : Option Word) (checks : List (Bool × Cause)) (body : State → State) :
    Host.Outcome State Fault Refusal :=
  if presentable s s.pres.port then
    match firstFailing checks with
    | some c => .next (takeFatal s s.pres.port c s.pres.cmd)
    | none => .next (body (accept s desc))
  else .refused .noPresentingStep

/-- R241: `lock_owner[b] = p`. -/
def ownsLock (s : State) (b : BusId) : Bool := (s.bus b).lockOwner == some (.client s.pres.port)

/-! ## Jobs -/

/-- R130, R131: the job registers and `WaitBusFree` of a two-wire job; a write copies its data into the job buffer. -/
def Bus.startI2c (u : Bus) (tick : Word) (p : PortId) (dir : Dir) (a : Addr7) (len : Nat) (dest : Dest) (data : List Byte) : Bus :=
  { u with
    job := ⟨p, dir, a, len, 0, dest, tick⟩
    jobBuf := bufLoad u.jobBuf data
    i2cState := .waitBusFree }

/-- R172, R173: the job registers and `Transferring` of a four-wire job. `job_dir`, `job_addr7` and `job_dest` are no registers of a
four-wire bus (R27) and stay. -/
def Bus.startSpi (u : Bus) (tick : Word) (p : PortId) (data : List Byte) (len : Nat) : Bus :=
  { u with
    job := { u.job with port := p, len := len, idx := 0, t0 := tick }
    jobBuf := bufLoad u.jobBuf data
    spiState := .transferring }

/-- R183, R214: `for each s with cs[b][s] = 1: cs[b][s] <- 0; emit(b, CS(s, 0))`. -/
def Bus.deassertAll (u : Bus) : Bus :=
  { u with cs := 0, trace := u.trace ++ (assertedLines u.cs).map fun s => .cs s false }

/-- R214: what `respond(CONSUMER(b), W, bytes)` does to the bus. -/
def Bus.consumerEnd (u : Bus) (c : Config) (b : BusId) (st : Status) (count : Nat) (bytes : List Byte) : Bus :=
  { (if c.isFourWire b then u.deassertAll else u) with
    lockOwner := none
    cres := ⟨st, count, u.creq.dir == .read, if u.creq.dir = .read then bytes else []⟩
    consState := .cPush }

/-- R214. -/
def consumerDone (s : State) (b : BusId) (st : Status) (count : Nat) (bytes : List Byte) : State :=
  s.setBus b ((s.bus b).consumerEnd s.cfg b st count bytes)

/-- R42: `respond(p, W(st, count, data), bytes)` for the port of a job. -/
def answer (s : State) (p : PortId) (st : Status) (count : Nat) (data : Bool) (bytes : List Byte) : State :=
  match p with
  | .client p => respond s p (W st count data) bytes
  | .consumer b => consumerDone s b st count bytes

/-- R147: the bus's part of `finish(b, st)`: STOP, every flag and `ack_en` cleared, `Idle`. -/
def Bus.i2cEnd (u : Bus) : Bus := { (u.emit .stop).clearFlags with i2cState := .idle }

/-- R147: `rdata(b)`. -/
def Bus.i2cData (u : Bus) : List Byte := if u.job.hasData then bufPrefix u.jobBuf u.job.idx else []

/-- R147: `finish(b, st)`. -/
def i2cFinish (s : State) (b : BusId) (st : Status) : State :=
  let u := s.bus b
  answer (s.setBus b u.i2cEnd) u.job.port st u.job.idx u.job.hasData u.i2cData

/-- R182: the bus's part of `spi_finish(b, st)`. -/
def Bus.spiEnd (u : Bus) : Bus := { u with spiState := .idle, srxne := false }

/-- R182: `spi_finish(b, st)`. -/
def spiFinish (s : State) (b : BusId) (st : Status) : State :=
  let u := s.bus b
  answer (s.setBus b u.spiEnd) u.job.port st u.job.idx true (bufPrefix u.jobBuf u.job.idx)

end Sys2Proof.Machine
end

