-- ==== Sys2Proof/Machine/Lock.lean ====
section
/-! DEFINITION. The Transaction Lock (spec/40_lock.md): LOCK_ACQUIRE and LOCK_RELEASE, the arbiter's grant, and the timeout every wait
has. -/

namespace Sys2Proof.Machine

/-! ## Commands -/

/-- R110: take the free lock of `b` for port `p`, and answer OK. -/
def takeLock (s : State) (b : BusId) (p : PortIx) : State :=
  respond (s.setBus b { s.bus b with lockOwner := some (.client p) }) p (W .ok 0 false) []

/-- LOCK_ACQUIRE (R110). -/
def execLockAcquire (b : BusId) (t : Timeout) (s : State) : Host.Outcome State Fault Refusal :=
  issue s none [(s.cfg.hasBus b, .unknownBusOrSlave)] fun s =>
    let p := s.pres.port
    if (s.bus b).lockOwner = none then takeLock s b p
    else if t = 0 then respond s p (W .lockTimeout 0 false) []
    else startWait s p .lockWait b t

/-- LOCK_RELEASE (R112). -/
def execLockRelease (b : BusId) (s : State) : Host.Outcome State Fault Refusal :=
  issue s none
    [ (s.cfg.hasBus b, .unknownBusOrSlave),
      (ownsLock s b, .lockNotHeld),
      (!s.cfg.isFourWire b || noneAsserted (s.bus b).cs, .csProtocol) ] fun s =>
    respond (s.setBus b { s.bus b with lockOwner := none }) s.pres.port (W .ok 0 false) []

/-! ## Waiting ports -/

/-- The port waits in a wait `w`. -/
def State.waitOf (s : State) (p : PortIx) : Option Wait :=
  match (s.port p).pstate with
  | .waiting w => some w
  | .ready => none
  | .executing => none

/-- R111, R202 (b), R204 (b): what a wait that times out answers. -/
def WaitKind.timeoutStatus : WaitKind → Status
  | .lockWait => .lockTimeout
  | .enqWait => .queueFull
  | .deqWait _ => .queueEmpty

/-- R111, R202 (b), R204 (b): enabled when `T ≠ 0xFFFF` and `elapsed(t0) ≥ T`, whether or not the wait could end otherwise. -/
def portTimeoutEnabled (s : State) (p : PortIx) : Bool :=
  match s.waitOf p with
  | some w => w.expired s.tick
  | none => false

/-- R111, R202 (b), R204 (b). -/
def portTimeout (s : State) (p : PortIx) : State :=
  match s.waitOf p with
  | some w => respond s p (W w.kind.timeoutStatus 0 false) []
  | none => s

/-- R113: the lock of `b` is free and `q` waits for it. -/
def lockGrantEnabled (s : State) (b : BusId) (q : PortIx) : Bool :=
  match s.waitOf q with
  | some w => (s.bus b).lockOwner == none && w.kind == .lockWait && w.bus == b
  | none => false

/-- R113: the arbiter grants the lock of `b` to the drawn waiter `q`. -/
def lockGrant (s : State) (b : BusId) (q : PortIx) : State := takeLock s b q

end Sys2Proof.Machine
end

