-- ==== Sys2Proof/Machine/I2c.lean ====
section
/-! DEFINITION. The two-wire engine (spec/41_i2c.md): I2C_WRITE and I2C_READ, and the steps of agent I2C(b). -/

namespace Sys2Proof.Machine

/-! ## Commands -/

/-- I2C_WRITE (R130). -/
def execI2cWrite (b : BusId) (a : Addr7) (len : BitVec 6) (s : State) : Host.Outcome State Fault Refusal :=
  issue s none
    [ (s.cfg.hasBus b, .unknownBusOrSlave),
      (s.cfg.isTwoWire b, .illegalCommand),
      (len.toNat ≤ s.cfg.i2cMaxLen, .illegalCommand),
      (ownsLock s b, .lockNotHeld) ] fun s =>
    let p := s.pres.port
    let data := (s.port p).payload.take len.toNat
    setExecuting (s.setBus b ((s.bus b).startI2c s.tick (.client p) .write a len.toNat .port data)) p

/-- I2C_READ (R131). -/
def execI2cRead (b : BusId) (dest : Dest) (a : Addr7) (len : BitVec 6) (s : State) : Host.Outcome State Fault Refusal :=
  issue s none
    [ (s.cfg.hasBus b, .unknownBusOrSlave),
      (s.cfg.isTwoWire b, .illegalCommand),
      (dest != .fifo || s.cfg.hasChannel b, .illegalCommand),
      (1 ≤ len.toNat && len.toNat ≤ s.cfg.i2cMaxLen, .illegalCommand),
      (ownsLock s b, .lockNotHeld) ] fun s =>
    let p := s.pres.port
    setExecuting (s.setBus b ((s.bus b).startI2c s.tick (.client p) .read a len.toNat dest [])) p

/-! ## Engine steps -/

/-- Enter a wait of the engine: `job_t0 <- tick; i2c_state <- st`. -/
def Bus.enter (u : Bus) (st : I2cState) (tick : Word) : Bus :=
  { u with i2cState := st, job := { u.job with t0 := tick } }

/-- R140: `WaitBusFree` and `BUSY = 0`. -/
def i2cStartEnabled (u : Bus) : Bool := u.i2cState == .waitBusFree && !u.busy

/-- R140. -/
def i2cStart (s : State) (b : BusId) : State := s.setBus b (((s.bus b).emit .start).enter .started s.tick)

/-- R141: `Started` and `SB = 1`. -/
def i2cAddressEnabled (u : Bus) : Bool := u.i2cState == .started && u.sb

/-- R141. -/
def i2cAddress (s : State) (b : BusId) : State :=
  let u := { s.bus b with sb := false }
  s.setBus b ((u.emit (.addr (addressByte u.job.addr u.job.dir))).enter .addressSent s.tick)

/-- R144: `setack(b, i)`. -/
def Bus.setAck (u : Bus) (i : Nat) : Bus := { u with ackEn := ackBit u.job i }.emit (.ackCtl (ackBit u.job i))

/-- R142: `AddressSent` and `ADDR = 1`. -/
def i2cAckedEnabled (u : Bus) : Bool := u.i2cState == .addressSent && u.addr

/-- R142. -/
def i2cAcked (s : State) (b : BusId) : Host.Outcome State Fault Refusal :=
  let u := { s.bus b with addr := false }
  match u.job.dir with
  | .write =>
    if u.job.len = 0 then .next (i2cFinish (s.setBus b u) b .ok)
    else
      match bufRead u.jobBuf 0 with
      | some d => .next (s.setBus b ((u.emit (.tx d)).enter .transferActive s.tick))
      | none => .fault .jobBufferIndex
  | .read => .next (s.setBus b ((u.setAck 0).enter .transferActive s.tick))

/-- R143: `AddressSent` and `AF = 1`. -/
def i2cNotAckedEnabled (u : Bus) : Bool := u.i2cState == .addressSent && u.af

/-- R143. -/
def i2cNotAcked (s : State) (b : BusId) : State := i2cFinish (s.setBus b { s.bus b with af := false }) b .addrNack

/-- R145: `TransferActive`, a write, and `BTF = 1`. -/
def i2cByteSentEnabled (u : Bus) : Bool := u.i2cState == .transferActive && u.job.dir == .write && u.btf

/-- `job_idx <- job_idx + 1`. -/
def Bus.nextByte (u : Bus) : Bus := { u with job := { u.job with idx := u.job.idx + 1 } }

/-- `job_t0 <- tick`. -/
def Bus.stamp (u : Bus) (tick : Word) : Bus := { u with job := { u.job with t0 := tick } }

/-- R145. -/
def i2cByteSent (s : State) (b : BusId) : Host.Outcome State Fault Refusal :=
  let u := { s.bus b with btf := false }
  if u.af then .next (i2cFinish (s.setBus b { u with af := false }) b .dataNack)
  else
    let u := u.nextByte
    if u.job.idx = u.job.len then .next (i2cFinish (s.setBus b u) b .ok)
    else
      match bufRead u.jobBuf u.job.idx with
      | some d => .next (s.setBus b ((u.emit (.tx d)).stamp s.tick))
      | none => .fault .jobBufferIndex

/-- R146: `TransferActive`, a read, `RXNE = 1`, and (`job_dest = 0` or room in `RSP[b]`). -/
def i2cByteReceivedEnabled (c : Config) (b : BusId) (u : Bus) : Bool :=
  u.i2cState == .transferActive && u.job.dir == .read && u.rxne && (u.job.dest == .port || u.rsp.length < c.rspDepth b)

/-- R146: the received byte is traced, and pushed where it goes to the FIFO. -/
def Bus.receive (u : Bus) (v : Byte) : Bus :=
  let u := { u with rxne := false }.emit (.rx v)
  match u.job.dest with
  | .port => u
  | .fifo => { u with rsp := u.rsp ++ [⟨.ok, 1, true, [v]⟩] }

/-- R146. -/
def i2cByteReceived (s : State) (b : BusId) : Host.Outcome State Fault Refusal :=
  let u := (s.bus b).receive (s.bus b).dr
  match bufWrite u.jobBuf u.job.idx (s.bus b).dr with
  | none => .fault .jobBufferIndex
  | some m =>
    let u := { u with jobBuf := m }.nextByte
    if u.job.idx = u.job.len then .next (i2cFinish (s.setBus b u) b .ok)
    else .next (s.setBus b ((u.setAck u.job.idx).stamp s.tick))

/-- R148: a job runs, its awaited event has not occurred, and the bound has passed. -/
def i2cWireTimeoutEnabled (c : Config) (tick : Word) (u : Bus) : Bool := u.i2cAwaiting && wireExpired c tick u.job.t0

/-- R148. -/
def i2cWireTimeout (s : State) (b : BusId) : State := i2cFinish s b .busTimeout

end Sys2Proof.Machine
end

