-- ==== Sys2Proof/Machine/Spi.lean ====
section
/-! DEFINITION. The four-wire engine (spec/42_spi.md): SPI_SELECT, SPI_DESELECT, SPI_XFER_BYTE, SPI_XFER_BUF, and the steps of agent
SPI(b). -/

namespace Sys2Proof.Machine

/-! ## Chip select -/

/-- R170, R213: `cs[b][s] <- 1; emit(b, CS(s, 1))`. -/
def Bus.select (u : Bus) (s : SlaveId) : Bus := { u with cs := u.cs ||| csBit s }.emit (.cs s true)

/-- R171: `if cs[b][s] = 1: cs[b][s] <- 0; emit(b, CS(s, 0))`. -/
def Bus.deselect (u : Bus) (s : SlaveId) : Bus :=
  if u.cs.getLsbD s.toNat then { u with cs := u.cs &&& ~~~csBit s }.emit (.cs s false) else u

/-! ## Commands -/

/-- SPI_SELECT (R170). -/
def execSpiSelect (b : BusId) (sl : SlaveId) (s : State) : Host.Outcome State Fault Refusal :=
  issue s none
    [ (s.cfg.hasBus b, .unknownBusOrSlave),
      (s.cfg.isFourWire b, .illegalCommand),
      (s.cfg.hasSlave b sl, .unknownBusOrSlave),
      (ownsLock s b, .lockNotHeld),
      (noneAsserted (s.bus b).cs, .csProtocol) ] fun s =>
    respond (s.setBus b ((s.bus b).select sl)) s.pres.port (W .ok 0 false) []

/-- SPI_DESELECT (R171). -/
def execSpiDeselect (b : BusId) (sl : SlaveId) (s : State) : Host.Outcome State Fault Refusal :=
  issue s none
    [ (s.cfg.hasBus b, .unknownBusOrSlave),
      (s.cfg.isFourWire b, .illegalCommand),
      (s.cfg.hasSlave b sl, .unknownBusOrSlave),
      (ownsLock s b, .lockNotHeld) ] fun s =>
    respond (s.setBus b ((s.bus b).deselect sl)) s.pres.port (W .ok 0 false) []

/-- SPI_XFER_BYTE (R172). -/
def execSpiXferByte (b : BusId) (tx : Byte) (s : State) : Host.Outcome State Fault Refusal :=
  issue s none
    [ (s.cfg.hasBus b, .unknownBusOrSlave),
      (s.cfg.isFourWire b, .illegalCommand),
      (ownsLock s b, .lockNotHeld),
      (oneAsserted (s.bus b).cs, .csProtocol) ] fun s =>
    let p := s.pres.port
    setExecuting (s.setBus b ((s.bus b).startSpi s.tick (.client p) [tx] 1)) p

/-- SPI_XFER_BUF (R173). -/
def execSpiXferBuf (b : BusId) (len : BitVec 6) (s : State) : Host.Outcome State Fault Refusal :=
  issue s none
    [ (s.cfg.hasBus b, .unknownBusOrSlave),
      (s.cfg.isFourWire b, .illegalCommand),
      (len.toNat ≤ s.cfg.spiMaxLen, .illegalCommand),
      (ownsLock s b, .lockNotHeld),
      (oneAsserted (s.bus b).cs, .csProtocol) ] fun s =>
    let p := s.pres.port
    if len = 0 then respond s p (W .ok 0 true) []
    else
      let data := (s.port p).payload.take len.toNat
      setExecuting (s.setBus b ((s.bus b).startSpi s.tick (.client p) data len.toNat)) p

/-! ## Engine steps -/

/-- R180: `Transferring` and `SRXNE = 1`. -/
def spiExchangeEnabled (u : Bus) : Bool := u.spiState == .transferring && u.srxne

/-- R180: the received byte takes the sent byte's place. -/
def spiExchange (s : State) (b : BusId) : Host.Outcome State Fault Refusal :=
  let u := { s.bus b with srxne := false }
  match bufRead u.jobBuf u.job.idx, bufWrite u.jobBuf u.job.idx u.sdr with
  | some tx, some m =>
    let u := { u.emit (.xfer tx u.sdr) with jobBuf := m }.nextByte
    if u.job.idx = u.job.len then .next (spiFinish (s.setBus b u) b .ok)
    else .next (s.setBus b (u.stamp s.tick))
  | _, _ => .fault .jobBufferIndex

/-- R183: `Transferring`, `SRXNE = 0`, and the bound has passed. -/
def spiWireTimeoutEnabled (c : Config) (tick : Word) (u : Bus) : Bool :=
  u.spiState == .transferring && !u.srxne && wireExpired c tick u.job.t0

/-- R183. -/
def spiWireTimeout (s : State) (b : BusId) : State := spiFinish (s.setBus b (s.bus b).deassertAll) b .busTimeout

end Sys2Proof.Machine
end

