-- ==== Sys2Proof/Machine/Channel.lean ====
section
/-! DEFINITION. The queue-mediated channel (spec/43_channel.md): CH_ENQ_REQ and CH_DEQ, their waits, and the steps of agent Consumer(b). -/

namespace Sys2Proof.Machine

/-! ## The FIFOs -/

/-- R200: there is room in `RQ[b]`. -/
def rqHasRoom (s : State) (b : BusId) : Bool := (s.bus b).rq.length < s.cfg.rqDepth b

/-- R200: there is room in `RSP[b]`. -/
def rspHasRoom (s : State) (b : BusId) : Bool := (s.bus b).rsp.length < s.cfg.rspDepth b

/-- R201: `push(RQ[b], req); respond(p, W(OK, 0, 0), [])`, where the request is the port's DESC and PAYLOAD. -/
def enqueueFor (s : State) (p : PortIx) (b : BusId) : State :=
  let req := requestOf s.cfg b (s.port p).desc (s.port p).payload
  respond (s.setBus b { s.bus b with rq := (s.bus b).rq ++ [req] }) p (W .ok 0 false) []

/-- R203: `e <- pop(Q); respond(p, W(OK, 0, 0) | ITEM, encode(e))`, none where `Q` is empty. -/
def dequeueFor (s : State) (p : PortIx) (b : BusId) (q : QSel) : Option State :=
  match q with
  | .rq =>
    match (s.bus b).rq with
    | [] => none
    | r :: rest => some (respond (s.setBus b { s.bus b with rq := rest }) p itemWord r.item)
  | .rsp =>
    match (s.bus b).rsp with
    | [] => none
    | e :: rest => some (respond (s.setBus b { s.bus b with rsp := rest }) p itemWord e.item)

/-! ## Commands -/

/-- CH_ENQ_REQ (R201, R205). -/
def execChEnqReq (b : BusId) (t : Timeout) (d : Word) (s : State) : Host.Outcome State Fault Refusal :=
  issue s (some d)
    [ (s.cfg.hasBus b, .unknownBusOrSlave),
      (s.cfg.hasChannel b, .illegalCommand),
      (descriptorReservedOk s.cfg b d, .illegalCommand),
      (descriptorLenOk s.cfg b d, .illegalCommand),
      (descriptorSlaveOk s.cfg b d, .unknownBusOrSlave) ] fun s =>
    let p := s.pres.port
    if rqHasRoom s b then enqueueFor s p b
    else if t = 0 then respond s p (W .queueFull 0 false) []
    else startWait s p .enqWait b t

/-- CH_DEQ (R203). -/
def execChDeq (b : BusId) (q : QSel) (t : Timeout) (s : State) : Host.Outcome State Fault Refusal :=
  issue s none
    [ (s.cfg.hasBus b, .unknownBusOrSlave),
      (s.cfg.hasChannel b, .illegalCommand) ] fun s =>
    let p := s.pres.port
    match dequeueFor s p b q with
    | some s' => s'
    | none => if t = 0 then respond s p (W .queueEmpty 0 false) [] else startWait s p (.deqWait q) b t

/-! ## Waits -/

/-- R202 (a): `p` waits to enqueue and there is room. -/
def portEnqueueEnabled (s : State) (p : PortIx) : Bool :=
  match s.waitOf p with
  | some w => w.kind == .enqWait && rqHasRoom s w.bus
  | none => false

/-- R202 (a). -/
def portEnqueue (s : State) (p : PortIx) : State :=
  match s.waitOf p with
  | some w => enqueueFor s p w.bus
  | none => s

/-- R204 (a): the state after the waiting port `p` has taken its item, none where `p` does not wait to dequeue or its queue is empty. -/
def portDequeue? (s : State) (p : PortIx) : Option State :=
  match s.waitOf p with
  | some ⟨.deqWait q, b, _, _⟩ => dequeueFor s p b q
  | some ⟨.lockWait, _, _, _⟩ => none
  | some ⟨.enqWait, _, _, _⟩ => none
  | none => none

/-! ## The consumer -/

/-- R211: `CIdle` and a request in `RQ[b]`. -/
def consTakeEnabled (u : Bus) : Bool := u.consState == .cIdle && !u.rq.isEmpty

/-- R211. -/
def consTake (s : State) (b : BusId) : State :=
  match (s.bus b).rq with
  | [] => s
  | r :: rest => s.setBus b { s.bus b with creq := r, rq := rest, consState := .cLock }

/-- R213: `CLock` and the lock free. -/
def consStartEnabled (u : Bus) : Bool := u.consState == .cLock && u.lockOwner == none

/-- R212, two-wire: the job of I2C_WRITE or I2C_READ for `CONSUMER(b)`; a read has no payload. -/
def Bus.startRequestI2c (u : Bus) (tick : Word) (b : BusId) : Bus :=
  let data := match u.creq.dir with
    | .write => u.creq.data.take u.creq.len.toNat
    | .read => []
  u.startI2c tick (.consumer b) u.creq.dir u.creq.target u.creq.len.toNat .port data

/-- R212, four-wire: the transfer of SPI_XFER_BUF for `CONSUMER(b)`. -/
def Bus.startRequestSpi (u : Bus) (tick : Word) (b : BusId) : Bus :=
  u.startSpi tick (.consumer b) (u.creq.data.take u.creq.len.toNat) u.creq.len.toNat

/-- R213, `creq[b].len = 0` on a four-wire bus: the bracket around nothing, its result held at once. -/
def Bus.emptyBracket (u : Bus) : Bus :=
  let sl := u.creq.slave
  { (u.select sl).deselect sl with
    lockOwner := none
    cres := ⟨.ok, 0, u.creq.dir == .read, []⟩
    consState := .cPush }

/-- R213. -/
def consStart (s : State) (b : BusId) : State :=
  let u := { s.bus b with lockOwner := some (.consumer b) }
  if s.cfg.isTwoWire b then s.setBus b { u.startRequestI2c s.tick b with consState := .cRun }
  else if u.creq.len = 0 then s.setBus b u.emptyBracket
  else s.setBus b { (u.select u.creq.slave).startRequestSpi s.tick b with consState := .cRun }

/-- R215: `CPush` and room in `RSP[b]`. -/
def consPushEnabled (s : State) (b : BusId) : Bool := (s.bus b).consState == .cPush && rspHasRoom s b

/-- R215. -/
def consPush (s : State) (b : BusId) : State :=
  let u := s.bus b
  s.setBus b { u with rsp := u.rsp ++ [u.cres], consState := .cIdle }

end Sys2Proof.Machine
end

