-- ==== Sys2Proof/Machine/Dispatch.lean ====
section
/-! DEFINITION. The presenting step of each command, one arm a constructor. -/

namespace Sys2Proof.Machine

def exec (i : Instr) (s : State) : Host.Outcome State Fault Refusal :=
  match i with
  | .lockAcquire bus t => Sys2Proof.Machine.execLockAcquire bus t s
  | .lockRelease bus => Sys2Proof.Machine.execLockRelease bus s
  | .i2cWrite bus addr len => Sys2Proof.Machine.execI2cWrite bus addr len s
  | .i2cRead bus dest addr len => Sys2Proof.Machine.execI2cRead bus dest addr len s
  | .spiSelect bus slave => Sys2Proof.Machine.execSpiSelect bus slave s
  | .spiDeselect bus slave => Sys2Proof.Machine.execSpiDeselect bus slave s
  | .spiXferByte bus tx => Sys2Proof.Machine.execSpiXferByte bus tx s
  | .spiXferBuf bus len => Sys2Proof.Machine.execSpiXferBuf bus len s
  | .chEnqReq bus t d => Sys2Proof.Machine.execChEnqReq bus t d s
  | .chDeq bus q t => Sys2Proof.Machine.execChDeq bus q t s

end Sys2Proof.Machine
end

