-- ==== Sys2Proof/Machine/Env.lean ====
section
/-! DEFINITION. The bus environment (spec/10_state.md R33, spec/41_i2c.md R150, R151, spec/42_spi.md R184): when each of its steps is
enabled, and what it writes. The drawn values are arguments; nothing constrains them (log 4). -/

namespace Sys2Proof.Machine

/-- R33, R151: the level of BUSY. -/
def envBusy (s : State) (b : BusId) (level : Bool) : State := s.setBus b { s.bus b with busy := level }

/-- R150: `Started` and `SB = 0`. -/
def envStartLatchedEnabled (u : Bus) : Bool := u.i2cState == .started && !u.sb

/-- R150: `SB <- 1`. -/
def envStartLatched (s : State) (b : BusId) : State := s.setBus b { s.bus b with sb := true }

/-- R150: `AddressSent`, `ADDR = 0` and `AF = 0`. -/
def envAddressEnabled (u : Bus) : Bool := u.i2cState == .addressSent && !u.addr && !u.af

/-- R150: `ADDR <- 1`. -/
def envAddrAck (s : State) (b : BusId) : State := s.setBus b { s.bus b with addr := true }

/-- R150: `AF <- 1`. -/
def envAddrNack (s : State) (b : BusId) : State := s.setBus b { s.bus b with af := true }

/-- R151: `TransferActive`, a write, `BTF = 0`. -/
def envByteDoneEnabled (u : Bus) : Bool := u.i2cState == .transferActive && u.job.dir == .write && !u.btf

/-- R151: `BTF <- 1; AF <- a`. -/
def envByteDone (s : State) (b : BusId) (nack : Bool) : State := s.setBus b { s.bus b with btf := true, af := nack }

/-- R151: `TransferActive`, a read, `RXNE = 0`. -/
def envByteReadyEnabled (u : Bus) : Bool := u.i2cState == .transferActive && u.job.dir == .read && !u.rxne

/-- R151: `RXNE <- 1; DR <- v`. -/
def envByteReady (s : State) (b : BusId) (v : Byte) : State := s.setBus b { s.bus b with rxne := true, dr := v }

/-- R184: `Transferring` and `SRXNE = 0`. -/
def envExchangeEnabled (u : Bus) : Bool := u.spiState == .transferring && !u.srxne

/-- R184: `SRXNE <- 1; SDR <- v`. -/
def envExchange (s : State) (b : BusId) (v : Byte) : State := s.setBus b { s.bus b with srxne := true, sdr := v }

end Sys2Proof.Machine
end

