-- ==== Sys2Proof/Machine/Agents.lean ====
section
/-! DEFINITION. When a move's step is enabled, and what it does (spec/10_state.md R20, R41). -/

namespace Sys2Proof.Machine

/-! ## Presenting a command -/

/-- R256, R80: the bytes hold a whole command, or a header that is illegal whatever follows it (log 14, log 15). -/
def completeCommand (c : Config) (bytes : List Byte) : Bool :=
  match decode c bytes with
  | .ok _ => true
  | .error (.illegalOpcode _) => true
  | .error (.illegalReserved _) => true
  | .error .incompleteHeader => false
  | .error .incompleteDescriptor => false
  | .error .incompletePayload => false

/-- R84, R241: an illegal header is the fatal fault ILLEGAL_COMMAND with that header. -/
def illegalHeaderFault (s : State) (p : PortIx) (h : Word) : State := takeFatal s p .illegalCommand h

/-- The presenting step of `p` (R244): the header encoding is checked first, then the command runs. -/
def presentCommand (s : State) (p : PortIx) (bytes : List Byte) : Host.Outcome State Fault Refusal :=
  match decode s.cfg bytes with
  | .ok d => exec d.instr { s with pres := ⟨p, d.header, d.payload⟩ }
  | .error (.illegalOpcode h) => .next (illegalHeaderFault s p h)
  | .error (.illegalReserved h) => .next (illegalHeaderFault s p h)
  | .error .incompleteHeader => .next s
  | .error .incompleteDescriptor => .next s
  | .error .incompletePayload => .next s

/-! ## Agents -/

/-- R20: agents `I2C(b)` and, on the two-wire side, `Env(b)` exist. -/
def onTwoWire (s : State) (b : BusId) (cond : Bus → Bool) : Bool := s.cfg.isTwoWire b && cond (s.bus b)

/-- R20: agents `SPI(b)` and, on the four-wire side, `Env(b)` exist. -/
def onFourWire (s : State) (b : BusId) (cond : Bus → Bool) : Bool := s.cfg.isFourWire b && cond (s.bus b)

/-- R20: `Port(p)` exists. -/
def isClient (s : State) (p : PortIx) : Bool := p.val < s.cfg.nPort

/-- R41: the step of a move is enabled in a state that is not fatal. -/
def enabledRunning (s : State) : Move → Bool
  | .present p bytes => presentable s p && completeCommand s.cfg bytes
  | .reset _ => true
  | .clockTick => true
  | .portTimeout p => isClient s p && portTimeoutEnabled s p
  | .portEnqueue p => isClient s p && portEnqueueEnabled s p
  | .portDequeue p => isClient s p && (portDequeue? s p).isSome
  | .lockGrant b q => s.cfg.hasBus b && isClient s q && lockGrantEnabled s b q
  | .i2cStart b => onTwoWire s b i2cStartEnabled
  | .i2cAddress b => onTwoWire s b i2cAddressEnabled
  | .i2cAcked b => onTwoWire s b i2cAckedEnabled
  | .i2cNotAcked b => onTwoWire s b i2cNotAckedEnabled
  | .i2cByteSent b => onTwoWire s b i2cByteSentEnabled
  | .i2cByteReceived b => onTwoWire s b (i2cByteReceivedEnabled s.cfg b)
  | .i2cWireTimeout b => onTwoWire s b (i2cWireTimeoutEnabled s.cfg s.tick)
  | .spiExchange b => onFourWire s b spiExchangeEnabled
  | .spiWireTimeout b => onFourWire s b (spiWireTimeoutEnabled s.cfg s.tick)
  | .consTake b => s.cfg.hasChannel b && consTakeEnabled (s.bus b)
  | .consStart b => s.cfg.hasChannel b && consStartEnabled (s.bus b)
  | .consPush b => s.cfg.hasChannel b && consPushEnabled s b
  | .envBusy b _ => s.cfg.isTwoWire b
  | .envStartLatched b => onTwoWire s b envStartLatchedEnabled
  | .envAddrAck b => onTwoWire s b envAddressEnabled
  | .envAddrNack b => onTwoWire s b envAddressEnabled
  | .envByteDone b _ => onTwoWire s b envByteDoneEnabled
  | .envByteReady b _ => onTwoWire s b envByteReadyEnabled
  | .envExchange b _ => onFourWire s b envExchangeEnabled

/-- R41, R247: the step of `m` is enabled. "No step of any agent is enabled while `fatal = 1`"; only the host's reset is. -/
def moveEnabled (s : State) (m : Move) : Bool := (m.isReset || !s.fatal) && enabledRunning s m

/-- What an enabled step does. -/
def runMove (s : State) : Move → Host.Outcome State Fault Refusal
  | .present p bytes => presentCommand s p bytes
  | .reset busy => .next (resetBlock s busy)
  | .clockTick => .next { s with tick := s.tick + 1 }
  | .portTimeout p => .next (portTimeout s p)
  | .portEnqueue p => .next (portEnqueue s p)
  | .portDequeue p => .next ((portDequeue? s p).getD s)
  | .lockGrant b q => .next (lockGrant s b q)
  | .i2cStart b => .next (i2cStart s b)
  | .i2cAddress b => .next (i2cAddress s b)
  | .i2cAcked b => i2cAcked s b
  | .i2cNotAcked b => .next (i2cNotAcked s b)
  | .i2cByteSent b => i2cByteSent s b
  | .i2cByteReceived b => i2cByteReceived s b
  | .i2cWireTimeout b => .next (i2cWireTimeout s b)
  | .spiExchange b => spiExchange s b
  | .spiWireTimeout b => .next (spiWireTimeout s b)
  | .consTake b => .next (consTake s b)
  | .consStart b => .next (consStart s b)
  | .consPush b => .next (consPush s b)
  | .envBusy b level => .next (envBusy s b level)
  | .envStartLatched b => .next (envStartLatched s b)
  | .envAddrAck b => .next (envAddrAck s b)
  | .envAddrNack b => .next (envAddrNack s b)
  | .envByteDone b nack => .next (envByteDone s b nack)
  | .envByteReady b v => .next (envByteReady s b v)
  | .envExchange b v => .next (envExchange s b v)

/-! ## The next move -/

/-- R39, R41: the next move, the first fixed one or, where none is fixed, the next free one, and the state without it. -/
def State.nextMove (s : State) : Move × State :=
  match s.moves with
  | m :: rest => (m, { s with moves := rest })
  | [] => (Config.freeMove s.draws, { s with draws := s.draws + 1 })

/-- Take one move: its step where it is enabled, no step where it is not (R41; log 5). -/
def takeStep (s : State) (m : Move) : Host.Outcome State Fault Refusal :=
  if moveEnabled s m then runMove s m else .next s

/-- Place the command of a table word so that the next step presents it: the block is not fatal, port 0 is Ready, and the next move
presents the bytes on port 0 (log 19). -/
def placeCommand (s : State) (bytes : List Byte) : State :=
  { s.setPort 0 { s.port 0 with pstate := .ready } with
    fatal := false
    moves := .present 0 bytes :: s.moves }

end Sys2Proof.Machine
end

