-- ==== Sys2Proof/Machine/Step.lean ====
section
/-! DEFINITION. One step of the block: an atomic step of one agent (spec/10_state.md R41). -/

namespace Sys2Proof.Machine

/-- One step. R10: "The model refuses to run an invalid configuration (it has no meaning for one)". -/
def step (s : State) : Host.Outcome State Fault Refusal :=
  if s.cfg.valid then takeStep s.nextMove.2 s.nextMove.1 else .refused .invalidConfiguration

/-- `s` with the command of a table word placed where `step` takes its next command from (log 19). -/
def State.withFetchWord (s : State) (nbits w : Nat) : State := placeCommand s (tableBytes nbits w)

end Sys2Proof.Machine
end

