-- ==== Sys2Proof/Machine/Assembler.lean ====
section
/-! DEFINITION. The assembler (spec/30_encoding.md R91, R92): lines of text to the commands they stand for, none where a line is refused.
The block does not contain it; it says what the spec's command lines mean. What R91 leaves open of a line's layout is log 28. -/

namespace Sys2Proof.Machine

/-! ## Characters -/

/-- A character that separates words. -/
def isBlank (c : Char) : Bool := c == ' ' || c == '\t' || c == '\r'

/-- Without leading and trailing blanks. -/
def trimBlanks (cs : List Char) : List Char := ((cs.dropWhile isBlank).reverse.dropWhile isBlank).reverse

/-- The lines of a text, in order. -/
def splitLines (line : List Char) : List Char → List (List Char)
  | [] => [line]
  | c :: cs => if c == '\n' then line :: splitLines [] cs else splitLines (line ++ [c]) cs

/-- The pieces between commas, in order; a comma inside square brackets separates nothing. -/
def splitCommas (inside : Bool) (piece : List Char) : List Char → List (List Char)
  | [] => [piece]
  | c :: cs =>
    if c == ',' && !inside then piece :: splitCommas false [] cs
    else splitCommas (if c == '[' then true else if c == ']' then false else inside) (piece ++ [c]) cs

/-- The value of a decimal digit. -/
def decDigit (c : Char) : Option Nat := if '0' ≤ c ∧ c ≤ '9' then some (c.toNat - '0'.toNat) else none

/-- The value of a hexadecimal digit, of either case. -/
def hexDigit (c : Char) : Option Nat :=
  if '0' ≤ c ∧ c ≤ '9' then some (c.toNat - '0'.toNat)
  else if 'a' ≤ c ∧ c ≤ 'f' then some (c.toNat - 'a'.toNat + 10)
  else if 'A' ≤ c ∧ c ≤ 'F' then some (c.toNat - 'A'.toNat + 10)
  else none

/-- The number whose digits, most significant first, follow `acc`. -/
def digitsFrom (base : Nat) (digit : Char → Option Nat) (acc : Nat) : List Char → Option Nat
  | [] => some acc
  | c :: cs => (digit c).bind fun d => digitsFrom base digit (acc * base + d) cs

/-- R91: "Operands are decimal, or hex with `0x`". -/
def number : List Char → Option Nat
  | [] => none
  | '0' :: 'x' :: [] => none
  | '0' :: 'x' :: cs => digitsFrom 16 hexDigit 0 cs
  | cs => digitsFrom 10 decDigit 0 cs

/-! ## Operands -/

/-- R91: an operand of an `n`-bit field, none where it does not fit. -/
def fieldOperand (n : Nat) (cs : List Char) : Option (BitVec n) :=
  (number cs).bind fun v => if v < 2 ^ n then some (BitVec.ofNat n v) else none

/-- R91: a timeout is "a number, or `now` = 0, or `forever` = 0xFFFF". -/
def timeoutOperand (cs : List Char) : Option Timeout :=
  if String.ofList cs = "now" then some 0
  else if String.ofList cs = "forever" then some forever
  else fieldOperand 16 cs

/-- R91: the queue of `ch.deq`. -/
def queueOperand (cs : List Char) : Option QSel :=
  if String.ofList cs = "rq" then some .rq
  else if String.ofList cs = "rsp" then some .rsp
  else none

/-- The pieces of a bracketed list, none where the brackets are missing. -/
def bracketed (cs : List Char) : Option (List (List Char)) :=
  match cs, cs.reverse with
  | '[' :: _, ']' :: _ =>
    let inner := trimBlanks cs.tail.dropLast
    if inner = [] then some [] else some ((splitCommas false [] inner).map trimBlanks)
  | _, _ => none

/-- R91: a byte list, none where it has more than 63 bytes. -/
def bytesOperand (cs : List Char) : Option (List Byte) :=
  (bracketed cs).bind fun pieces =>
    (pieces.mapM (fieldOperand 8)).bind fun bs => if bs.length ≤ 63 then some bs else none

/-- R91, R87: the target of a written request, a slave id on a four-wire bus and an address on a two-wire bus. -/
def targetOperand (c : Config) (b : BusId) (cs : List Char) : Option (BitVec 7) :=
  if c.isFourWire b then (fieldOperand 4 cs).map (·.setWidth 7) else fieldOperand 7 cs

/-! ## Lines -/

/-- One command as a host presents it (R80). -/
structure Command where
  instr : Instr
  payload : List Byte
deriving DecidableEq, Repr

/-- The bytes the host presents (R80). -/
def Command.bytes (k : Command) : List Byte := encodeBytes k.instr k.payload

/-- A line's mnemonic and its operands. -/
abbrev AsmLine := String × List (List Char)

/-- R92: the expansion of a pseudo-instruction; any other line stands for itself. -/
def expandPseudo : AsmLine → List AsmLine
  | ("lock.try", [b]) => [("lock.acq", [b, "now".toList])]
  | ("lock.wait", [b]) => [("lock.acq", [b, "forever".toList])]
  | ("i2c.probe", [b, a]) => [("i2c.wr", [b, a, "[]".toList])]
  | ("spi.txn", [b, s, bytes]) => [("spi.sel", [b, s]), ("spi.xbuf", [b, bytes]), ("spi.desel", [b, s])]
  | ("ch.tryenq", b :: rest) => [("ch.enq", b :: "now".toList :: rest)]
  | ("ch.trydeq", [b, q]) => [("ch.deq", [b, q, "now".toList])]
  | line => [line]

/-- A request's command (R87, R91). -/
def enqueueCommand (b : BusId) (t : Timeout) (dir : Dir) (target : BitVec 7) (len : BitVec 6) (payload : List Byte) : Command :=
  ⟨.chEnqReq b t (Request.descriptor ⟨dir, target, len, []⟩), payload⟩

/-- R91, the lines of `ch.enq` after its bus and timeout. -/
def enqueueLine (c : Config) (b : BusId) (t : Timeout) (dir target arg : List Char) : Option Command :=
  match String.ofList dir with
  | "wr" => do
    let bs ← bytesOperand arg
    let tgt ← targetOperand c b target
    some (enqueueCommand b t .write tgt (BitVec.ofNat 6 bs.length) bs)
  | "rd" =>
    match bytesOperand arg with
    | some bs => do
      let tgt ← fieldOperand 4 target
      some (enqueueCommand b t .read (tgt.setWidth 7) (BitVec.ofNat 6 bs.length) bs)
    | none => do
      let n ← fieldOperand 6 arg
      let tgt ← fieldOperand 7 target
      some (enqueueCommand b t .read tgt n [])
  | _ => none

/-- R91: the command a line encodes, none where the assembler refuses it. -/
def encodeLine (c : Config) : AsmLine → Option Command
  | ("lock.acq", [b, t]) => do some ⟨.lockAcquire (← fieldOperand 4 b) (← timeoutOperand t), []⟩
  | ("lock.rel", [b]) => do some ⟨.lockRelease (← fieldOperand 4 b), []⟩
  | ("i2c.wr", [b, a, bytes]) => do
    let bs ← bytesOperand bytes
    some ⟨.i2cWrite (← fieldOperand 4 b) (← fieldOperand 7 a) (BitVec.ofNat 6 bs.length), bs⟩
  | ("i2c.rd", [b, a, n]) => do some ⟨.i2cRead (← fieldOperand 4 b) .port (← fieldOperand 7 a) (← fieldOperand 6 n), []⟩
  | ("i2c.rd", [b, a, n, dest]) => do
    if String.ofList dest = "fifo" then
      some ⟨.i2cRead (← fieldOperand 4 b) .fifo (← fieldOperand 7 a) (← fieldOperand 6 n), []⟩
    else none
  | ("spi.sel", [b, s]) => do some ⟨.spiSelect (← fieldOperand 4 b) (← fieldOperand 4 s), []⟩
  | ("spi.desel", [b, s]) => do some ⟨.spiDeselect (← fieldOperand 4 b) (← fieldOperand 4 s), []⟩
  | ("spi.xb", [b, x]) => do some ⟨.spiXferByte (← fieldOperand 4 b) (← fieldOperand 8 x), []⟩
  | ("spi.xbuf", [b, bytes]) => do
    let bs ← bytesOperand bytes
    some ⟨.spiXferBuf (← fieldOperand 4 b) (BitVec.ofNat 6 bs.length), bs⟩
  | ("ch.enq", [b, t, dir, target, arg]) => do enqueueLine c (← fieldOperand 4 b) (← timeoutOperand t) dir target arg
  | ("ch.deq", [b, q, t]) => do some ⟨.chDeq (← fieldOperand 4 b) (← queueOperand q) (← timeoutOperand t), []⟩
  | _ => none

/-- A line without its comment: its mnemonic and operands, none where it is empty (R91). -/
def readLine (cs : List Char) : Option AsmLine :=
  let text := trimBlanks (cs.takeWhile (· != ';'))
  let operands := trimBlanks (text.dropWhile (fun ch => !isBlank ch))
  if text = [] then none
  else some (String.ofList (text.takeWhile (fun ch => !isBlank ch)),
    if operands = [] then [] else (splitCommas false [] operands).map trimBlanks)

/-- R91, R92: the commands of one line, in order; none where the line is refused. -/
def assembleLine (c : Config) (cs : List Char) : Option (List Command) :=
  match readLine cs with
  | none => some []
  | some line => (expandPseudo line).mapM (encodeLine c)

/-- R91: the commands of a text, "one command per line". -/
def assemble (c : Config) (text : String) : Option (List Command) :=
  ((splitLines [] text.toList).mapM (assembleLine c)).map List.flatten

end Sys2Proof.Machine
end

