-- ==== Sys2Proof/Machine/Status.lean ====
section
/-! DEFINITION. The status outputs (spec/10_state.md R36): live copies of state, read by the host without side effect (log 25). -/

namespace Sys2Proof.Machine

/-- R36: `STAT_FATAL`. -/
def statFatal (s : State) : Word := 0#22 ++ s.fatalPort ++ s.fatalCause ++ BitVec.ofBool s.fatal

/-- R36: `STAT_CMD`. -/
def statCmd (s : State) : Word := s.fatalCmd

/-- R36: `STAT_BUS[b][4:0]`, the owner's port id where there is an owner. -/
def ownerField (o : Option PortId) : BitVec 5 :=
  match o with
  | some p => p.code
  | none => 0

/-- R36: `STAT_BUS[b][7:5]`, the state of the bus's engine. -/
def engineField (c : Config) (b : BusId) (u : Bus) : BitVec 3 := if c.isFourWire b then u.spiState.code else u.i2cState.code

/-- R36: `STAT_BUS[b]`. DESIGN CHOICE (log 30): on a bus without a channel, which R200 gives no FIFO, the fields of the two occupancies are the
lengths of the model's two inert lists, 0 in every state R38 (e) allows. -/
def statBus (s : State) (b : BusId) : Word :=
  let u := s.bus b
  let ack := s.cfg.isTwoWire b && u.ackEn
  let cons := if s.cfg.hasChannel b then u.consState.code else 0
  BitVec.ofNat 8 u.rsp.length ++ BitVec.ofNat 8 u.rq.length ++ BitVec.ofBool u.lockOwner.isSome ++ 0#4 ++ cons ++
    BitVec.ofBool ack ++ engineField s.cfg b u ++ ownerField u.lockOwner

/-- The bits of the slave ids of `SLAVES(b)`. -/
def slaveMask (c : Config) (b : BusId) : BitVec 16 := (c.slaves b).foldl (fun m d => m ||| csBit d.id) 0

/-- R36: `STAT_CS[b]`, 0 for an id not in `SLAVES(b)`. DESIGN CHOICE (log 29): R36 lists [15:0] and gives no width; it is a word here, 0 above
those bits. -/
def statCs (s : State) (b : BusId) : Word := ((s.bus b).cs &&& slaveMask s.cfg b).setWidth 32

/-- R36: `STAT_TICK`. -/
def statTick (s : State) : Word := s.tick

/-- R36: `STAT_PORT[p]`. DESIGN CHOICE (log 29): R36 lists [1:0] and gives no width; it is a word here, 0 above those bits. -/
def statPort (s : State) (p : PortIx) : Word := (s.port p).pstate.code.setWidth 32

end Sys2Proof.Machine
end

