-- ==== Sys2Proof/Safety.lean ====
section
/-! DEFINITION. What claims are stated in: the invariants of spec/10_state.md R38 and what they rest on, clean entry and clean end
(spec/70_reset_and_hazards.md R273, R283), fairness premises (R279), frames (what a step leaves unchanged), the check order (R244), and
how a job ends. -/

namespace Sys2Proof.Machine

/-! ## Invariants of one bus -/

/-- R38 (a): an engine of the bus runs a job. -/
def Bus.active (u : Bus) : Prop := u.i2cState ≠ .idle ∨ u.spiState ≠ .idle

/-- R38 (a), the bus's part: the lock's owner is the job's port, and a consumer's job is this bus's consumer's, in CRun. -/
def OwnerRuns (b : BusId) (u : Bus) : Prop :=
  u.active → u.lockOwner = some u.job.port ∧ (∀ c, u.job.port = .consumer c → c = b ∧ u.consState = .cRun)

/-- R38 (b), (c): at most one line is asserted, and only while the lock is held. -/
def SelectInLock (u : Bus) : Prop :=
  (u.cs = 0 ∨ ∃ s, u.cs = csBit s) ∧ (u.cs ≠ 0 → u.lockOwner ≠ none)

/-- R38 (d): an idle engine has no event flag set. -/
def IdleFlagsClear (u : Bus) : Prop :=
  (u.i2cState = .idle →
    u.sb = false ∧ u.addr = false ∧ u.af = false ∧ u.btf = false ∧ u.rxne = false ∧ u.ackEn = false) ∧
  (u.spiState = .idle → u.srxne = false)

/-- R38 (e): the FIFOs are within their capacities. -/
def QueuesFit (c : Config) (b : BusId) (u : Bus) : Prop := u.rq.length ≤ c.rqDepth b ∧ u.rsp.length ≤ c.rspDepth b

/-- R38 (f): `job_idx ≤ job_len ≤ 63`. -/
def CountsFit (u : Bus) : Prop := u.job.idx ≤ u.job.len ∧ u.job.len ≤ 63

/-- R20: a bus has the engine of its kind only, and chip-select lines only where it is four-wire. -/
def EngineOfKind (c : Config) (b : BusId) (u : Bus) : Prop :=
  (c.isTwoWire b = false → u.i2cState = .idle) ∧ (c.isFourWire b = false → u.spiState = .idle ∧ u.cs = 0)

/-- R142, R145, R146, R180: no byte is completed before the data phase, a byte in flight is one of the job's, and a read has a byte. -/
def ByteInFlight (u : Bus) : Prop :=
  (u.i2cState = .waitBusFree ∨ u.i2cState = .started ∨ u.i2cState = .addressSent → u.job.idx = 0) ∧
  (u.i2cState = .transferActive ∨ u.spiState = .transferring → u.job.idx < u.job.len) ∧
  (u.i2cState ≠ .idle → u.job.dir = .read → 1 ≤ u.job.len)

/-- R205, D19: what the consumer's engine job needs of a request; and R32, R90, R201: its data are the payload its descriptor asks for,
`len` bytes of a write or of a four-wire request and none of a two-wire read. -/
def RequestOk (c : Config) (b : BusId) (r : Request) : Prop :=
  (c.isFourWire b = true → c.hasSlave b r.slave = true ∧ r.len.toNat ≤ c.spiMaxLen) ∧
  (c.isFourWire b = false → r.len.toNat ≤ c.i2cMaxLen ∧ (r.dir = .read → 1 ≤ r.len.toNat)) ∧
  (r.dir = .write ∨ c.isFourWire b = true → r.data.length = r.len.toNat) ∧
  (r.dir = .read → c.isFourWire b = false → r.data = [])

/-- R205: every request queued, and the request the consumer holds, is a valid one. -/
def RequestsOk (c : Config) (b : BusId) (u : Bus) : Prop :=
  (∀ r ∈ u.rq, RequestOk c b r) ∧ (u.consState = .cLock ∨ u.consState = .cRun → RequestOk c b u.creq)

/-- R25, R34: the owner is a client port or this bus's consumer in CRun, and in CRun an engine runs the consumer's job. -/
def OwnerLegal (c : Config) (b : BusId) (u : Bus) : Prop :=
  (∀ p, u.lockOwner = some (.client p) → p.val < c.nPort) ∧
  (∀ b', u.lockOwner = some (.consumer b') → b' = b ∧ u.consState = .cRun) ∧
  (u.consState = .cRun → u.active ∧ u.job.port = .consumer b)

/-- Every invariant of one bus. -/
structure BusInv (c : Config) (b : BusId) (u : Bus) : Prop where
  ownerRuns : OwnerRuns b u
  selectInLock : SelectInLock u
  idleFlags : IdleFlagsClear u
  queues : QueuesFit c b u
  counts : CountsFit u
  kind : EngineOfKind c b u
  bytes : ByteInFlight u
  requests : RequestsOk c b u
  owner : OwnerLegal c b u

/-! ## Invariants of the block -/

/-- R38 (a): a bus runs a job of client port `p`. -/
def RunsFor (u : Bus) (p : PortIx) : Prop := u.active ∧ u.job.port = .client p

/-- R38 with what it rests on: every bus's invariant; a port whose job runs is Executing, on one bus, and an Executing port has a job; a
port waiting to enqueue holds a valid request. -/
structure Inv (s : State) : Prop where
  buses : ∀ b, BusInv s.cfg b (s.bus b)
  running : ∀ b p, RunsFor (s.bus b) p → (s.port p).pstate = .executing
  single : ∀ b b' p, RunsFor (s.bus b) p → RunsFor (s.bus b') p → b = b'
  executing : ∀ p, (s.port p).pstate = .executing → ∃ b, RunsFor (s.bus b) p
  waiting : ∀ p b t0 t, (s.port p).pstate = .waiting ⟨.enqWait, b, t0, t⟩ →
    RequestOk s.cfg b (requestOf s.cfg b (s.port p).desc (s.port p).payload)

/-! ## Entry and end of a run -/

/-- An engine at rest: Idle, its flags clear. -/
def Bus.atRest (u : Bus) : Prop := u.i2cState = .idle ∧ u.spiState = .idle ∧ IdleFlagsClear u

/-- R273: clean entry, with empty FIFOs. -/
def CleanEntry (s : State) : Prop :=
  s.fatal = false ∧ s.cfg.valid = true ∧ (∀ p, (s.port p).pstate = .ready) ∧
  ∀ b, (s.bus b).lockOwner = none ∧ (s.bus b).atRest ∧ (s.bus b).cs = 0 ∧ (s.bus b).rq = [] ∧ (s.bus b).rsp = [] ∧
    (s.bus b).consState = .cIdle

/-- R283: a run has ended cleanly. -/
def CleanEnd (s : State) : Prop :=
  s.fatal = false ∧ (∀ p, (s.port p).pstate = .ready) ∧
  ∀ b, (s.bus b).i2cState = .idle ∧ (s.bus b).spiState = .idle ∧ (s.bus b).consState = .cIdle ∧ (s.bus b).rq = []

/-! ## Schedules and fairness -/

/-- The state after the moves of a schedule, where each is taken as `step` takes it; a stop ends the run where it is. -/
def stateAt (s : State) (sched : Nat → Move) : Nat → State
  | 0 => s
  | n + 1 =>
    match takeStep (stateAt s sched n) (sched n) with
    | .next t => t
    | .fault _ => stateAt s sched n
    | .refused _ => stateAt s sched n

/-- R279: "`tick` advances infinitely often". -/
def TickAdvances (s : State) (sched : Nat → Move) : Prop :=
  ∀ n, ∃ k, n ≤ k ∧ sched k = .clockTick ∧ moveEnabled (stateAt s sched k) .clockTick = true

/-- R279: an agent step that stays enabled is eventually taken (weak fairness). -/
def WeaklyFair (s : State) (sched : Nat → Move) (m : Move) : Prop :=
  ∀ n, (∀ k, n ≤ k → moveEnabled (stateAt s sched k) m = true) → ∃ k, n ≤ k ∧ sched k = m

/-- R279: "for each engine wait, the environment eventually answers". -/
def EnvironmentAnswers (s : State) (sched : Nat → Move) : Prop :=
  ∀ n b, (((stateAt s sched n).bus b).i2cAwaiting = true → ∃ k, n ≤ k ∧ ((stateAt s sched k).bus b).i2cAwaiting = false) ∧
    (((stateAt s sched n).bus b).spiState = .transferring → ∃ k, n ≤ k ∧
      (((stateAt s sched k).bus b).srxne = true ∨ ((stateAt s sched k).bus b).spiState = .idle))

/-! ## Frames -/

/-- A presenting step of port `p` exists (R41, R256), and `p` presents. -/
def Presenting (s : State) (p : PortIx) : Prop :=
  s.pres.port = p ∧ s.fatal = false ∧ p.val < s.cfg.nPort ∧ (s.port p).pstate = .ready

/-- Neither `tick`, nor the fatal record, nor the configuration, nor the model's own fields change. -/
def SameGlobals (s t : State) : Prop :=
  t.tick = s.tick ∧ t.fatal = s.fatal ∧ t.fatalCause = s.fatalCause ∧ t.fatalPort = s.fatalPort ∧ t.fatalCmd = s.fatalCmd ∧
  t.cfg = s.cfg ∧ t.moves = s.moves ∧ t.draws = s.draws ∧ t.pres = s.pres

/-- Every port but `p` is unchanged. -/
def SamePortsBut (s t : State) (p : PortIx) : Prop := ∀ q, q ≠ p → t.port q = s.port q

/-- Every bus but `b` is unchanged: its lock, engine, flags, job buffer, lines, FIFOs, consumer and trace. -/
def SameBusesBut (s t : State) (b : BusId) : Prop := ∀ c, c ≠ b → t.bus c = s.bus c

/-- Only port `p` and bus `b` may differ. -/
def OnlyPortAndBus (s t : State) (p : PortIx) (b : BusId) : Prop := SameGlobals s t ∧ SamePortsBut s t p ∧ SameBusesBut s t b

/-- Only port `p` may differ. -/
def OnlyPort (s t : State) (p : PortIx) : Prop := SameGlobals s t ∧ SamePortsBut s t p ∧ ∀ b, t.bus b = s.bus b

/-- Only bus `b` may differ. -/
def OnlyBus (s t : State) (b : BusId) : Prop := SameGlobals s t ∧ (∀ p, t.port p = s.port p) ∧ SameBusesBut s t b

/-- R20, R61: the bus whose instance state the step of a move may write: the bus of the engine, consumer, arbiter or environment that
steps, the bus the presented command names, the bus a port waits for; none where the step writes no bus. Reset, which writes every bus,
is kept out of the claims that use this. -/
def moveBus (s : State) : Move → Option BusId
  | .present _ bytes =>
    match decode s.cfg bytes with
    | .ok d => some d.instr.bus
    | .error _ => none
  | .portEnqueue p => (s.waitOf p).map (·.bus)
  | .portDequeue p => (s.waitOf p).map (·.bus)
  | .reset _ | .clockTick | .portTimeout _ => none
  | .lockGrant b _ | .i2cStart b | .i2cAddress b | .i2cAcked b | .i2cNotAcked b | .i2cByteSent b | .i2cByteReceived b | .i2cWireTimeout b
  | .spiExchange b | .spiWireTimeout b | .consTake b | .consStart b | .consPush b | .envBusy b _ | .envStartLatched b | .envAddrAck b
  | .envAddrNack b | .envByteDone b _ | .envByteReady b _ | .envExchange b _ => some b

/-- R243: `t` is `s` with the fatal record of cause `c`, port `p` and header `h`, and nothing else changed. -/
def FatalOf (s t : State) (p : PortIx) (cause : BitVec 4) (h : Word) : Prop :=
  t.fatal = true ∧ t.fatalCause = cause ∧ t.fatalPort = BitVec.ofNat 5 p.val ∧ t.fatalCmd = h ∧
  (∀ q, t.port q = s.port q) ∧ (∀ b, t.bus b = s.bus b) ∧ t.tick = s.tick ∧ t.cfg = s.cfg ∧ t.moves = s.moves ∧
  t.draws = s.draws ∧ t.pres = s.pres

/-- The two states differ in the traces only (R35, R259). -/
def SameButTrace (s s' : State) : Prop :=
  SameGlobals s s' ∧ (∀ p, s'.port p = s.port p) ∧ ∀ b, ∃ tr, s'.bus b = { s.bus b with trace := tr }

/-! ## The check order (R244) -/

/-- R244 3: bus kind and channel presence. -/
def kindOk (c : Config) : Instr → Bool
  | .lockAcquire _ _ => true
  | .lockRelease _ => true
  | .i2cWrite b _ _ => c.isTwoWire b
  | .i2cRead b dest _ _ => c.isTwoWire b && (dest == .port || c.hasChannel b)
  | .spiSelect b _ => c.isFourWire b
  | .spiDeselect b _ => c.isFourWire b
  | .spiXferByte b _ => c.isFourWire b
  | .spiXferBuf b _ => c.isFourWire b
  | .chEnqReq b _ _ => c.hasChannel b
  | .chDeq b _ _ => c.hasChannel b

/-- R244 4: the reserved fields of the descriptor (R87). -/
def reservedOk (c : Config) : Instr → Bool
  | .chEnqReq b _ d =>
    d.extractLsb' 16 16 == 0 && d.extractLsb' 6 2 == 0 && (!c.isFourWire b || d.extractLsb' 12 3 == 0)
  | .lockAcquire _ _ => true
  | .lockRelease _ => true
  | .i2cWrite _ _ _ => true
  | .i2cRead _ _ _ _ => true
  | .spiSelect _ _ => true
  | .spiDeselect _ _ => true
  | .spiXferByte _ _ => true
  | .spiXferBuf _ _ => true
  | .chDeq _ _ _ => true

/-- R244 5: length range (R130, R131, R173, R205 2). -/
def lengthOk (c : Config) : Instr → Bool
  | .i2cWrite _ _ n => n.toNat ≤ c.i2cMaxLen
  | .i2cRead _ _ _ n => 1 ≤ n.toNat && n.toNat ≤ c.i2cMaxLen
  | .spiXferBuf _ n => n.toNat ≤ c.spiMaxLen
  | .chEnqReq b _ d =>
    let n := (d.extractLsb' 0 6).toNat
    if c.isFourWire b then n ≤ c.spiMaxLen else n ≤ c.i2cMaxLen && (!d.getLsbD 15 || 1 ≤ n)
  | .lockAcquire _ _ => true
  | .lockRelease _ => true
  | .spiSelect _ _ => true
  | .spiDeselect _ _ => true
  | .spiXferByte _ _ => true
  | .chDeq _ _ _ => true

/-- R244 6: slave id known. -/
def slaveOk (c : Config) : Instr → Bool
  | .spiSelect b sl => c.hasSlave b sl
  | .spiDeselect b sl => c.hasSlave b sl
  | .chEnqReq b _ d => !c.isFourWire b || c.hasSlave b (d.extractLsb' 8 4)
  | .lockAcquire _ _ => true
  | .lockRelease _ => true
  | .i2cWrite _ _ _ => true
  | .i2cRead _ _ _ _ => true
  | .spiXferByte _ _ => true
  | .spiXferBuf _ _ => true
  | .chDeq _ _ _ => true

/-- R241: the commands that need the lock of their bus. -/
def needsLock : Instr → Bool
  | .lockRelease _ => true
  | .i2cWrite _ _ _ => true
  | .i2cRead _ _ _ _ => true
  | .spiSelect _ _ => true
  | .spiDeselect _ _ => true
  | .spiXferByte _ _ => true
  | .spiXferBuf _ _ => true
  | .lockAcquire _ _ => false
  | .chEnqReq _ _ _ => false
  | .chDeq _ _ _ => false

/-- R244 8: chip-select state (R112, R170, R172, R173). -/
def selectOk (s : State) : Instr → Bool
  | .lockRelease b => !s.cfg.isFourWire b || (s.bus b).cs == 0
  | .spiSelect b _ => (s.bus b).cs == 0
  | .spiXferByte b _ => slaveIds.any fun sl => (s.bus b).cs == csBit sl
  | .spiXferBuf b _ => slaveIds.any fun sl => (s.bus b).cs == csBit sl
  | .lockAcquire _ _ => true
  | .i2cWrite _ _ _ => true
  | .i2cRead _ _ _ _ => true
  | .spiDeselect _ _ => true
  | .chEnqReq _ _ _ => true
  | .chDeq _ _ _ => true

/-- R244, after the header encoding: the cause of the first failing check of `i` presented by `p`, none where all pass. -/
def firstFault (s : State) (p : PortIx) (i : Instr) : Option Cause :=
  if !s.cfg.hasBus i.bus then some .unknownBusOrSlave
  else if !kindOk s.cfg i then some .illegalCommand
  else if !reservedOk s.cfg i then some .illegalCommand
  else if !lengthOk s.cfg i then some .illegalCommand
  else if !slaveOk s.cfg i then some .unknownBusOrSlave
  else if needsLock i && (s.bus i.bus).lockOwner != some (.client p) then some .lockNotHeld
  else if !selectOk s i then some .csProtocol
  else none

/-- R82, R83: `h` has an assigned opcode and its reserved fields are zero. -/
def HeaderLegal (h : Word) : Prop :=
  let opc := h.extractLsb' 24 8
  (opc = 0x01 ∧ h.extractLsb' 16 4 = 0) ∨
  (opc = 0x02 ∧ h.extractLsb' 0 20 = 0) ∨
  (opc = 0x10 ∧ h.extractLsb' 16 4 = 0 ∧ h.getLsbD 15 = false ∧ h.extractLsb' 6 2 = 0) ∨
  (opc = 0x11 ∧ h.extractLsb' 17 3 = 0 ∧ h.getLsbD 15 = false ∧ h.extractLsb' 6 2 = 0) ∨
  (opc = 0x20 ∧ h.extractLsb' 0 16 = 0) ∨
  (opc = 0x21 ∧ h.extractLsb' 0 16 = 0) ∨
  (opc = 0x22 ∧ h.extractLsb' 16 4 = 0 ∧ h.extractLsb' 8 8 = 0) ∨
  (opc = 0x23 ∧ h.extractLsb' 16 4 = 0 ∧ h.extractLsb' 6 10 = 0) ∨
  (opc = 0x30 ∧ h.extractLsb' 16 4 = 0) ∨
  (opc = 0x31 ∧ h.extractLsb' 17 3 = 0)

/-! ## How a job ends -/

/-- R38 (a): a consumer's job on this bus is this bus's consumer's. -/
def JobOfBus (b : BusId) (u : Bus) : Prop := ∀ c, u.job.port = .consumer c → c = b

/-- R42, R214: `t` is `s` with bus `b` at `u` and the job's port answered: a client port gets the response; for the consumer the lines go
down, the lock is freed, and the result is held. -/
def Answered (s t : State) (b : BusId) (u : Bus) (st : Status) (n : Nat) (data : Bool) (bytes : List Byte) : Prop :=
  match u.job.port with
  | .client p =>
    OnlyPortAndBus s t p b ∧ t.bus b = u ∧ t.port p = { s.port p with pstate := .ready, resp := W st n data, rdata := bytes }
  | .consumer _ =>
    OnlyBus s t b ∧
    t.bus b =
      { (if s.cfg.isFourWire b then
          { u with cs := 0, trace := u.trace ++ (slaveIds.filter fun sl => u.cs.getLsbD sl.toNat).map (fun sl => .cs sl false) }
        else u) with
        lockOwner := none
        cres := ⟨st, n, u.creq.dir == .read, if u.creq.dir = .read then bytes else []⟩
        consState := .cPush }

/-- R147: `t` is `s` after `finish(b, st)`, where bus `b` was at `u` just before. -/
def I2cEnded (s t : State) (b : BusId) (u : Bus) (st : Status) : Prop :=
  let hasdata := u.job.dir == .read && u.job.dest == .port
  Answered s t b
    { u with trace := u.trace ++ [.stop], sb := false, addr := false, af := false, btf := false, rxne := false, ackEn := false,
             i2cState := .idle }
    st u.job.idx hasdata (if hasdata then u.jobBuf.toList.take u.job.idx else [])

/-- R182: `t` is `s` after `spi_finish(b, st)`, where bus `b` was at `u` just before. -/
def SpiEnded (s t : State) (b : BusId) (u : Bus) (st : Status) : Prop :=
  Answered s t b { u with spiState := .idle, srxne := false } st u.job.idx true (u.jobBuf.toList.take u.job.idx)

/-! ## Schedules of one transaction -/

/-- The moves of a two-wire job up to the acknowledged address: bus free, start latched, address sent and acknowledged. -/
def addressPhase (b : BusId) : List Move := [.i2cStart b, .envStartLatched b, .i2cAddress b, .envAddrAck b, .i2cAcked b]

/-- A write of `n` bytes, every one acknowledged. -/
def writeSchedule (b : BusId) (n : Nat) : List Move :=
  addressPhase b ++ (List.replicate n [.envByteDone b false, .i2cByteSent b]).flatten

/-- A read in which the slave sends `vs`. -/
def readSchedule (b : BusId) (vs : List Byte) : List Move :=
  addressPhase b ++ vs.flatMap fun v => [.envByteReady b v, .i2cByteReceived b]

/-- A four-wire transfer in which the slave sends `vs`. -/
def transferSchedule (b : BusId) (vs : List Byte) : List Move := vs.flatMap fun v => [.envExchange b v, .spiExchange b]

/-- R154: the read's events after the address byte, every byte but the last with acknowledgment enabled. -/
def readEvents : List Byte → List WireEvent
  | [] => []
  | [v] => [.ackCtl false, .rx v]
  | v :: vs => .ackCtl true :: .rx v :: readEvents vs

end Sys2Proof.Machine
end

