-- ==== Sys2Proof/Certificates/Slice0/Obligations.lean ====
section
/-! DEFINITION. The statements for the provers. A command's statement is about the presenting step (`exec`); an agent's statement is about
its move, when it is enabled (`moveEnabled`) and what it does (`runMove`); StepTakesTheNextMove and StepRunsThePresentedCommand carry both
to `step`. -/

open Sys2Proof Sys2Proof.Machine

/-! ## Encoding -/

/-- Words written out from the encodings of R81..R83, each with the command it stands for (spec/95_test_vectors.md X1..X21). -/
def Obligations.SpecWordsDecode : Prop :=
  decodeWords 0x0110000A 0 = some (.lockAcquire 1 10) ∧ decodeWords 0x02100000 0 = some (.lockRelease 1) ∧
  decodeWords 0x10004001 0 = some (.i2cWrite 0 0x40 1) ∧ decodeWords 0x11014003 0 = some (.i2cRead 0 .fifo 0x40 3) ∧
  decodeWords 0x20100000 0 = some (.spiSelect 1 0) ∧ decodeWords 0x21110000 0 = some (.spiDeselect 1 1) ∧
  decodeWords 0x22100025 0 = some (.spiXferByte 1 0x25) ∧ decodeWords 0x2310003F 0 = some (.spiXferBuf 1 63) ∧
  decodeWords 0x30100000 0x8002 = some (.chEnqReq 1 0 0x8002) ∧ decodeWords 0x3101FFFF 0 = some (.chDeq 0 .rsp 0xFFFF) ∧
  decodeWords 0x02000001 0 = none ∧ decodeWords 0x10024001 0 = none ∧ decodeWords 0x12000000 0 = none

/-- Every well-formed command, encoded with its payload and followed by anything, decodes to itself (bytes after a command are left over:
log 14; the payload length of a CH_ENQ_REQ on an unknown bus: log 16). -/
def Obligations.EncodedCommandDecodes : Prop :=
  ∀ (c : Config) (i : Instr) (payload rest : List Byte), i.wf = true → payload.length = payloadLen c i →
    decode c (encodeBytes i payload ++ rest) = .ok ⟨i, encodeHeader i, payload, rest⟩

/-- Bytes that decode are the encoding of what they decode to: every word has one meaning, and no bit is dropped. -/
def Obligations.DecodedCommandReencodes : Prop :=
  ∀ (c : Config) (bytes : List Byte) (d : Decoded), decode c bytes = .ok d →
    bytes = encodeBytes d.instr d.payload ++ d.rest ∧ d.header = encodeHeader d.instr ∧
      d.payload.length = payloadLen c d.instr

/-- R93: every row fixes the opcode byte, to distinct values; the row a word decodes to is a row of the table whose mask and match it
meets, at most one row meets it, and a word is illegal exactly when it fails every row. -/
def Obligations.OneRowMatchesAWord : Prop :=
  (∀ r ∈ opcodeTable, r.mask.extractLsb' 24 8 = 0xFF) ∧ (opcodeTable.map (·.pattern.extractLsb' 24 8)).Nodup ∧
  ∀ h : Word,
    (∀ r, rowOf h = some r → r ∈ opcodeTable ∧ h &&& r.mask = r.pattern) ∧
    (∀ r ∈ opcodeTable, ∀ r' ∈ opcodeTable, h &&& r.mask = r.pattern → h &&& r'.mask = r'.pattern →
      r.pattern = r'.pattern ∧ r.mask = r'.mask) ∧
    (rowOf h = none ↔ ∀ r ∈ opcodeTable, h &&& r.mask ≠ r.pattern)

/-- A header is legal exactly when its opcode is assigned and the reserved fields of its format are zero, field by field. -/
def Obligations.HeaderLegalByItsFields : Prop := ∀ h : Word, (rowOf h).isSome = true ↔ HeaderLegal h

/-- The payload length, from the header and the descriptor (R90). For a CH_ENQ_REQ with D[15] = 1 that names an unknown bus R90 leaves it
open, and the length 0 is the model's choice (log 16). -/
def Obligations.PayloadLengthOfAHeader : Prop :=
  ∀ (c : Config) (h d : Word) (i : Instr), decodeWords h d = some i →
    payloadLen c i =
      if h.extractLsb' 24 8 = 0x10 ∨ h.extractLsb' 24 8 = 0x23 then (h.extractLsb' 0 6).toNat
      else if h.extractLsb' 24 8 = 0x30 then
        if d.getLsbD 15 = false ∨ c.isFourWire (h.extractLsb' 20 4) = true then (d.extractLsb' 0 6).toNat else 0
      else 0

/-- The descriptor a dequeued request carries is the descriptor it was enqueued with (R87, R89, R201). -/
def Obligations.DequeuedDescriptorIsTheEnqueuedOne : Prop :=
  ∀ (c : Config) (b : BusId) (t : Timeout) (d : Word) (payload : List Byte),
    reservedOk c (.chEnqReq b t d) = true → (requestOf c b d payload).descriptor = d

/-- R88, R245: the fields of a response word and of an entry word. -/
def Obligations.ResponseWordFields : Prop :=
  (∀ (st : Status) (n : Nat) (data item : Bool), n ≤ 63 →
    let w := responseWord st n data item
    w.extractLsb' 0 4 =
        (match st with
          | .ok => 0 | .addrNack => 1 | .dataNack => 2 | .busTimeout => 3 | .lockTimeout => 4 | .queueFull => 5 | .queueEmpty => 6) ∧
      (w.extractLsb' 4 6).toNat = n ∧ w.getLsbD 10 = data ∧ w.getLsbD 11 = item ∧ w.extractLsb' 12 20 = 0) ∧
  (∀ e : Response, e.count ≤ 63 →
    e.word.extractLsb' 0 4 = e.status.code ∧ (e.word.extractLsb' 4 6).toNat = e.count ∧ e.word.getLsbD 10 = e.hasData ∧
      e.word.extractLsb' 11 21 = 0)

/-- Lines of the spec's programs and pseudo-instructions, with their encodings (R91, R92; spec/95_test_vectors.md P1..P4); a line whose
operand does not fit is refused. -/
def Obligations.SpecLinesAssemble : Prop :=
  (assemble Config.vectors "i2c.rd 0, 0x40, 3, fifo").map (·.map Command.bytes) = some [[0x03, 0x40, 0x01, 0x11]] ∧
  (assemble Config.vectors "ch.enq 0, now, rd, 0x40, 2").map (·.map Command.bytes) =
    some [[0x00, 0x00, 0x00, 0x30, 0x02, 0xC0, 0x00, 0x00]] ∧
  (assemble Config.vectors "spi.txn 1, 0, [0x25, 0x4C]").map (·.map Command.bytes) =
    some [[0x00, 0x00, 0x10, 0x20], [0x02, 0x00, 0x10, 0x23, 0x25, 0x4C], [0x00, 0x00, 0x10, 0x21]] ∧
  (assemble Config.vectors "lock.wait 0").map (·.map Command.bytes) = some [[0xFF, 0xFF, 0x00, 0x01]] ∧
  assemble Config.vectors "i2c.rd 0, 128, 1" = none

/-! ## The step -/

/-- On a valid configuration, `step` takes the first fixed move where its step is enabled and passes over it where it is not; with no move
fixed it does the same with the next free move (R41; logs 3, 4, 5). -/
def Obligations.StepTakesTheNextMove : Prop :=
  ∀ s : State, s.cfg.valid = true →
    (∀ m rest, s.moves = m :: rest →
      (moveEnabled { s with moves := rest } m = true → step s = runMove { s with moves := rest } m) ∧
      (moveEnabled { s with moves := rest } m = false → step s = .next { s with moves := rest })) ∧
    (s.moves = [] →
      (moveEnabled { s with draws := s.draws + 1 } (Config.freeMove s.draws) = true →
        step s = runMove { s with draws := s.draws + 1 } (Config.freeMove s.draws)) ∧
      (moveEnabled { s with draws := s.draws + 1 } (Config.freeMove s.draws) = false →
        step s = .next { s with draws := s.draws + 1 }))

/-- When the bytes presented on a Ready client port decode to a command, the step is that command's meaning, with the port, the header and
the payload on the command interface. -/
def Obligations.StepRunsThePresentedCommand : Prop :=
  ∀ (s : State) (p : PortIx) (bytes : List Byte) (rest : List Move) (d : Decoded),
    s.cfg.valid = true → s.fatal = false → p.val < s.cfg.nPort → (s.port p).pstate = .ready →
    s.moves = .present p bytes :: rest → decode s.cfg bytes = .ok d →
    step s = exec d.instr { s with moves := rest, pres := ⟨p, d.header, d.payload⟩ }

/-- R10: an invalid configuration is refused, and no step of a valid one changes the configuration. -/
def Obligations.ConfigurationIsValidAndFixed : Prop :=
  ∀ s : State, (s.cfg.valid = false → step s = .refused .invalidConfiguration) ∧
    (∀ t, step s = .next t → s.cfg.valid = true ∧ t.cfg = s.cfg)

/-- R270, R37: reset is enabled in every state, fatal ones too, and leaves every piece of state R37 gives a value at that value, BUSY as
drawn, the traces empty. -/
def Obligations.ResetGivesTheStatedValues : Prop :=
  ∀ (s : State) (busy : BitVec 16),
    moveEnabled s (.reset busy) = true ∧
    ∃ t, runMove s (.reset busy) = .next t ∧
      (∀ p, (t.port p).pstate = .ready) ∧
      t.tick = 0 ∧ t.fatal = false ∧ t.fatalCause = 0 ∧ t.fatalPort = 0 ∧ t.fatalCmd = 0 ∧ t.cfg = s.cfg ∧
      ∀ b, let u := t.bus b
        u.lockOwner = none ∧ u.i2cState = .idle ∧ u.ackEn = false ∧
        u.sb = false ∧ u.addr = false ∧ u.af = false ∧ u.btf = false ∧ u.rxne = false ∧ u.busy = busy.getLsbD b.toNat ∧
        u.cs = 0 ∧ u.spiState = .idle ∧ u.srxne = false ∧ u.rq = [] ∧ u.rsp = [] ∧ u.consState = .cIdle ∧ u.trace = []

/-- The command registers of a port change only in the step that presents a command on it while it is Ready, and at reset (R21, R256, R280). -/
def Obligations.CommandRegistersWrittenOnlyByPresenting : Prop :=
  ∀ s t : State, step s = .next t → s.nextMove.1.isReset = false → ∀ p,
    ((t.port p).cmd = (s.port p).cmd ∧ (t.port p).desc = (s.port p).desc ∧ (t.port p).payload = (s.port p).payload) ∨
    ((∃ bytes, s.nextMove.1 = .present p bytes) ∧ (s.port p).pstate = .ready)

/-- Apart from reset, a step from a state of the invariant leaves every bus unchanged but the one of its move: the agent's own bus, the bus the
presented command names, or the bus the port waits for (R61, R156, R219). -/
def Obligations.AStepChangesOneBus : Prop :=
  ∀ s t : State, Inv s → step s = .next t → s.nextMove.1.isReset = false →
    ∀ c, moveBus s s.nextMove.1 ≠ some c → t.bus c = s.bus c

/-- `tick` changes only by the clock's step, by one modulo 2^32, and by reset, to 0 (R23, R251). -/
def Obligations.TickMovesOnlyByTheClock : Prop :=
  ∀ s t : State, step s = .next t →
    t.tick = s.tick ∨ (s.nextMove.1 = .clockTick ∧ t.tick = s.tick + 1) ∨ (s.nextMove.1.isReset = true ∧ t.tick = 0)

/-! ## The fatal fault -/

/-- In a fatal state a step that is not reset passes over its move and changes nothing but the model's own list of moves still to come, or,
where none is fixed, its count of free moves (R41, R243, R247; logs 3, 4, 5). -/
def Obligations.FatalFreezesTheBlock : Prop :=
  ∀ s : State, s.cfg.valid = true → s.fatal = true → s.nextMove.1.isReset = false → step s = .next s.nextMove.2

/-- Only a presenting step makes the block fatal; it records one of the four causes, the port and the presented header, and changes nothing
else (R243; on the command interface, log 6). -/
def Obligations.OnlyPresentingIsFatal : Prop :=
  ∀ s t : State, step s = .next t → s.fatal = false → t.fatal = true →
    ∃ p bytes h after cause, s.nextMove.1 = .present p bytes ∧ (s.port p).pstate = .ready ∧ takeWord bytes = some (h, after) ∧
      1 ≤ BitVec.toNat cause ∧ BitVec.toNat cause ≤ 4 ∧ FatalOf { s.nextMove.2 with pres := t.pres } t p cause h

/-- The presenting step of a Ready client port records the first failing check of the order (encoding, bus, kind and channel,
descriptor, length, slave, lock, chip select), with R242's number of its cause, and where every check passes it goes on without a fault
(R242, R244). The model's readings: a fault changes nothing else (log 8), bytes after a command are ignored (log 14), and an illegal header
is fatal whatever follows it (log 15). -/
def Obligations.FirstFailingCheckIsRecorded : Prop :=
  ∀ (s : State) (p : PortIx) (bytes : List Byte), s.fatal = false → p.val < s.cfg.nPort → (s.port p).pstate = .ready →
    (∀ h after, takeWord bytes = some (h, after) → rowOf h = none →
      ∃ t, runMove s (.present p bytes) = .next t ∧ FatalOf s t p 2 h) ∧
    (∀ d, decode s.cfg bytes = .ok d →
      let s' := { s with pres := ⟨p, d.header, d.payload⟩ }
      (∀ c, firstFault s p d.instr = some c →
        ∃ t, runMove s (.present p bytes) = .next t ∧
          FatalOf s' t p (match c with | .unknownBusOrSlave => 1 | .illegalCommand => 2 | .lockNotHeld => 3 | .csProtocol => 4) d.header) ∧
      (firstFault s p d.instr = none → ∃ t, runMove s (.present p bytes) = .next t ∧ t.fatal = false))

/-- R117: a command that names an unknown bus is fatal with cause UNKNOWN_BUS_OR_SLAVE (1), and has no other effect. -/
def Obligations.UnknownBusIsFatal : Prop :=
  ∀ (i : Instr) (s : State) (p : PortIx), Presenting s p → s.cfg.nBus ≤ i.bus.toNat →
    ∃ t, exec i s = .next t ∧ FatalOf s t p 1 s.pres.cmd

/-! ## The Transaction Lock -/

/-- LOCK_ACQUIRE takes a free lock and answers OK; on a held lock, its own too (R116), it answers LOCK_TIMEOUT at once when T = 0 and waits
otherwise. The command is copied into the port's registers; nothing else changes (R110). -/
def Obligations.LockAcquireResult : Prop :=
  ∀ (s : State) (p : PortIx) (b : BusId) (T : Timeout), Presenting s p → s.cfg.hasBus b = true →
    let x := { s.port p with cmd := s.pres.cmd, payload := s.pres.payload }
    ((s.bus b).lockOwner = none →
      ∃ t, exec (.lockAcquire b T) s = .next t ∧ OnlyPortAndBus s t p b ∧
        t.bus b = { s.bus b with lockOwner := some (.client p) } ∧
        t.port p = { x with pstate := .ready, resp := W .ok 0 false, rdata := [] }) ∧
    ((s.bus b).lockOwner ≠ none → T = 0 →
      ∃ t, exec (.lockAcquire b T) s = .next t ∧ OnlyPort s t p ∧
        t.port p = { x with pstate := .ready, resp := W .lockTimeout 0 false, rdata := [] }) ∧
    ((s.bus b).lockOwner ≠ none → T ≠ 0 →
      ∃ t, exec (.lockAcquire b T) s = .next t ∧ OnlyPort s t p ∧
        t.port p = { x with pstate := .waiting ⟨.lockWait, b, s.tick, T⟩ })

/-- LOCK_RELEASE by the owner, with no line asserted on a four-wire bus, frees the lock and answers OK; nothing else changes (R112). -/
def Obligations.LockReleaseResult : Prop :=
  ∀ (s : State) (p : PortIx) (b : BusId), Presenting s p → s.cfg.hasBus b = true →
    (s.bus b).lockOwner = some (.client p) → (s.cfg.isFourWire b = true → (s.bus b).cs = 0) →
    ∃ t, exec (.lockRelease b) s = .next t ∧ OnlyPortAndBus s t p b ∧ t.bus b = { s.bus b with lockOwner := none } ∧
      t.port p = { s.port p with
        cmd := s.pres.cmd, payload := s.pres.payload, pstate := .ready, resp := W .ok 0 false, rdata := [] }

/-- R111: the timeout of a lock wait is enabled when `T ≠ 0xFFFF` and `elapsed(t0) ≥ T`, whether or not the lock is free, and answers
LOCK_TIMEOUT. -/
def Obligations.LockWaitTimeoutStep : Prop :=
  ∀ (s : State) (p : PortIx) (b : BusId) (t0 : Word) (T : Timeout), s.fatal = false → p.val < s.cfg.nPort →
    (s.port p).pstate = .waiting ⟨.lockWait, b, t0, T⟩ →
    (moveEnabled s (.portTimeout p) = true ↔ T ≠ 0xFFFF ∧ T.toNat ≤ (s.tick - t0).toNat) ∧
    ∃ t, runMove s (.portTimeout p) = .next t ∧ OnlyPort s t p ∧
      t.port p = { s.port p with pstate := .ready, resp := W .lockTimeout 0 false, rdata := [] }

/-- R113: the arbiter's grant to `q` is enabled exactly when the lock is free and `q` waits for it, for every such `q`; it gives `q` the lock
and answers OK. -/
def Obligations.LockGrantStep : Prop :=
  ∀ (s : State) (b : BusId) (q : PortIx), s.fatal = false → s.cfg.hasBus b = true → q.val < s.cfg.nPort →
    (moveEnabled s (.lockGrant b q) = true ↔
      (s.bus b).lockOwner = none ∧ ∃ t0 T, (s.port q).pstate = .waiting ⟨.lockWait, b, t0, T⟩) ∧
    ∃ t, runMove s (.lockGrant b q) = .next t ∧ OnlyPortAndBus s t q b ∧
      t.bus b = { s.bus b with lockOwner := some (.client q) } ∧
      t.port q = { s.port q with pstate := .ready, resp := W .ok 0 false, rdata := [] }

/-- A wait of `n` ticks: its timeout is not enabled at any of the first `n` ticks, and after `n` clock steps it is taken and answers the
timeout status of its kind, even where `tick` wraps (R12, R111, R202, R204, R251). -/
def Obligations.WaitTimesOutAfterItsTimeout : Prop :=
  ∀ (s : State) (p : PortIx) (w : Wait) (n : Nat) (rest : List Move),
    s.cfg.valid = true → s.fatal = false → p.val < s.cfg.nPort → (s.port p).pstate = .waiting w → w.t0 = s.tick →
    w.timeout ≠ 0xFFFF → n = w.timeout.toNat → s.moves = List.replicate n .clockTick ++ .portTimeout p :: rest →
    (∀ k < n, moveEnabled { s with tick := s.tick + BitVec.ofNat 32 k } (.portTimeout p) = false) ∧
    ∃ t, Host.Core.run Sys2Proof.core (n + 1) s = .next t ∧ t.moves = rest ∧ t.tick = s.tick + BitVec.ofNat 32 n ∧
      SamePortsBut s t p ∧ (∀ b, t.bus b = s.bus b) ∧
      t.port p = { s.port p with
        pstate := .ready
        rdata := []
        resp := match w.kind with
          | .lockWait => W .lockTimeout 0 false
          | .enqWait => W .queueFull 0 false
          | .deqWait _ => W .queueEmpty 0 false }

/-- From a state of the invariant, a client's lock is freed only by its own LOCK_RELEASE of that bus, and by reset: no other command, no
engine, no other port and no consumer takes it away (R25, R112, R115, R276). -/
def Obligations.LockFreedOnlyByItsOwner : Prop :=
  ∀ (s t : State) (b : BusId) (p : PortIx), Inv s → step s = .next t →
    (s.bus b).lockOwner = some (.client p) → (t.bus b).lockOwner ≠ some (.client p) →
    s.nextMove.1.isReset = true ∨
    ∃ bytes d, s.nextMove.1 = .present p bytes ∧ decode s.cfg bytes = .ok d ∧ d.instr = .lockRelease b ∧ (t.bus b).lockOwner = none

/-! ## The two-wire engine -/

/-- I2C_WRITE by the owner of a two-wire bus, of a length in range, starts a write job: the job registers, the payload in the job buffer,
WaitBusFree, and the port Executing; nothing else changes (R130). -/
def Obligations.I2cWriteStartsAJob : Prop :=
  ∀ (s : State) (p : PortIx) (b : BusId) (a : Addr7) (n : BitVec 6), Presenting s p → s.cfg.isTwoWire b = true →
    n.toNat ≤ s.cfg.i2cMaxLen → (s.bus b).lockOwner = some (.client p) → s.pres.payload.length = n.toNat →
    ∃ t m, exec (.i2cWrite b a n) s = .next t ∧ OnlyPortAndBus s t p b ∧
      t.bus b = { s.bus b with
        job := ⟨.client p, .write, a, n.toNat, 0, .port, s.tick⟩, jobBuf := m, i2cState := .waitBusFree } ∧
      (∀ k < 63, bufRead m k = if k < n.toNat then s.pres.payload[k]? else bufRead (s.bus b).jobBuf k) ∧
      t.port p = { s.port p with cmd := s.pres.cmd, payload := s.pres.payload, pstate := .executing }

/-- I2C_READ by the owner of a two-wire bus, of a length in range, to the port or to the FIFO of a bus that has one, starts a read job;
the job buffer stays, and nothing else changes (R131). -/
def Obligations.I2cReadStartsAJob : Prop :=
  ∀ (s : State) (p : PortIx) (b : BusId) (dest : Dest) (a : Addr7) (n : BitVec 6), Presenting s p → s.cfg.isTwoWire b = true →
    (dest = .fifo → s.cfg.hasChannel b = true) → 1 ≤ n.toNat → n.toNat ≤ s.cfg.i2cMaxLen →
    (s.bus b).lockOwner = some (.client p) →
    ∃ t, exec (.i2cRead b dest a n) s = .next t ∧ OnlyPortAndBus s t p b ∧
      t.bus b = { s.bus b with job := ⟨.client p, .read, a, n.toNat, 0, dest, s.tick⟩, i2cState := .waitBusFree } ∧
      t.port p = { s.port p with cmd := s.pres.cmd, payload := s.pres.payload, pstate := .executing }

/-- R140: the engine leaves WaitBusFree exactly when BUSY is low: START, and no STOP before it; while BUSY is high it has no step but the wire
timeout. -/
def Obligations.BusFreeStep : Prop :=
  ∀ (s : State) (b : BusId), s.fatal = false → s.cfg.isTwoWire b = true →
    (moveEnabled s (.i2cStart b) = true ↔ (s.bus b).i2cState = .waitBusFree ∧ (s.bus b).busy = false) ∧
    (∃ t, runMove s (.i2cStart b) = .next t ∧ OnlyBus s t b ∧
      t.bus b = { s.bus b with
        trace := (s.bus b).trace ++ [.start], job := { (s.bus b).job with t0 := s.tick }, i2cState := .started }) ∧
    ((s.bus b).i2cState = .waitBusFree → (s.bus b).busy = true →
      ∀ m ∈ [Move.i2cStart b, .i2cAddress b, .i2cAcked b, .i2cNotAcked b, .i2cByteSent b, .i2cByteReceived b],
        moveEnabled s m = false)

/-- R141, R133: in Started with SB, the address byte `addr7 * 2 + dir` goes out, every address as given. -/
def Obligations.StartLatchedStep : Prop :=
  ∀ (s : State) (b : BusId), s.fatal = false → s.cfg.isTwoWire b = true →
    (moveEnabled s (.i2cAddress b) = true ↔ (s.bus b).i2cState = .started ∧ (s.bus b).sb = true) ∧
    ∃ t abyte, runMove s (.i2cAddress b) = .next t ∧ OnlyBus s t b ∧
      BitVec.toNat abyte = 2 * (s.bus b).job.addr.toNat + (match (s.bus b).job.dir with | .write => 0 | .read => 1) ∧
      t.bus b = { s.bus b with
        sb := false, trace := (s.bus b).trace ++ [.addr abyte], job := { (s.bus b).job with t0 := s.tick }, i2cState := .addressSent }

/-- R142, R144: on an acknowledged address a write of no byte ends OK, any other write sends byte 0, and a read sets the acknowledgment
control, off for a read of one byte. -/
def Obligations.AddressAckedStep : Prop :=
  ∀ (s : State) (b : BusId), s.fatal = false → s.cfg.isTwoWire b = true → JobOfBus b (s.bus b) →
    let u := s.bus b
    (moveEnabled s (.i2cAcked b) = true ↔ u.i2cState = .addressSent ∧ u.addr = true) ∧
    (u.job.dir = .write → u.job.len = 0 →
      ∃ t, runMove s (.i2cAcked b) = .next t ∧ I2cEnded s t b { u with addr := false } .ok) ∧
    (u.job.dir = .write → u.job.len ≠ 0 →
      ∃ t v, runMove s (.i2cAcked b) = .next t ∧ OnlyBus s t b ∧ bufRead u.jobBuf 0 = some v ∧
        t.bus b = { u with
          addr := false, trace := u.trace ++ [.tx v], job := { u.job with t0 := s.tick }, i2cState := .transferActive }) ∧
    (u.job.dir = .read →
      ∃ t ack, runMove s (.i2cAcked b) = .next t ∧ OnlyBus s t b ∧ (ack = true ↔ 1 < u.job.len) ∧
        t.bus b = { u with
          addr := false, ackEn := ack, trace := u.trace ++ [.ackCtl ack], job := { u.job with t0 := s.tick },
          i2cState := .transferActive })

/-- R143, R147: an address that is not acknowledged ends the job: AF is cleared, STOP, ADDR_NACK. -/
def Obligations.AddressNotAckedStep : Prop :=
  ∀ (s : State) (b : BusId), s.fatal = false → s.cfg.isTwoWire b = true → JobOfBus b (s.bus b) →
    (moveEnabled s (.i2cNotAcked b) = true ↔ (s.bus b).i2cState = .addressSent ∧ (s.bus b).af = true) ∧
    ∃ t, runMove s (.i2cNotAcked b) = .next t ∧ I2cEnded s t b { s.bus b with af := false } .addrNack

/-- R145: a completed write byte ends the job with DATA_NACK where AF is set, leaving the rest unsent; otherwise it counts, and the job ends
OK at the last byte and sends the next one before it. -/
def Obligations.WriteByteStep : Prop :=
  ∀ (s : State) (b : BusId), s.fatal = false → s.cfg.isTwoWire b = true → JobOfBus b (s.bus b) →
    let u := s.bus b
    let u' := { u with btf := false, job := { u.job with idx := u.job.idx + 1 } }
    (moveEnabled s (.i2cByteSent b) = true ↔ u.i2cState = .transferActive ∧ u.job.dir = .write ∧ u.btf = true) ∧
    (u.af = true →
      ∃ t, runMove s (.i2cByteSent b) = .next t ∧ I2cEnded s t b { u with btf := false, af := false } .dataNack) ∧
    (u.af = false → u.job.idx + 1 = u.job.len →
      ∃ t, runMove s (.i2cByteSent b) = .next t ∧ I2cEnded s t b u' .ok) ∧
    (u.af = false → u.job.idx + 1 < u.job.len → u.job.len ≤ 63 →
      ∃ t v, runMove s (.i2cByteSent b) = .next t ∧ OnlyBus s t b ∧ bufRead u.jobBuf (u.job.idx + 1) = some v ∧
        t.bus b = { u' with trace := u.trace ++ [.tx v], job := { u'.job with t0 := s.tick } })

/-- R146, R144: a received byte is traced, stored at its index, and pushed where the job's destination is the FIFO; the job ends OK at the
last byte, and before it sets the acknowledgment control for the next, off for the last. -/
def Obligations.ReadByteStep : Prop :=
  ∀ (s : State) (b : BusId), s.fatal = false → s.cfg.isTwoWire b = true → JobOfBus b (s.bus b) →
    let u := s.bus b
    (moveEnabled s (.i2cByteReceived b) = true ↔
      u.i2cState = .transferActive ∧ u.job.dir = .read ∧ u.rxne = true ∧
        (u.job.dest = .port ∨ u.rsp.length < s.cfg.rspDepth b)) ∧
    (u.job.idx < u.job.len → u.job.len ≤ 63 →
      ∃ m, (∀ k < 63, bufRead m k = if k = u.job.idx then some u.dr else bufRead u.jobBuf k) ∧
        let u' := { u with
          rxne := false, jobBuf := m, trace := u.trace ++ [.rx u.dr], job := { u.job with idx := u.job.idx + 1 },
          rsp := (match u.job.dest with | .port => u.rsp | .fifo => u.rsp ++ [⟨.ok, 1, true, [u.dr]⟩]) }
        (u.job.idx + 1 = u.job.len → ∃ t, runMove s (.i2cByteReceived b) = .next t ∧ I2cEnded s t b u' .ok) ∧
        (u.job.idx + 1 < u.job.len →
          ∃ t ack, runMove s (.i2cByteReceived b) = .next t ∧ OnlyBus s t b ∧ (ack = true ↔ u.job.idx + 2 < u.job.len) ∧
            t.bus b = { u' with
              ackEn := ack, trace := u.trace ++ [.rx u.dr, .ackCtl ack], job := { u'.job with t0 := s.tick } }))

/-- R148, R147: the wire timeout is enabled only under a finite WIRE_TIMEOUT that has passed while the awaited event of the engine's state
has not occurred, and ends the job with BUS_TIMEOUT. -/
def Obligations.I2cWireTimeoutStep : Prop :=
  ∀ (s : State) (b : BusId), s.fatal = false → s.cfg.isTwoWire b = true → JobOfBus b (s.bus b) →
    let u := s.bus b
    (moveEnabled s (.i2cWireTimeout b) = true ↔
      (∃ w, s.cfg.wireTimeout = some w ∧ w ≤ (s.tick - u.job.t0).toNat) ∧
      ((u.i2cState = .waitBusFree ∧ u.busy = true) ∨
       (u.i2cState = .started ∧ u.sb = false) ∨
       (u.i2cState = .addressSent ∧ u.addr = false ∧ u.af = false) ∨
       (u.i2cState = .transferActive ∧ u.job.dir = .write ∧ u.btf = false) ∨
       (u.i2cState = .transferActive ∧ u.job.dir = .read ∧ u.rxne = false))) ∧
    ∃ t, runMove s (.i2cWireTimeout b) = .next t ∧ I2cEnded s t b u .busTimeout

/-- A write job of `n` bytes whose every byte is acknowledged runs, step by step, to `START, ADDR(2A), TX(d0), .., TX(d(n-1)), STOP` and the
response OK with COUNT = n (R154, R149). -/
def Obligations.SuccessfulWriteTrace : Prop :=
  ∀ (s : State) (b : BusId) (p : PortIx) (a : Addr7) (dest : Dest) (t0 : Word) (data : List Byte) (rest : List Move),
    s.cfg.valid = true → s.fatal = false → s.cfg.isTwoWire b = true → (s.bus b).i2cState = .waitBusFree →
    (s.bus b).busy = false → (s.bus b).sb = false → (s.bus b).addr = false → (s.bus b).af = false → (s.bus b).btf = false →
    data.length ≤ 63 → (s.bus b).job = ⟨.client p, .write, a, data.length, 0, dest, t0⟩ →
    (s.bus b).jobBuf.toList.take data.length = data → s.moves = writeSchedule b data.length ++ rest →
    ∃ t, Host.Core.run Sys2Proof.core (writeSchedule b data.length).length s = .next t ∧ t.moves = rest ∧
      SamePortsBut s t p ∧ SameBusesBut s t b ∧ (t.bus b).i2cState = .idle ∧ (t.bus b).lockOwner = (s.bus b).lockOwner ∧
      (t.bus b).trace = (s.bus b).trace ++ .start :: .addr (BitVec.ofNat 8 (2 * a.toNat)) :: data.map .tx ++ [.stop] ∧
      t.port p = { s.port p with pstate := .ready, resp := W .ok data.length false, rdata := [] }

/-- A read job to the port in which the slave sends `vs` runs, step by step, to `START, ADDR(2A+1)`, an ACKCTL before each byte, 1 before all
but the last, `STOP`, and the response OK with the bytes in order (R154, R149, R62). -/
def Obligations.SuccessfulReadTrace : Prop :=
  ∀ (s : State) (b : BusId) (p : PortIx) (a : Addr7) (t0 : Word) (vs : List Byte) (rest : List Move),
    s.cfg.valid = true → s.fatal = false → s.cfg.isTwoWire b = true → (s.bus b).i2cState = .waitBusFree →
    (s.bus b).busy = false → (s.bus b).sb = false → (s.bus b).addr = false → (s.bus b).af = false → (s.bus b).rxne = false →
    1 ≤ vs.length → vs.length ≤ 63 → (s.bus b).job = ⟨.client p, .read, a, vs.length, 0, .port, t0⟩ →
    s.moves = readSchedule b vs ++ rest →
    ∃ t, Host.Core.run Sys2Proof.core (readSchedule b vs).length s = .next t ∧ t.moves = rest ∧
      SamePortsBut s t p ∧ SameBusesBut s t b ∧ (t.bus b).i2cState = .idle ∧ (t.bus b).lockOwner = (s.bus b).lockOwner ∧
      (t.bus b).trace =
        (s.bus b).trace ++ .start :: .addr (BitVec.ofNat 8 (2 * a.toNat + 1)) :: readEvents vs ++ [.stop] ∧
      t.port p = { s.port p with pstate := .ready, resp := W .ok vs.length true, rdata := vs }

/-! ## The four-wire engine -/

/-- SPI_SELECT by the owner, of a known slave, with no line asserted, asserts the slave's line alone and emits CS(s, 1); SPI_DESELECT by the
owner deasserts the slave's line and emits CS(s, 0) where it was asserted, and changes no line and emits nothing where it was not. Both
answer OK, and nothing else changes (R170, R171). -/
def Obligations.SpiSelectAndDeselectResult : Prop :=
  ∀ (s : State) (p : PortIx) (b : BusId) (sl : SlaveId), Presenting s p → s.cfg.isFourWire b = true →
    s.cfg.hasSlave b sl = true → (s.bus b).lockOwner = some (.client p) →
    let x := { s.port p with cmd := s.pres.cmd, payload := s.pres.payload, pstate := .ready, resp := W .ok 0 false, rdata := [] }
    ((s.bus b).cs = 0 →
      ∃ t cs', exec (.spiSelect b sl) s = .next t ∧ OnlyPortAndBus s t p b ∧ t.port p = x ∧
        t.bus b = { s.bus b with cs := cs', trace := (s.bus b).trace ++ [.cs sl true] } ∧
        ∀ k : SlaveId, BitVec.getLsbD cs' k.toNat = decide (k = sl)) ∧
    ((s.bus b).cs.getLsbD sl.toNat = true →
      ∃ t cs', exec (.spiDeselect b sl) s = .next t ∧ OnlyPortAndBus s t p b ∧ t.port p = x ∧
        t.bus b = { s.bus b with cs := cs', trace := (s.bus b).trace ++ [.cs sl false] } ∧
        ∀ k : SlaveId, BitVec.getLsbD cs' k.toNat = ((s.bus b).cs.getLsbD k.toNat && decide (k ≠ sl))) ∧
    ((s.bus b).cs.getLsbD sl.toNat = false →
      ∃ t, exec (.spiDeselect b sl) s = .next t ∧ OnlyPort s t p ∧ t.port p = x)

/-- SPI_XFER_BYTE by the owner with one line asserted starts a job of one byte; the lines stay, and nothing else changes (R172). -/
def Obligations.SpiXferByteStartsAJob : Prop :=
  ∀ (s : State) (p : PortIx) (b : BusId) (tx : Byte) (sl : SlaveId), Presenting s p → s.cfg.isFourWire b = true →
    (s.bus b).lockOwner = some (.client p) → (s.bus b).cs = csBit sl →
    ∃ t m, exec (.spiXferByte b tx) s = .next t ∧ OnlyPortAndBus s t p b ∧
      t.bus b = { s.bus b with
        job := { (s.bus b).job with port := .client p, len := 1, idx := 0, t0 := s.tick }, jobBuf := m, spiState := .transferring } ∧
      (∀ k < 63, bufRead m k = if k = 0 then some tx else bufRead (s.bus b).jobBuf k) ∧
      t.port p = { s.port p with cmd := s.pres.cmd, payload := s.pres.payload, pstate := .executing }

/-- SPI_XFER_BUF by the owner with one line asserted answers OK with no bytes at once when it is empty, and otherwise starts a job of its
payload; the lines stay, and nothing else changes (R173). -/
def Obligations.SpiXferBufResult : Prop :=
  ∀ (s : State) (p : PortIx) (b : BusId) (n : BitVec 6) (sl : SlaveId), Presenting s p → s.cfg.isFourWire b = true →
    n.toNat ≤ s.cfg.spiMaxLen → (s.bus b).lockOwner = some (.client p) → (s.bus b).cs = csBit sl →
    s.pres.payload.length = n.toNat →
    let x := { s.port p with cmd := s.pres.cmd, payload := s.pres.payload }
    (n = 0 →
      ∃ t, exec (.spiXferBuf b n) s = .next t ∧ OnlyPort s t p ∧
        t.port p = { x with pstate := .ready, resp := W .ok 0 true, rdata := [] }) ∧
    (n ≠ 0 →
      ∃ t m, exec (.spiXferBuf b n) s = .next t ∧ OnlyPortAndBus s t p b ∧
        t.bus b = { s.bus b with
          job := { (s.bus b).job with port := .client p, len := n.toNat, idx := 0, t0 := s.tick }, jobBuf := m,
          spiState := .transferring } ∧
        (∀ k < 63, bufRead m k = if k < n.toNat then s.pres.payload[k]? else bufRead (s.bus b).jobBuf k) ∧
        t.port p = { x with pstate := .executing })

/-- R180, R182: a completed exchange is traced, the received byte takes the sent byte's place, and the job ends OK at the last byte with the
received bytes; no line changes unless the job is the consumer's (R181, R214). A consumer's lines go down in the order of their slave
ids where several are asserted, which R38 (b) rules out: the model's choice (log 18). -/
def Obligations.SpiExchangeStep : Prop :=
  ∀ (s : State) (b : BusId), s.fatal = false → s.cfg.isFourWire b = true → JobOfBus b (s.bus b) →
    let u := s.bus b
    (moveEnabled s (.spiExchange b) = true ↔ u.spiState = .transferring ∧ u.srxne = true) ∧
    (u.job.idx < u.job.len → u.job.len ≤ 63 →
      ∃ m tx, bufRead u.jobBuf u.job.idx = some tx ∧
        (∀ k < 63, bufRead m k = if k = u.job.idx then some u.sdr else bufRead u.jobBuf k) ∧
        let u' := { u with
          srxne := false, jobBuf := m, trace := u.trace ++ [.xfer tx u.sdr], job := { u.job with idx := u.job.idx + 1 } }
        (u.job.idx + 1 = u.job.len → ∃ t, runMove s (.spiExchange b) = .next t ∧ SpiEnded s t b u' .ok) ∧
        (u.job.idx + 1 < u.job.len →
          ∃ t, runMove s (.spiExchange b) = .next t ∧ OnlyBus s t b ∧ t.bus b = { u' with job := { u'.job with t0 := s.tick } }))

/-- R183, R182: the wire timeout is enabled only under a finite WIRE_TIMEOUT that has passed with no byte received; it deasserts the asserted
line, with CS(s, 0), and ends the job with BUS_TIMEOUT. -/
def Obligations.SpiWireTimeoutStep : Prop :=
  ∀ (s : State) (b : BusId) (sl : SlaveId), s.fatal = false → s.cfg.isFourWire b = true → JobOfBus b (s.bus b) →
    let u := s.bus b
    (moveEnabled s (.spiWireTimeout b) = true ↔
      (∃ w, s.cfg.wireTimeout = some w ∧ w ≤ (s.tick - u.job.t0).toNat) ∧ u.spiState = .transferring ∧ u.srxne = false) ∧
    (u.cs = 0 → ∃ t, runMove s (.spiWireTimeout b) = .next t ∧ SpiEnded s t b u .busTimeout) ∧
    (u.cs = csBit sl →
      ∃ t, runMove s (.spiWireTimeout b) = .next t ∧
        SpiEnded s t b { u with cs := 0, trace := u.trace ++ [.cs sl false] } .busTimeout)

/-- A four-wire job of a client in which the slave sends `vs` runs, step by step, to one XFER of each byte pair in order and the response OK
with the received bytes; the selected line stays asserted and the lock held (R173, R180, R181, R182, R62). -/
def Obligations.SuccessfulTransferTrace : Prop :=
  ∀ (s : State) (b : BusId) (p : PortIx) (txs vs : List Byte) (rest : List Move),
    s.cfg.valid = true → s.fatal = false → s.cfg.isFourWire b = true → (s.bus b).spiState = .transferring →
    (s.bus b).srxne = false → (s.bus b).job.port = .client p → (s.bus b).job.idx = 0 → (s.bus b).job.len = vs.length →
    1 ≤ vs.length → vs.length ≤ 63 → txs.length = vs.length → (s.bus b).jobBuf.toList.take vs.length = txs →
    s.moves = transferSchedule b vs ++ rest →
    ∃ t, Host.Core.run Sys2Proof.core (transferSchedule b vs).length s = .next t ∧ t.moves = rest ∧
      SamePortsBut s t p ∧ SameBusesBut s t b ∧ (t.bus b).spiState = .idle ∧ (t.bus b).cs = (s.bus b).cs ∧
      (t.bus b).lockOwner = (s.bus b).lockOwner ∧
      (t.bus b).trace = (s.bus b).trace ++ List.zipWith .xfer txs vs ∧
      t.port p = { s.port p with pstate := .ready, resp := W .ok vs.length true, rdata := vs }

/-! ## The channel -/

/-- CH_ENQ_REQ of a valid request appends it where there is room and answers OK; on a full FIFO it answers QUEUE_FULL at once when T = 0 and
waits otherwise, with the FIFO unchanged. The command is copied in; nothing else changes, the lock neither asked nor touched (R201). -/
def Obligations.ChEnqReqResult : Prop :=
  ∀ (s : State) (p : PortIx) (b : BusId) (T : Timeout) (d : Word), Presenting s p → s.cfg.hasChannel b = true →
    reservedOk s.cfg (.chEnqReq b T d) = true → lengthOk s.cfg (.chEnqReq b T d) = true → slaveOk s.cfg (.chEnqReq b T d) = true →
    s.pres.payload.length = payloadLen s.cfg (.chEnqReq b T d) →
    let x := { s.port p with cmd := s.pres.cmd, desc := d, payload := s.pres.payload }
    let req : Request :=
      { dir := if d.getLsbD 15 then .read else .write
        target := if s.cfg.isFourWire b then (d.extractLsb' 8 4).setWidth 7 else d.extractLsb' 8 7
        len := d.extractLsb' 0 6
        data := s.pres.payload }
    ((s.bus b).rq.length < s.cfg.rqDepth b →
      ∃ t, exec (.chEnqReq b T d) s = .next t ∧ OnlyPortAndBus s t p b ∧ t.bus b = { s.bus b with rq := (s.bus b).rq ++ [req] } ∧
        t.port p = { x with pstate := .ready, resp := W .ok 0 false, rdata := [] }) ∧
    (s.cfg.rqDepth b ≤ (s.bus b).rq.length → T = 0 →
      ∃ t, exec (.chEnqReq b T d) s = .next t ∧ OnlyPort s t p ∧
        t.port p = { x with pstate := .ready, resp := W .queueFull 0 false, rdata := [] }) ∧
    (s.cfg.rqDepth b ≤ (s.bus b).rq.length → T ≠ 0 →
      ∃ t, exec (.chEnqReq b T d) s = .next t ∧ OnlyPort s t p ∧
        t.port p = { x with pstate := .waiting ⟨.enqWait, b, s.tick, T⟩ })

/-- CH_DEQ takes the head of the selected FIFO and answers 0x800 with the item: a request's descriptor word, least significant byte first,
and its data; an entry's word and, where it has data, its data. On an empty FIFO it answers QUEUE_EMPTY at once when T = 0 and waits
otherwise. Nothing else changes (R203, R89). -/
def Obligations.ChDeqResult : Prop :=
  ∀ (s : State) (p : PortIx) (b : BusId) (T : Timeout), Presenting s p → s.cfg.hasChannel b = true →
    let x := { s.port p with cmd := s.pres.cmd, payload := s.pres.payload }
    (∀ r rest, (s.bus b).rq = r :: rest →
      ∃ t, exec (.chDeq b .rq T) s = .next t ∧ OnlyPortAndBus s t p b ∧ t.bus b = { s.bus b with rq := rest } ∧
        t.port p = { x with pstate := .ready, resp := 0x800, rdata := leBytes r.descriptor ++ r.data }) ∧
    (∀ e rest, (s.bus b).rsp = e :: rest →
      ∃ t, exec (.chDeq b .rsp T) s = .next t ∧ OnlyPortAndBus s t p b ∧ t.bus b = { s.bus b with rsp := rest } ∧
        t.port p = { x with
          pstate := .ready, resp := 0x800, rdata := leBytes e.word ++ (if e.hasData then e.data else []) }) ∧
    (∀ q, (q = .rq ∧ (s.bus b).rq = []) ∨ (q = .rsp ∧ (s.bus b).rsp = []) →
      (T = 0 →
        ∃ t, exec (.chDeq b q T) s = .next t ∧ OnlyPort s t p ∧
          t.port p = { x with pstate := .ready, resp := W .queueEmpty 0 false, rdata := [] }) ∧
      (T ≠ 0 →
        ∃ t, exec (.chDeq b q T) s = .next t ∧ OnlyPort s t p ∧
          t.port p = { x with pstate := .waiting ⟨.deqWait q, b, s.tick, T⟩ }))

/-- R202: a waiting enqueue (a) goes in when there is room, (b) times out with QUEUE_FULL when its time has passed, the FIFO unchanged; both may
be enabled. -/
def Obligations.EnqueueWaitSteps : Prop :=
  ∀ (s : State) (p : PortIx) (b : BusId) (t0 : Word) (T : Timeout), s.fatal = false → p.val < s.cfg.nPort →
    (s.port p).pstate = .waiting ⟨.enqWait, b, t0, T⟩ →
    (moveEnabled s (.portEnqueue p) = true ↔ (s.bus b).rq.length < s.cfg.rqDepth b) ∧
    (∃ t, runMove s (.portEnqueue p) = .next t ∧ OnlyPortAndBus s t p b ∧
      t.bus b = { s.bus b with rq := (s.bus b).rq ++ [requestOf s.cfg b (s.port p).desc (s.port p).payload] } ∧
      t.port p = { s.port p with pstate := .ready, resp := W .ok 0 false, rdata := [] }) ∧
    (moveEnabled s (.portTimeout p) = true ↔ T ≠ 0xFFFF ∧ T.toNat ≤ (s.tick - t0).toNat) ∧
    (∃ t, runMove s (.portTimeout p) = .next t ∧ OnlyPort s t p ∧
      t.port p = { s.port p with pstate := .ready, resp := W .queueFull 0 false, rdata := [] })

/-- R204: a waiting dequeue (a) takes the head of its FIFO when there is one, (b) times out with QUEUE_EMPTY when its time has passed; both may
be enabled. -/
def Obligations.DequeueWaitSteps : Prop :=
  ∀ (s : State) (p : PortIx) (b : BusId) (q : QSel) (t0 : Word) (T : Timeout), s.fatal = false → p.val < s.cfg.nPort →
    (s.port p).pstate = .waiting ⟨.deqWait q, b, t0, T⟩ →
    (moveEnabled s (.portDequeue p) = true ↔ (q = .rq ∧ (s.bus b).rq ≠ []) ∨ (q = .rsp ∧ (s.bus b).rsp ≠ [])) ∧
    (∀ r rest, q = .rq → (s.bus b).rq = r :: rest →
      ∃ t, runMove s (.portDequeue p) = .next t ∧ OnlyPortAndBus s t p b ∧ t.bus b = { s.bus b with rq := rest } ∧
        t.port p = { s.port p with pstate := .ready, resp := 0x800, rdata := leBytes r.descriptor ++ r.data }) ∧
    (∀ e rest, q = .rsp → (s.bus b).rsp = e :: rest →
      ∃ t, runMove s (.portDequeue p) = .next t ∧ OnlyPortAndBus s t p b ∧ t.bus b = { s.bus b with rsp := rest } ∧
        t.port p = { s.port p with
          pstate := .ready, resp := 0x800, rdata := leBytes e.word ++ (if e.hasData then e.data else []) }) ∧
    (moveEnabled s (.portTimeout p) = true ↔ T ≠ 0xFFFF ∧ T.toNat ≤ (s.tick - t0).toNat) ∧
    (∃ t, runMove s (.portTimeout p) = .next t ∧ OnlyPort s t p ∧
      t.port p = { s.port p with pstate := .ready, resp := W .queueEmpty 0 false, rdata := [] })

/-- R211, R215: an idle consumer takes the head of the request FIFO; a consumer with a result pushes it where there is room, and drops none. -/
def Obligations.ConsumerTakeAndPushSteps : Prop :=
  ∀ (s : State) (b : BusId), s.fatal = false → s.cfg.hasChannel b = true →
    let u := s.bus b
    (moveEnabled s (.consTake b) = true ↔ u.consState = .cIdle ∧ u.rq ≠ []) ∧
    (∀ r rest, u.rq = r :: rest →
      ∃ t, runMove s (.consTake b) = .next t ∧ OnlyBus s t b ∧ t.bus b = { u with creq := r, rq := rest, consState := .cLock }) ∧
    (moveEnabled s (.consPush b) = true ↔ u.consState = .cPush ∧ u.rsp.length < s.cfg.rspDepth b) ∧
    (∃ t, runMove s (.consPush b) = .next t ∧ OnlyBus s t b ∧ t.bus b = { u with rsp := u.rsp ++ [u.cres], consState := .cIdle })

/-- R213, R212: a consumer with a request takes the free lock and starts its job: on a two-wire bus the write or read job of the request; on
a four-wire bus it asserts the slave's line and starts the transfer, or, for no bytes, asserts and deasserts it, frees the lock and holds
the result OK. Where a request has fewer data bytes than its length, which no state of the invariant has, the rest of the job buffer stays:
the model's choice (log 23). -/
def Obligations.ConsumerStartStep : Prop :=
  ∀ (s : State) (b : BusId), s.fatal = false → s.cfg.hasChannel b = true →
    let u := s.bus b
    let r := u.creq
    let sl := r.target.setWidth 4
    (moveEnabled s (.consStart b) = true ↔ u.consState = .cLock ∧ u.lockOwner = none) ∧
    (s.cfg.isTwoWire b = true →
      ∃ t m, runMove s (.consStart b) = .next t ∧ OnlyBus s t b ∧
        (∀ k < 63, bufRead m k =
          if r.dir = .write ∧ k < r.len.toNat ∧ k < r.data.length then r.data[k]? else bufRead u.jobBuf k) ∧
        t.bus b = { u with
          lockOwner := some (.consumer b), job := ⟨.consumer b, r.dir, r.target, r.len.toNat, 0, .port, s.tick⟩, jobBuf := m,
          i2cState := .waitBusFree, consState := .cRun }) ∧
    (s.cfg.isFourWire b = true → u.cs = 0 → r.len = 0 →
      ∃ t, runMove s (.consStart b) = .next t ∧ OnlyBus s t b ∧
        t.bus b = { u with
          lockOwner := none, trace := u.trace ++ [.cs sl true, .cs sl false], cres := ⟨.ok, 0, r.dir == .read, []⟩,
          consState := .cPush }) ∧
    (s.cfg.isFourWire b = true → u.cs = 0 → r.len ≠ 0 →
      ∃ t m, runMove s (.consStart b) = .next t ∧ OnlyBus s t b ∧
        (∀ k < 63, bufRead m k = if k < r.len.toNat ∧ k < r.data.length then r.data[k]? else bufRead u.jobBuf k) ∧
        t.bus b = { u with
          lockOwner := some (.consumer b), cs := csBit sl, trace := u.trace ++ [.cs sl true],
          job := { u.job with port := .consumer b, len := r.len.toNat, idx := 0, t0 := s.tick }, jobBuf := m,
          spiState := .transferring, consState := .cRun })

/-- Under weak fairness of the consumer's take step, from a state of the invariant, a request in the FIFO of an idle consumer is followed by
that step, enabled and so taken, unless the FIFO is emptied first or the block becomes fatal (R211, R279). -/
def Obligations.QueuedRequestIsTaken : Prop :=
  ∀ (s : State) (sched : Nat → Move) (b : BusId), Inv s → s.cfg.hasChannel b = true → WeaklyFair s sched (.consTake b) →
    ∀ n, ((stateAt s sched n).bus b).consState = .cIdle → ((stateAt s sched n).bus b).rq ≠ [] →
      ∃ k, n ≤ k ∧
        ((sched k = .consTake b ∧ moveEnabled (stateAt s sched k) (.consTake b) = true) ∨ ((stateAt s sched k).bus b).rq = [] ∨ (stateAt s sched k).fatal = true)

/-! ## The environment and the outputs -/

/-- R150, R151, R184, R33: each step of the bus environment, when it is enabled, and the status inputs it writes; every drawn level, answer and
byte is possible. -/
def Obligations.EnvironmentSteps : Prop :=
  ∀ (s : State) (b : BusId) (v : Byte) (x : Bool), s.fatal = false →
    let u := s.bus b
    (s.cfg.isTwoWire b = true →
      (moveEnabled s (.envBusy b x) = true ∧
        ∃ t, runMove s (.envBusy b x) = .next t ∧ OnlyBus s t b ∧ t.bus b = { u with busy := x }) ∧
      ((moveEnabled s (.envStartLatched b) = true ↔ u.i2cState = .started ∧ u.sb = false) ∧
        ∃ t, runMove s (.envStartLatched b) = .next t ∧ OnlyBus s t b ∧ t.bus b = { u with sb := true }) ∧
      ((moveEnabled s (.envAddrAck b) = true ↔ u.i2cState = .addressSent ∧ u.addr = false ∧ u.af = false) ∧
        ∃ t, runMove s (.envAddrAck b) = .next t ∧ OnlyBus s t b ∧ t.bus b = { u with addr := true }) ∧
      ((moveEnabled s (.envAddrNack b) = true ↔ u.i2cState = .addressSent ∧ u.addr = false ∧ u.af = false) ∧
        ∃ t, runMove s (.envAddrNack b) = .next t ∧ OnlyBus s t b ∧ t.bus b = { u with af := true }) ∧
      ((moveEnabled s (.envByteDone b x) = true ↔ u.i2cState = .transferActive ∧ u.job.dir = .write ∧ u.btf = false) ∧
        ∃ t, runMove s (.envByteDone b x) = .next t ∧ OnlyBus s t b ∧ t.bus b = { u with btf := true, af := x }) ∧
      ((moveEnabled s (.envByteReady b v) = true ↔ u.i2cState = .transferActive ∧ u.job.dir = .read ∧ u.rxne = false) ∧
        ∃ t, runMove s (.envByteReady b v) = .next t ∧ OnlyBus s t b ∧ t.bus b = { u with rxne := true, dr := v })) ∧
    (s.cfg.isFourWire b = true →
      (moveEnabled s (.envExchange b v) = true ↔ u.spiState = .transferring ∧ u.srxne = false) ∧
        ∃ t, runMove s (.envExchange b v) = .next t ∧ OnlyBus s t b ∧ t.bus b = { u with srxne := true, sdr := v })

/-- Every field of the status outputs is the state field named, reserved bits 0 (R36). The model's choices: STAT_CS and STAT_PORT are words with
0 above the bits R36 lists (log 29), and the occupancies of a bus without a channel are 0 (log 30). -/
def Obligations.StatusOutputFields : Prop :=
  ∀ (s : State) (b : BusId) (p : PortIx), s.cfg.valid = true → s.cfg.hasBus b = true → QueuesFit s.cfg b (s.bus b) →
    let u := s.bus b
    ((statFatal s).getLsbD 0 = s.fatal ∧ (statFatal s).extractLsb' 1 4 = s.fatalCause ∧
      (statFatal s).extractLsb' 5 5 = s.fatalPort ∧ (statFatal s).extractLsb' 10 22 = 0) ∧
    (statCmd s = s.fatalCmd ∧ statTick s = s.tick) ∧
    (((statBus s b).extractLsb' 0 5).toNat =
        (match u.lockOwner with | none => 0 | some (.client q) => q.val | some (.consumer c) => 16 + c.toNat) ∧
      ((statBus s b).extractLsb' 5 3).toNat =
        (if s.cfg.isFourWire b then (match u.spiState with | .idle => 0 | .transferring => 1)
         else match u.i2cState with | .idle => 0 | .waitBusFree => 1 | .started => 2 | .addressSent => 3 | .transferActive => 4) ∧
      (statBus s b).getLsbD 8 = (s.cfg.isTwoWire b && u.ackEn) ∧
      ((statBus s b).extractLsb' 9 2).toNat =
        (if s.cfg.hasChannel b then (match u.consState with | .cIdle => 0 | .cLock => 1 | .cRun => 2 | .cPush => 3) else 0) ∧
      (statBus s b).extractLsb' 11 4 = 0 ∧ (statBus s b).getLsbD 15 = u.lockOwner.isSome ∧
      ((statBus s b).extractLsb' 16 8).toNat = u.rq.length ∧ ((statBus s b).extractLsb' 24 8).toNat = u.rsp.length) ∧
    ((∀ sl : SlaveId, (statCs s b).getLsbD sl.toNat = (s.cfg.hasSlave b sl && u.cs.getLsbD sl.toNat)) ∧
      (statCs s b).extractLsb' 16 16 = 0) ∧
    ((statPort s p).extractLsb' 0 2 = (match (s.port p).pstate with | .ready => 0 | .waiting _ => 1 | .executing => 2) ∧
      (statPort s p).extractLsb' 2 30 = 0)

/-! ## Invariants and whole-machine rules -/

/-- The state after reset satisfies the invariant and is a clean entry (R37, R38, R273), on every valid configuration and draw of BUSY. -/
def Obligations.ResetSatisfiesTheInvariant : Prop :=
  (∀ (c : Config) (busy : BitVec 16), c.valid = true → Inv (State.resetOf c busy) ∧ CleanEntry (State.resetOf c busy)) ∧
  Inv State.reset ∧ CleanEntry State.reset

/-- Every step keeps the invariant: R38 (a)..(f) on every bus, and what they rest on, the shape of every request among it (R32, R90, R201). -/
def Obligations.StepKeepsTheInvariant : Prop := ∀ s t : State, Inv s → step s = .next t → Inv t

/-- From a state of the invariant on a valid configuration, every step answers a next state: nothing faults, nothing is refused, whatever the
move, the command and the data. -/
def Obligations.StepNeverStops : Prop := ∀ s : State, Inv s → s.cfg.valid = true → ∃ t, step s = .next t

/-- Apart from reset, a step only appends to the traces (R259). -/
def Obligations.TraceOnlyGrows : Prop :=
  ∀ s t : State, step s = .next t → s.nextMove.1.isReset = false → ∀ b, ∃ evs, (t.bus b).trace = (s.bus b).trace ++ evs

/-- The trace is never read: two states that differ in the traces only take the same step, to states that differ in the traces only, and stop
together (R35, R259). -/
def Obligations.TraceIsNeverRead : Prop :=
  ∀ s s' : State, SameButTrace s s' →
    (∀ t, step s = .next t → ∃ t', step s' = .next t' ∧ SameButTrace t t') ∧
    (∀ f, step s = .fault f → step s' = .fault f) ∧ (∀ r, step s = .refused r → step s' = .refused r)

/-- Where a response changes, its status is one of R245's seven, and a failure status comes only from its own source: ADDR_NACK from the address
phase, DATA_NACK from a byte of a write, BUS_TIMEOUT from a wire timeout under a finite WIRE_TIMEOUT, the others from the port's own
command or wait (R131, R185, R246). -/
def Obligations.StatusComesFromItsSource : Prop :=
  ∀ (s t : State) (p : PortIx), step s = .next t → (t.port p).resp ≠ (s.port p).resp →
    let st := ((t.port p).resp.extractLsb' 0 4).toNat
    let m := s.nextMove.1
    st ≤ 6 ∧
    (st = 1 → ∃ b, m = .i2cNotAcked b) ∧
    (st = 2 → ∃ b, m = .i2cByteSent b ∧ (s.bus b).job.dir = .write) ∧
    (st = 3 → s.cfg.wireTimeout ≠ none ∧ ∃ b, m = .i2cWireTimeout b ∨ m = .spiWireTimeout b) ∧
    (4 ≤ st → (∃ bytes, m = .present p bytes) ∨ m = .portTimeout p)

/-- At a clean end the only steps enabled are a presented command, a tick, a change of BUSY and reset; a tick changes `tick` only, and a change
of BUSY that level only (R283, R270). -/
def Obligations.CleanEndIsQuiet : Prop :=
  ∀ s : State, CleanEnd s →
    (∀ m, moveEnabled s m = true →
      (∃ p bytes, m = .present p bytes) ∨ m = .clockTick ∨ (∃ b x, m = .envBusy b x) ∨ m.isReset = true) ∧
    runMove s .clockTick = .next { s with tick := s.tick + 1 } ∧
    (∀ b x, ∃ t, runMove s (.envBusy b x) = .next t ∧ OnlyBus s t b ∧ t.bus b = { s.bus b with busy := x })
end

