-- ==== Sys2Proof/Laws/Bits.lean ====
section
/-! SUPPORT. Fields of concatenated bits, and words as bytes (spec/20_memory.md R63). -/

namespace Sys2Proof

/-- The bits of a concatenation above its last part. -/
theorem extract_append (n s : Nat) {m k : Nat} {x : BitVec m} {y : BitVec n} :
    (x ++ y).extractLsb' (n + s) k = x.extractLsb' s k := by
  apply BitVec.eq_of_getLsbD_eq
  intro i _
  have h1 : ¬ n + s + i < n := by omega
  have h2 : n + s + i - n = s + i := by omega
  simp only [BitVec.getLsbD_extractLsb', BitVec.getLsbD_append, h1, h2, if_false]

/-- The last part of a concatenation. -/
theorem extract_append_last {m n : Nat} (x : BitVec m) (y : BitVec n) : (x ++ y).extractLsb' 0 n = y := by
  apply BitVec.eq_of_getLsbD_eq
  intro i h
  simp only [BitVec.getLsbD_extractLsb', BitVec.getLsbD_append, h, Nat.zero_add, decide_true, Bool.true_and, if_true]

/-- All the bits of a word. -/
theorem extract_all {n : Nat} (x : BitVec n) : x.extractLsb' 0 n = x := BitVec.extractLsb'_eq_self

/-- A word put together from its bytes. -/
theorem word_of_bytes (w : Word) : w.extractLsb' 24 8 ++ w.extractLsb' 16 8 ++ w.extractLsb' 8 8 ++ w.extractLsb' 0 8 = w := by
  apply BitVec.eq_of_getLsbD_eq
  intro i h
  simp only [BitVec.getLsbD_append, BitVec.getLsbD_extractLsb']
  split
  · simp_all
  · split
    · rename_i h1 h2; simp only [h2, decide_true, Bool.true_and]; congr 1; omega
    · split
      · rename_i h1 h2 h3; simp only [h3, decide_true, Bool.true_and]; congr 1; omega
      · rename_i h1 h2 h3
        have h4 : i - 8 - 8 - 8 < 8 := by omega
        simp only [h4, decide_true, Bool.true_and]; congr 1; omega

/-- A word that was sent is the word that is read (R63). -/
theorem takeWord_leBytes (w : Word) (rest : List Byte) : takeWord (leBytes w ++ rest) = some (w, rest) := by
  simp only [leBytes, List.cons_append, List.nil_append, takeWord, word_of_bytes]

end Sys2Proof
end

