-- ==== Sys2Proof/Laws/Config.lean ====
section
/-! SUPPORT. What a configuration's predicates say of each other. -/

namespace Sys2Proof.Config

theorem bus?_isSome {c : Config} {b : BusId} : (c.bus? b).isSome = c.hasBus b := by
  unfold bus? hasBus nBus
  by_cases h : b.toNat < c.buses.length
  · simp [h]
  · simp [h]

/-- A bus is of one kind only. -/
theorem fourWire_of_twoWire {c : Config} {b : BusId} (h : c.isTwoWire b = true) : c.isFourWire b = false := by
  revert h; unfold isTwoWire isFourWire
  generalize c.bus? b = o
  rcases o with _ | ⟨_ | ss, ch⟩ <;> simp

theorem twoWire_of_fourWire {c : Config} {b : BusId} (h : c.isFourWire b = true) : c.isTwoWire b = false := by
  revert h; unfold isTwoWire isFourWire
  generalize c.bus? b = o
  rcases o with _ | ⟨_ | ss, ch⟩ <;> simp

/-- A bus that exists is of one kind or the other (R10: "Every bus has a `KIND`"). -/
theorem kind_of_hasBus {c : Config} {b : BusId} (h : c.hasBus b = true) : c.isTwoWire b = true ∨ c.isFourWire b = true := by
  rw [← bus?_isSome] at h; revert h; unfold isTwoWire isFourWire
  generalize c.bus? b = o
  rcases o with _ | ⟨_ | ss, ch⟩ <;> simp

theorem hasBus_of_twoWire {c : Config} {b : BusId} (h : c.isTwoWire b = true) : c.hasBus b = true := by
  rw [← bus?_isSome]; revert h; unfold isTwoWire
  generalize c.bus? b = o
  rcases o with _ | ⟨_ | ss, ch⟩ <;> simp

theorem hasBus_of_fourWire {c : Config} {b : BusId} (h : c.isFourWire b = true) : c.hasBus b = true := by
  rw [← bus?_isSome]; revert h; unfold isFourWire
  generalize c.bus? b = o
  rcases o with _ | ⟨_ | ss, ch⟩ <;> simp

theorem hasBus_of_channel {c : Config} {b : BusId} (h : c.hasChannel b = true) : c.hasBus b = true := by
  rw [← bus?_isSome]; revert h; unfold hasChannel channel?
  generalize c.bus? b = o
  rcases o with _ | ⟨_ | ss, ch⟩ <;> simp

/-- R9: a FIFO of a valid configuration holds at most 255 entries. -/
theorem depth_le {c : Config} (b : BusId) (h : c.valid = true) : c.rqDepth b ≤ 255 ∧ c.rspDepth b ≤ 255 := by
  unfold rqDepth rspDepth
  cases hc : c.channel? b with
  | none => simp
  | some d =>
    unfold channel? at hc
    obtain ⟨bc, hb, hd⟩ := Option.bind_eq_some_iff.1 hc
    have hm : bc ∈ c.buses := List.mem_of_getElem? hb
    simp only [valid, Bool.and_eq_true, List.all_eq_true] at h
    have ho := h.1.1.1.2 bc hm
    simp only [busOk, hd, depthOk, Bool.and_eq_true, decide_eq_true_eq] at ho
    exact ⟨ho.2.1.2, ho.2.2.2⟩

end Sys2Proof.Config
end

