-- ==== Sys2Proof/Laws/State.lean ====
section
/-! SUPPORT. Reading a state after an update: one lemma per field per update. -/

namespace Sys2Proof.Machine

/-! ## Ports and buses -/

@[simp] theorem port_setPort_same (s : State) (p : PortIx) (x : Port) : (s.setPort p x).port p = x := by
  simp [State.port, State.setPort]

theorem port_setPort_of_ne (s : State) {p q : PortIx} (x : Port) (h : q ≠ p) : (s.setPort p x).port q = s.port q := by
  have hv : p.val ≠ q.val := fun e => h (Fin.ext e.symm)
  simp [State.port, State.setPort, hv]

theorem port_setPort (s : State) (p q : PortIx) (x : Port) :
    (s.setPort p x).port q = if q = p then x else s.port q := by
  by_cases h : q = p
  · subst h; simp
  · simp [h, port_setPort_of_ne]

@[simp] theorem bus_setBus_same (s : State) (b : BusId) (u : Bus) : (s.setBus b u).bus b = u := by
  simp [State.bus, State.setBus]

theorem bus_setBus_of_ne (s : State) {b c : BusId} (u : Bus) (h : c ≠ b) : (s.setBus b u).bus c = s.bus c := by
  have hv : b.toNat ≠ c.toNat := fun e => h (BitVec.eq_of_toNat_eq e.symm)
  simp [State.bus, State.setBus, hv]

theorem bus_setBus (s : State) (b c : BusId) (u : Bus) :
    (s.setBus b u).bus c = if c = b then u else s.bus c := by
  by_cases h : c = b
  · subst h; simp
  · simp [h, bus_setBus_of_ne]

@[simp] theorem setBus_setBus_same (s : State) (b : BusId) (u v : Bus) : (s.setBus b u).setBus b v = s.setBus b v := by
  simp [State.setBus]

@[simp] theorem setPort_setPort_same (s : State) (p : PortIx) (x y : Port) : (s.setPort p x).setPort p y = s.setPort p y := by
  simp [State.setPort]

@[simp] theorem bus_setPort (s : State) (p : PortIx) (x : Port) (b : BusId) : (s.setPort p x).bus b = s.bus b := rfl
@[simp] theorem port_setBus (s : State) (b : BusId) (u : Bus) (p : PortIx) : (s.setBus b u).port p = s.port p := rfl

/-! ## Every other field -/

@[simp] theorem tick_setPort (s : State) (p : PortIx) (x : Port) : (s.setPort p x).tick = s.tick := rfl
@[simp] theorem fatal_setPort (s : State) (p : PortIx) (x : Port) : (s.setPort p x).fatal = s.fatal := rfl
@[simp] theorem fatalCause_setPort (s : State) (p : PortIx) (x : Port) : (s.setPort p x).fatalCause = s.fatalCause := rfl
@[simp] theorem fatalPort_setPort (s : State) (p : PortIx) (x : Port) : (s.setPort p x).fatalPort = s.fatalPort := rfl
@[simp] theorem fatalCmd_setPort (s : State) (p : PortIx) (x : Port) : (s.setPort p x).fatalCmd = s.fatalCmd := rfl
@[simp] theorem cfg_setPort (s : State) (p : PortIx) (x : Port) : (s.setPort p x).cfg = s.cfg := rfl
@[simp] theorem moves_setPort (s : State) (p : PortIx) (x : Port) : (s.setPort p x).moves = s.moves := rfl
@[simp] theorem draws_setPort (s : State) (p : PortIx) (x : Port) : (s.setPort p x).draws = s.draws := rfl
@[simp] theorem pres_setPort (s : State) (p : PortIx) (x : Port) : (s.setPort p x).pres = s.pres := rfl

@[simp] theorem tick_setBus (s : State) (b : BusId) (u : Bus) : (s.setBus b u).tick = s.tick := rfl
@[simp] theorem fatal_setBus (s : State) (b : BusId) (u : Bus) : (s.setBus b u).fatal = s.fatal := rfl
@[simp] theorem fatalCause_setBus (s : State) (b : BusId) (u : Bus) : (s.setBus b u).fatalCause = s.fatalCause := rfl
@[simp] theorem fatalPort_setBus (s : State) (b : BusId) (u : Bus) : (s.setBus b u).fatalPort = s.fatalPort := rfl
@[simp] theorem fatalCmd_setBus (s : State) (b : BusId) (u : Bus) : (s.setBus b u).fatalCmd = s.fatalCmd := rfl
@[simp] theorem cfg_setBus (s : State) (b : BusId) (u : Bus) : (s.setBus b u).cfg = s.cfg := rfl
@[simp] theorem moves_setBus (s : State) (b : BusId) (u : Bus) : (s.setBus b u).moves = s.moves := rfl
@[simp] theorem draws_setBus (s : State) (b : BusId) (u : Bus) : (s.setBus b u).draws = s.draws := rfl
@[simp] theorem pres_setBus (s : State) (b : BusId) (u : Bus) : (s.setBus b u).pres = s.pres := rfl

/-! ## Updates of the model's own fields, and of `tick`, leave ports and buses -/

@[simp] theorem port_withTick (s : State) (x : Word) (p : PortIx) : ({ s with tick := x } : State).port p = s.port p := rfl
@[simp] theorem port_withMoves (s : State) (x : List Move) (p : PortIx) : ({ s with moves := x } : State).port p = s.port p := rfl
@[simp] theorem port_withDraws (s : State) (x : Nat) (p : PortIx) : ({ s with draws := x } : State).port p = s.port p := rfl
@[simp] theorem port_withPres (s : State) (x : Presented) (p : PortIx) : ({ s with pres := x } : State).port p = s.port p := rfl
@[simp] theorem bus_withTick (s : State) (x : Word) (b : BusId) : ({ s with tick := x } : State).bus b = s.bus b := rfl
@[simp] theorem bus_withMoves (s : State) (x : List Move) (b : BusId) : ({ s with moves := x } : State).bus b = s.bus b := rfl
@[simp] theorem bus_withDraws (s : State) (x : Nat) (b : BusId) : ({ s with draws := x } : State).bus b = s.bus b := rfl
@[simp] theorem bus_withPres (s : State) (x : Presented) (b : BusId) : ({ s with pres := x } : State).bus b = s.bus b := rfl

/-! ## The state after reset -/

@[simp] theorem port_resetOf (c : Config) (busy : BitVec 16) (p : PortIx) : (State.resetOf c busy).port p = Port.reset := by
  simp [State.port, State.resetOf]

@[simp] theorem bus_resetOf (c : Config) (busy : BitVec 16) (b : BusId) :
    (State.resetOf c busy).bus b = Bus.reset (busy.getLsbD b.toNat) := by
  unfold State.bus State.resetOf; rw [Vector.getElem_ofFn]

end Sys2Proof.Machine
end

