-- ==== Sys2Proof/Laws/Ops.lean ====
section
/-! SUPPORT. One lemma for each shared operation, saying all it can do. -/

namespace Sys2Proof.Machine

/-! ## The job buffer -/

theorem bufRead_eq_some {m : Vector Byte 63} {i : Nat} {v : Byte} :
    bufRead m i = some v ↔ ∃ h : i < 63, m[i] = v := by
  simp [bufRead, Vector.getElem?_eq_some_iff]

theorem bufRead_isSome {m : Vector Byte 63} {i : Nat} (h : i < 63) : bufRead m i = some m[i] :=
  bufRead_eq_some.2 ⟨h, rfl⟩

theorem bufRead_none {m : Vector Byte 63} {i : Nat} : bufRead m i = none ↔ 63 ≤ i := by
  simp [bufRead]

theorem bufWrite_none {m : Vector Byte 63} {i : Nat} {v : Byte} : bufWrite m i v = none ↔ 63 ≤ i := by
  simp [bufWrite]

/-- A read after a write: the value written at its index, every other byte as it was. -/
theorem bufRead_bufWrite {m m' : Vector Byte 63} {i j : Nat} {v : Byte} (h : bufWrite m i v = some m') :
    bufRead m' j = if j = i then some v else bufRead m j := by
  unfold bufWrite at h
  split at h
  · cases h
    by_cases hj : j = i
    · subst hj; simp [bufRead, *]
    · simp [bufRead, hj, Ne.symm hj]
  · cases h

/-- Loading data: byte `i` is the data's where the data has one, and stays where it has none. -/
theorem bufRead_bufLoad (m : Vector Byte 63) (data : List Byte) {i : Nat} (h : i < 63) :
    bufRead (bufLoad m data) i = some ((data[i]?).getD m[i]) := by
  simp [bufRead, bufLoad, h]

theorem bufLoad_nil (m : Vector Byte 63) : bufLoad m [] = m := by
  ext i h; simp [bufLoad]

/-! ## Answering a port -/

@[simp] theorem bus_respond (s : State) (p : PortIx) (w : Word) (bs : List Byte) (b : BusId) :
    (respond s p w bs).bus b = s.bus b := rfl
@[simp] theorem cfg_respond (s : State) (p : PortIx) (w : Word) (bs : List Byte) : (respond s p w bs).cfg = s.cfg := rfl
@[simp] theorem tick_respond (s : State) (p : PortIx) (w : Word) (bs : List Byte) : (respond s p w bs).tick = s.tick := rfl
@[simp] theorem fatal_respond (s : State) (p : PortIx) (w : Word) (bs : List Byte) : (respond s p w bs).fatal = s.fatal := rfl

@[simp] theorem port_respond_same (s : State) (p : PortIx) (w : Word) (bs : List Byte) :
    (respond s p w bs).port p = { s.port p with pstate := .ready, resp := w, rdata := bs } := by
  simp [respond]

theorem port_respond_of_ne (s : State) {p q : PortIx} (w : Word) (bs : List Byte) (h : q ≠ p) :
    (respond s p w bs).port q = s.port q := port_setPort_of_ne _ _ h

@[simp] theorem bus_startWait (s : State) (p : PortIx) (k : WaitKind) (b c : BusId) (t : Timeout) :
    (startWait s p k b t).bus c = s.bus c := rfl
@[simp] theorem cfg_startWait (s : State) (p : PortIx) (k : WaitKind) (b : BusId) (t : Timeout) :
    (startWait s p k b t).cfg = s.cfg := rfl
@[simp] theorem port_startWait_same (s : State) (p : PortIx) (k : WaitKind) (b : BusId) (t : Timeout) :
    (startWait s p k b t).port p = { s.port p with pstate := .waiting ⟨k, b, s.tick, t⟩ } := by
  simp [startWait]
theorem port_startWait_of_ne (s : State) {p q : PortIx} (k : WaitKind) (b : BusId) (t : Timeout) (h : q ≠ p) :
    (startWait s p k b t).port q = s.port q := port_setPort_of_ne _ _ h

@[simp] theorem bus_setExecuting (s : State) (p : PortIx) (b : BusId) : (setExecuting s p).bus b = s.bus b := rfl
@[simp] theorem cfg_setExecuting (s : State) (p : PortIx) : (setExecuting s p).cfg = s.cfg := rfl
@[simp] theorem port_setExecuting_same (s : State) (p : PortIx) :
    (setExecuting s p).port p = { s.port p with pstate := .executing } := by
  simp [setExecuting]
theorem port_setExecuting_of_ne (s : State) {p q : PortIx} (h : q ≠ p) : (setExecuting s p).port q = s.port q :=
  port_setPort_of_ne _ _ h

/-! ## Frames -/

theorem onlyBus_setBus (s : State) (b : BusId) (u : Bus) : OnlyBus s (s.setBus b u) b :=
  ⟨⟨rfl, rfl, rfl, rfl, rfl, rfl, rfl, rfl, rfl⟩, fun _ => rfl, fun _ h => bus_setBus_of_ne s u h⟩

theorem onlyPort_setPort (s : State) (p : PortIx) (x : Port) : OnlyPort s (s.setPort p x) p :=
  ⟨⟨rfl, rfl, rfl, rfl, rfl, rfl, rfl, rfl, rfl⟩, fun _ h => port_setPort_of_ne s x h, fun _ => rfl⟩

theorem onlyPortAndBus_setPort_setBus (s : State) (p : PortIx) (x : Port) (b : BusId) (u : Bus) :
    OnlyPortAndBus s ((s.setBus b u).setPort p x) p b :=
  ⟨⟨rfl, rfl, rfl, rfl, rfl, rfl, rfl, rfl, rfl⟩, fun _ h => port_setPort_of_ne _ x h, fun _ h => bus_setBus_of_ne s u h⟩

/-! ## The fatal fault and reset -/

@[simp] theorem port_takeFatal (s : State) (p q : PortIx) (c : Cause) (h : Word) : (takeFatal s p c h).port q = s.port q := rfl
@[simp] theorem bus_takeFatal (s : State) (p : PortIx) (c : Cause) (h : Word) (b : BusId) : (takeFatal s p c h).bus b = s.bus b := rfl
@[simp] theorem cfg_takeFatal (s : State) (p : PortIx) (c : Cause) (h : Word) : (takeFatal s p c h).cfg = s.cfg := rfl

theorem takeFatal_fatalOf (s : State) (p : PortIx) (c : Cause) (h : Word) : FatalOf s (takeFatal s p c h) p c.code h :=
  ⟨rfl, rfl, rfl, rfl, fun _ => rfl, fun _ => rfl, rfl, rfl, rfl, rfl, rfl⟩

@[simp] theorem port_resetBlock (s : State) (busy : BitVec 16) (p : PortIx) : (resetBlock s busy).port p = Port.reset :=
  port_resetOf s.cfg busy p
@[simp] theorem bus_resetBlock (s : State) (busy : BitVec 16) (b : BusId) :
    (resetBlock s busy).bus b = Bus.reset (busy.getLsbD b.toNat) := bus_resetOf s.cfg busy b
@[simp] theorem cfg_resetBlock (s : State) (busy : BitVec 16) : (resetBlock s busy).cfg = s.cfg := rfl

/-! ## The presenting step -/

theorem firstFailing_eq_none {l : List (Bool × Cause)} : firstFailing l = none ↔ ∀ x ∈ l, x.1 = true := by
  induction l with
  | nil => simp [firstFailing]
  | cons a l ih => obtain ⟨ok, c⟩ := a; cases ok <;> simp [firstFailing, ih]

theorem presentable_iff {s : State} {p : PortIx} :
    presentable s p = true ↔ s.fatal = false ∧ p.val < s.cfg.nPort ∧ (s.port p).pstate = .ready := by
  simp [presentable, and_assoc]

theorem presenting_presentable {s : State} {p : PortIx} (h : Presenting s p) : presentable s s.pres.port = true := by
  obtain ⟨rfl, h⟩ := h; exact presentable_iff.2 h

@[simp] theorem bus_accept (s : State) (d : Option Word) (b : BusId) : (accept s d).bus b = s.bus b := rfl
@[simp] theorem cfg_accept (s : State) (d : Option Word) : (accept s d).cfg = s.cfg := rfl
@[simp] theorem tick_accept (s : State) (d : Option Word) : (accept s d).tick = s.tick := rfl
@[simp] theorem pres_accept (s : State) (d : Option Word) : (accept s d).pres = s.pres := rfl

@[simp] theorem port_accept_same (s : State) (d : Option Word) :
    (accept s d).port s.pres.port =
      { s.port s.pres.port with cmd := s.pres.cmd, desc := d.getD (s.port s.pres.port).desc, payload := s.pres.payload } := by
  simp [accept]

theorem port_accept_of_ne (s : State) (d : Option Word) {q : PortIx} (h : q ≠ s.pres.port) :
    (accept s d).port q = s.port q := port_setPort_of_ne _ _ h

/-- A presenting step never faults; it refuses exactly where there is no presenting step. -/
theorem issue_cases (s : State) (d : Option Word) (checks : List (Bool × Cause)) (body : State → State) :
    (presentable s s.pres.port = false ∧ issue s d checks body = .refused .noPresentingStep) ∨
    (presentable s s.pres.port = true ∧ ∃ c, firstFailing checks = some c ∧
      issue s d checks body = .next (takeFatal s s.pres.port c s.pres.cmd)) ∨
    (presentable s s.pres.port = true ∧ (∀ x ∈ checks, x.1 = true) ∧ issue s d checks body = .next (body (accept s d))) := by
  unfold issue
  cases hp : presentable s s.pres.port
  · simp
  · cases hf : firstFailing checks with
    | none => exact .inr (.inr ⟨rfl, firstFailing_eq_none.1 hf, by simp⟩)
    | some c => simp

/-- What a presenting step that answers a next state did: the fatal fault of the first failing check, or the body after the command
was copied in. -/
theorem issue_next {s t : State} {d : Option Word} {checks : List (Bool × Cause)} {body : State → State}
    (h : issue s d checks body = .next t) :
    presentable s s.pres.port = true ∧
      ((∃ c, firstFailing checks = some c ∧ t = takeFatal s s.pres.port c s.pres.cmd) ∨
       ((∀ x ∈ checks, x.1 = true) ∧ t = body (accept s d))) := by
  rcases issue_cases s d checks body with ⟨_, e⟩ | ⟨hp, c, hc, e⟩ | ⟨hp, hc, e⟩
  · rw [e] at h; cases h
  · rw [e] at h; cases h; exact ⟨hp, .inl ⟨c, hc, rfl⟩⟩
  · rw [e] at h; cases h; exact ⟨hp, .inr ⟨hc, rfl⟩⟩

theorem issue_passes {s : State} {d : Option Word} {checks : List (Bool × Cause)} {body : State → State}
    (hp : presentable s s.pres.port = true) (hc : ∀ x ∈ checks, x.1 = true) :
    issue s d checks body = .next (body (accept s d)) := by
  simp [issue, hp, firstFailing_eq_none.2 hc]

/-! ## Jobs -/

theorem answer_client (s : State) (p : PortIx) (st : Status) (n : Nat) (d : Bool) (bs : List Byte) :
    answer s (.client p) st n d bs = respond s p (W st n d) bs := rfl

theorem answer_consumer (s : State) (b : BusId) (st : Status) (n : Nat) (d : Bool) (bs : List Byte) :
    answer s (.consumer b) st n d bs = consumerDone s b st n bs := rfl

@[simp] theorem cfg_consumerDone (s : State) (b : BusId) (st : Status) (n : Nat) (bs : List Byte) :
    (consumerDone s b st n bs).cfg = s.cfg := rfl

@[simp] theorem port_consumerDone (s : State) (b : BusId) (st : Status) (n : Nat) (bs : List Byte) (p : PortIx) :
    (consumerDone s b st n bs).port p = s.port p := rfl

@[simp] theorem cfg_answer (s : State) (p : PortId) (st : Status) (n : Nat) (d : Bool) (bs : List Byte) :
    (answer s p st n d bs).cfg = s.cfg := by cases p <;> rfl

@[simp] theorem tick_answer (s : State) (p : PortId) (st : Status) (n : Nat) (d : Bool) (bs : List Byte) :
    (answer s p st n d bs).tick = s.tick := by cases p <;> rfl

@[simp] theorem fatal_answer (s : State) (p : PortId) (st : Status) (n : Nat) (d : Bool) (bs : List Byte) :
    (answer s p st n d bs).fatal = s.fatal := by cases p <;> rfl

@[simp] theorem cfg_i2cFinish (s : State) (b : BusId) (st : Status) : (i2cFinish s b st).cfg = s.cfg := by
  simp [i2cFinish]

@[simp] theorem cfg_spiFinish (s : State) (b : BusId) (st : Status) : (spiFinish s b st).cfg = s.cfg := by
  simp [spiFinish]

/-! ## Chip-select bits -/

theorem oneAsserted_iff {cs : BitVec 16} : oneAsserted cs = true ↔ ∃ s, cs = csBit s := by
  constructor
  · intro h
    simp only [oneAsserted, List.any_eq_true, beq_iff_eq] at h
    obtain ⟨s, _, rfl⟩ := h
    exact ⟨s, rfl⟩
  · rintro ⟨s, rfl⟩
    revert s; decide

theorem csBit_ne_zero : ∀ s, csBit s ≠ 0 := by decide

theorem select_alone (s : SlaveId) : (0 : BitVec 16) ||| csBit s = csBit s := by simp

theorem csBit_clear : ∀ s, csBit s &&& ~~~csBit s = 0 := by decide

theorem csBit_getLsbD : ∀ s t : SlaveId, (csBit s).getLsbD t.toNat = decide (s = t) := by decide

theorem assertedLines_zero : assertedLines 0 = [] := by decide

theorem assertedLines_csBit : ∀ s, assertedLines (csBit s) = [s] := by decide

end Sys2Proof.Machine
end

