-- ==== Sys2Proof/Laws/Finish.lean ====
section
/-! SUPPORT. What ending a job does, and what taking the lock, enqueueing and dequeueing do: one lemma for each shared operation. -/

namespace Sys2Proof.Machine

theorem setBus_self (s : State) (b : BusId) : s.setBus b (s.bus b) = s := by
  simp [State.setBus, State.bus]

/-- R147: all that `finish` does. -/
theorem i2cFinish_ended {s : State} {b : BusId} {u : Bus} (st : Status) (hj : JobOfBus b u) :
    I2cEnded s (i2cFinish (s.setBus b u) b st) b u st := by
  unfold I2cEnded Answered i2cFinish
  cases hp : u.job.port with
  | client p =>
    simp only [bus_setBus_same, hp, answer, setBus_setBus_same]
    refine ⟨onlyPortAndBus_setPort_setBus .., ?_, ?_⟩
    · simp [Bus.i2cEnd, Bus.emit, Bus.clearFlags]
    · simp [Job.hasData, Bus.i2cData, bufPrefix]
  | consumer c =>
    have := hj c hp; subst this
    simp only [bus_setBus_same, hp, answer, setBus_setBus_same, consumerDone]
    refine ⟨onlyBus_setBus .., ?_⟩
    cases hk : s.cfg.isFourWire c <;>
      simp [hk, Bus.i2cEnd, Bus.emit, Bus.clearFlags, Bus.consumerEnd, Bus.deassertAll, assertedLines, Bus.i2cData, Job.hasData,
        bufPrefix]

/-- R182: all that `spi_finish` does. -/
theorem spiFinish_ended {s : State} {b : BusId} {u : Bus} (st : Status) (hj : JobOfBus b u) :
    SpiEnded s (spiFinish (s.setBus b u) b st) b u st := by
  unfold SpiEnded Answered spiFinish
  cases hp : u.job.port with
  | client p =>
    simp only [bus_setBus_same, hp, answer, setBus_setBus_same]
    exact ⟨onlyPortAndBus_setPort_setBus .., by simp [Bus.spiEnd], by simp [bufPrefix]⟩
  | consumer c =>
    have := hj c hp; subst this
    simp only [bus_setBus_same, hp, answer, setBus_setBus_same, consumerDone]
    refine ⟨onlyBus_setBus .., ?_⟩
    cases hk : s.cfg.isFourWire c <;> simp [hk, Bus.spiEnd, Bus.consumerEnd, Bus.deassertAll, assertedLines, bufPrefix] <;> rfl

/-- All that taking the lock does (R110, R113). -/
theorem takeLock_spec (s : State) (b : BusId) (p : PortIx) :
    OnlyPortAndBus s (takeLock s b p) p b ∧ (takeLock s b p).bus b = { s.bus b with lockOwner := some (.client p) } ∧
      (takeLock s b p).port p = { s.port p with pstate := .ready, resp := W .ok 0 false, rdata := [] } :=
  ⟨onlyPortAndBus_setPort_setBus .., by simp [takeLock], by simp [takeLock]⟩

/-- All that an enqueue with room does (R201, R202). -/
theorem enqueueFor_spec (s : State) (p : PortIx) (b : BusId) :
    OnlyPortAndBus s (enqueueFor s p b) p b ∧
      (enqueueFor s p b).bus b =
        { s.bus b with rq := (s.bus b).rq ++ [requestOf s.cfg b (s.port p).desc (s.port p).payload] } ∧
      (enqueueFor s p b).port p = { s.port p with pstate := .ready, resp := W .ok 0 false, rdata := [] } :=
  ⟨onlyPortAndBus_setPort_setBus .., by simp [enqueueFor], by simp [enqueueFor]⟩

/-- All that a dequeue can do (R203, R204). -/
theorem dequeueFor_cases (s : State) (p : PortIx) (b : BusId) (q : QSel) :
    (q = .rq ∧ (s.bus b).rq = [] ∧ dequeueFor s p b q = none) ∨
    (q = .rsp ∧ (s.bus b).rsp = [] ∧ dequeueFor s p b q = none) ∨
    (∃ r rest, q = .rq ∧ (s.bus b).rq = r :: rest ∧
      dequeueFor s p b q = some (respond (s.setBus b { s.bus b with rq := rest }) p itemWord r.item)) ∨
    (∃ e rest, q = .rsp ∧ (s.bus b).rsp = e :: rest ∧
      dequeueFor s p b q = some (respond (s.setBus b { s.bus b with rsp := rest }) p itemWord e.item)) := by
  cases q
  · cases h : (s.bus b).rq with
    | nil => simp [dequeueFor, h]
    | cons r rest => exact .inr (.inr (.inl ⟨r, rest, rfl, rfl, by simp [dequeueFor, h]⟩))
  · cases h : (s.bus b).rsp with
    | nil => simp [dequeueFor, h]
    | cons e rest => exact .inr (.inr (.inr ⟨e, rest, rfl, rfl, by simp [dequeueFor, h]⟩))

end Sys2Proof.Machine
end

