-- ==== Sys2Proof/Laws/PerInstr.lean ====
section
/-! SUPPORT. Statements made of each constructor of `Instr`, one lemma a constructor. -/

namespace Sys2Proof.Laws

/-- R81: the header word of a command has its opcode in bits 31..24 and its bus in bits 23..20. -/
def EncodedOpcode.Statement (i : Instr) : Prop :=
  (encodeHeader i).extractLsb' 24 8 = i.opcode ∧ busField (encodeHeader i) = i.bus

theorem EncodedOpcode.lockAcquire (b : BusId) (t : Timeout) : EncodedOpcode.Statement (.lockAcquire b t) :=
  ⟨(extract_append 16 8).trans ((extract_append 4 4).trans ((extract_append 4 0).trans (extract_all _))),
   (extract_append 16 4).trans ((extract_append 4 0).trans (extract_append_last _ _))⟩

theorem EncodedOpcode.lockRelease (b : BusId) : EncodedOpcode.Statement (.lockRelease b) :=
  ⟨(extract_append 20 4).trans ((extract_append 4 0).trans (extract_all _)),
   (extract_append 20 0).trans (extract_append_last _ _)⟩

theorem EncodedOpcode.i2cWrite (b : BusId) (a : Addr7) (len : BitVec 6) : EncodedOpcode.Statement (.i2cWrite b a len) :=
  ⟨(extract_append 6 18).trans ((extract_append 2 16).trans ((extract_append 7 9).trans ((extract_append 5 4).trans
      ((extract_append 4 0).trans (extract_all _))))),
   (extract_append 6 14).trans ((extract_append 2 12).trans ((extract_append 7 5).trans ((extract_append 5 0).trans
      (extract_append_last _ _))))⟩

theorem EncodedOpcode.i2cRead (b : BusId) (dest : Dest) (a : Addr7) (len : BitVec 6) :
    EncodedOpcode.Statement (.i2cRead b dest a len) :=
  ⟨(extract_append 6 18).trans ((extract_append 2 16).trans ((extract_append 7 9).trans ((extract_append 1 8).trans
      ((extract_append 1 7).trans ((extract_append 3 4).trans ((extract_append 4 0).trans (extract_all _))))))),
   (extract_append 6 14).trans ((extract_append 2 12).trans ((extract_append 7 5).trans ((extract_append 1 4).trans
      ((extract_append 1 3).trans ((extract_append 3 0).trans (extract_append_last _ _))))))⟩

theorem EncodedOpcode.spiSelect (b : BusId) (sl : SlaveId) : EncodedOpcode.Statement (.spiSelect b sl) :=
  ⟨(extract_append 16 8).trans ((extract_append 4 4).trans ((extract_append 4 0).trans (extract_all _))),
   (extract_append 16 4).trans ((extract_append 4 0).trans (extract_append_last _ _))⟩

theorem EncodedOpcode.spiDeselect (b : BusId) (sl : SlaveId) : EncodedOpcode.Statement (.spiDeselect b sl) :=
  ⟨(extract_append 16 8).trans ((extract_append 4 4).trans ((extract_append 4 0).trans (extract_all _))),
   (extract_append 16 4).trans ((extract_append 4 0).trans (extract_append_last _ _))⟩

theorem EncodedOpcode.spiXferByte (b : BusId) (tx : Byte) : EncodedOpcode.Statement (.spiXferByte b tx) :=
  ⟨(extract_append 8 16).trans ((extract_append 12 4).trans ((extract_append 4 0).trans (extract_all _))),
   (extract_append 8 12).trans ((extract_append 12 0).trans (extract_append_last _ _))⟩

theorem EncodedOpcode.spiXferBuf (b : BusId) (len : BitVec 6) : EncodedOpcode.Statement (.spiXferBuf b len) :=
  ⟨(extract_append 6 18).trans ((extract_append 14 4).trans ((extract_append 4 0).trans (extract_all _))),
   (extract_append 6 14).trans ((extract_append 14 0).trans (extract_append_last _ _))⟩

theorem EncodedOpcode.chEnqReq (b : BusId) (t : Timeout) (d : Word) : EncodedOpcode.Statement (.chEnqReq b t d) :=
  ⟨(extract_append 16 8).trans ((extract_append 4 4).trans ((extract_append 4 0).trans (extract_all _))),
   (extract_append 16 4).trans ((extract_append 4 0).trans (extract_append_last _ _))⟩

theorem EncodedOpcode.chDeq (b : BusId) (q : QSel) (t : Timeout) : EncodedOpcode.Statement (.chDeq b q t) :=
  ⟨(extract_append 16 8).trans ((extract_append 1 7).trans ((extract_append 3 4).trans ((extract_append 4 0).trans (extract_all _)))),
   (extract_append 16 4).trans ((extract_append 1 3).trans ((extract_append 3 0).trans (extract_append_last _ _)))⟩

end Sys2Proof.Laws
end

