-- ==== Sys2Proof/Laws/Step.lean ====
section
/-! SUPPORT. What one step can do. -/

namespace Sys2Proof.Machine

theorem nextMove_cons {s : State} {m : Move} {rest : List Move} (h : s.moves = m :: rest) :
    s.nextMove = (m, { s with moves := rest }) := by
  simp [State.nextMove, h]

theorem nextMove_nil {s : State} (h : s.moves = []) :
    s.nextMove = (Config.freeMove s.draws, { s with draws := s.draws + 1 }) := by
  simp [State.nextMove, h]

@[simp] theorem port_nextMove (s : State) (p : PortIx) : s.nextMove.2.port p = s.port p := by
  unfold State.nextMove; split <;> rfl

@[simp] theorem bus_nextMove (s : State) (b : BusId) : s.nextMove.2.bus b = s.bus b := by
  unfold State.nextMove; split <;> rfl

@[simp] theorem cfg_nextMove (s : State) : s.nextMove.2.cfg = s.cfg := by
  unfold State.nextMove; split <;> rfl

@[simp] theorem tick_nextMove (s : State) : s.nextMove.2.tick = s.tick := by
  unfold State.nextMove; split <;> rfl

@[simp] theorem fatal_nextMove (s : State) : s.nextMove.2.fatal = s.fatal := by
  unfold State.nextMove; split <;> rfl

/-- The bus of a move depends on the configuration and the ports only. -/
theorem moveBus_congr {s t : State} (m : Move) (hc : t.cfg = s.cfg) (hp : ∀ p, t.port p = s.port p) : moveBus t m = moveBus s m := by
  cases m <;> simp [moveBus, hc, State.waitOf, hp]

@[simp] theorem moveBus_nextMove (s : State) (m : Move) : moveBus s.nextMove.2 m = moveBus s m :=
  moveBus_congr m (cfg_nextMove s) (port_nextMove s)

/-- A step that answers a next state: the configuration is valid, and the next move's step is taken where it is enabled and no step
where it is not. -/
theorem step_next {s t : State} (h : step s = .next t) :
    s.cfg.valid = true ∧
      ((moveEnabled s.nextMove.2 s.nextMove.1 = true ∧ runMove s.nextMove.2 s.nextMove.1 = .next t) ∨
       (moveEnabled s.nextMove.2 s.nextMove.1 = false ∧ t = s.nextMove.2)) := by
  unfold step takeStep at h
  split at h
  case isFalse => cases h
  case isTrue hv =>
    refine ⟨hv, ?_⟩
    cases he : moveEnabled s.nextMove.2 s.nextMove.1 <;> simp only [he] at h
    · cases h; exact .inr ⟨rfl, rfl⟩
    · exact .inl ⟨rfl, h⟩

/-- A fixed move whose step is enabled is taken. -/
theorem step_of_enabled {s : State} {m : Move} {rest : List Move} (hv : s.cfg.valid = true) (hm : s.moves = m :: rest)
    (he : moveEnabled { s with moves := rest } m = true) : step s = runMove { s with moves := rest } m := by
  simp [step, takeStep, hv, nextMove_cons hm, he]

/-- A fixed move whose step is not enabled is passed over. -/
theorem step_of_disabled {s : State} {m : Move} {rest : List Move} (hv : s.cfg.valid = true) (hm : s.moves = m :: rest)
    (he : moveEnabled { s with moves := rest } m = false) : step s = .next { s with moves := rest } := by
  simp [step, takeStep, hv, nextMove_cons hm, he]

/-- In a fatal state only reset is enabled (R247). -/
theorem moveEnabled_fatal {s : State} {m : Move} (h : s.fatal = true) : moveEnabled s m = m.isReset := by
  cases m <;> simp [moveEnabled, Move.isReset, h, enabledRunning]

theorem moveEnabled_running {s : State} {m : Move} (h : s.fatal = false) : moveEnabled s m = enabledRunning s m := by
  simp [moveEnabled, h]

end Sys2Proof.Machine
end

