-- ==== Sys2Proof/Tests/Slice0.lean ====
section
/-! SUPPORT. Tests and witnesses. Every expected value is the spec's (spec/95_test_vectors.md, by vector, or the rule named); a `witness_`
theorem shows a state and operands that meet the hypotheses of the statement it is named after. -/

namespace Sys2Proof.Tests

open Sys2Proof Sys2Proof.Machine

/-! ## Helpers -/

/-- The outcome is a next state in which `f` holds. -/
def nextIs (o : Host.Outcome State Fault Refusal) (f : State → Bool) : Bool :=
  match o with
  | .next t => f t
  | .fault _ => false
  | .refused _ => false

theorem next_of_nextIs {o : Host.Outcome State Fault Refusal} {f : State → Bool} (h : nextIs o f = true) :
    ∃ t, o = .next t ∧ f t = true := by
  cases o with
  | next t => exact ⟨t, rfl, h⟩
  | fault _ => cases h
  | refused _ => cases h

def withBus (s : State) (b : BusId) (f : Bus → Bus) : State := s.setBus b (f (s.bus b))
def withPort (s : State) (p : PortIx) (f : Port → Port) : State := s.setPort p (f (s.port p))
def withMoves (s : State) (ms : List Move) : State := { s with moves := ms }
def presenting (s : State) (p : PortIx) (h : Word) (bytes : List Byte) : State := { s with pres := ⟨p, h, bytes⟩ }

/-- `S0` with the lock of `b` owned by port `p`. -/
def owned (b : BusId) (p : PortIx) : State := withBus State.reset b fun u => { u with lockOwner := some (.client p) }

/-- Port 1 owns bus 1 with slave 0 selected (after vector SP1). -/
def selected : State := withBus (owned 1 1) 1 fun u => { u with cs := 1 }

/-- Port `p` waits since tick 10 in a wait of 3 ticks. -/
def waiting (p : PortIx) (k : WaitKind) (b : BusId) : State :=
  { withPort State.reset p (fun x => { x with pstate := .waiting ⟨k, b, 10, 3⟩ }) with tick := 10 }

/-- Port 0 runs a two-wire job on bus 0. -/
def i2cJob (st : I2cState) (dir : Dir) (idx len : Nat) (dest : Dest) : State :=
  withPort (withBus (owned 0 0) 0 fun u => { u with i2cState := st, job := ⟨.client 0, dir, 0x40, len, idx, dest, 0⟩ }) 0
    fun x => { x with pstate := .executing }

/-- Port 1 runs a four-wire job on bus 1 under slave 0's select. -/
def spiJob (idx len : Nat) : State :=
  withPort (withBus selected 1 fun u => { u with spiState := .transferring, job := { u.job with port := .client 1, len := len, idx := idx } })
    1 fun x => { x with pstate := .executing }

/-- A request of vector Q1: write 0xE5 to address 0x40. -/
def q1 : Request := ⟨.write, 0x40, 1, [0xE5]⟩

/-- Bus `b`'s request FIFO full of `q1`. -/
def rqFull (b : BusId) : State := withBus State.reset b fun u => { u with rq := List.replicate 10 q1 }

/-! ## Well-formedness: one ill-formed term for each check -/

theorem test_wf_read_of_no_byte : (Instr.i2cRead 0 .port 0x40 0).wf = false := by decide
theorem test_wf_descriptor_high : (Instr.chEnqReq 0 0 0x00010000).wf = false := by decide
theorem test_wf_descriptor_mid : (Instr.chEnqReq 0 0 0x00004081).wf = false := by decide
theorem test_wf_accepts : (Instr.i2cRead 0 .port 0x40 1).wf = true ∧ (Instr.chEnqReq 1 0 0x00008002).wf = true := by decide

/-! ## Decoding: a word of each command, written out from R82 and R83 -/

theorem test_decode_X1 : decodeTableWord 32 0x0100FFFF = some (.lockAcquire 0 0xFFFF) := by decide
theorem test_decode_X3 : decodeTableWord 32 0x02100000 = some (.lockRelease 1) := by decide
theorem test_decode_X4 : decodeTableWord 32 0x02000001 = none := by decide
theorem test_decode_X5 : decodeTableWord 32 0x10004001 = some (.i2cWrite 0 0x40 1) := by decide
theorem test_decode_X8 : decodeTableWord 32 0x11014003 = some (.i2cRead 0 .fifo 0x40 3) := by decide
theorem test_decode_X9 : decodeTableWord 32 0x11024001 = none := by decide
theorem test_decode_X11 : decodeTableWord 32 0x20100000 = some (.spiSelect 1 0) := by decide
theorem test_decode_X12 : decodeTableWord 32 0x2010000F = none := by decide
theorem test_decode_deselect : decodeTableWord 32 0x21110000 = some (.spiDeselect 1 1) := by decide
theorem test_decode_X13 : decodeTableWord 32 0x22100025 = some (.spiXferByte 1 0x25) := by decide
theorem test_decode_X16 : decodeTableWord 32 0x2310003F = some (.spiXferBuf 1 63) := by decide
theorem test_decode_X17 : decodeTableWord 32 0x3101FFFF = some (.chDeq 0 .rsp 0xFFFF) := by decide
theorem test_decode_X19 : decodeTableWord 32 0x12000000 = none := by decide

/-- X20: a two-wire read request has no payload; the descriptor is the second word. -/
theorem test_decode_X20 :
    decode Config.vectors [0, 0, 0, 0x30, 0x02, 0xC0, 0, 0] = .ok ⟨.chEnqReq 0 0 0xC002, 0x30000000, [], []⟩ := by decide

/-- X21: a four-wire read request has its payload. -/
theorem test_decode_X21 :
    decode Config.vectors [0, 0, 0x10, 0x30, 0x02, 0x80, 0, 0, 5, 0xFF] =
      .ok ⟨.chEnqReq 1 0 0x8002, 0x30100000, [5, 0xFF], []⟩ := by decide

theorem test_illegal_names : decode Config.vectors [0, 0, 0, 0x12] = .error (.illegalOpcode 0x12000000) ∧
    decode Config.vectors [1, 0, 0, 2] = .error (.illegalReserved 0x02000001) := by decide

/-! ## The assembler (R91, R92) -/

theorem test_assemble_comment :
    assemble Config.vectors "lock.acq 0, 100 ; wait [a while\ni2c.probe 0, 0x40" =
      some [⟨.lockAcquire 0 100, []⟩, ⟨.i2cWrite 0 0x40 0, []⟩] := by decide
theorem test_assemble_refuses : assemble Config.vectors "lock.acq 16, now" = none := by decide

/-! ## Commands, one presenting step each -/

theorem test_lockAcquire_K1 : nextIs (exec (.lockAcquire 0 0) (presenting State.reset 0 0x01000000 []))
    (fun t => (t.bus 0).lockOwner == some (.client 0) && (t.port 0).resp == 0) = true := by decide

/-- K3: the lock is held, so port 2 waits from tick 10. -/
theorem test_lockAcquire_K3 : nextIs (exec (.lockAcquire 0 3) (presenting { owned 0 1 with tick := 10 } 2 0x01000003 []))
    (fun t => (t.port 2).pstate == .waiting ⟨.lockWait, 0, 10, 3⟩ && (t.bus 0).lockOwner == some (.client 1)) = true := by decide

theorem test_lockRelease : nextIs (exec (.lockRelease 0) (presenting (owned 0 2) 2 0x02000000 []))
    (fun t => (t.bus 0).lockOwner == none && (t.port 2).resp == 0) = true := by decide

/-- F11: a release with a line asserted. -/
theorem test_lockRelease_F11 : nextIs (exec (.lockRelease 1) (presenting selected 1 0x02100000 []))
    (fun t => t.fatal && t.fatalCause == 4 && (t.bus 1).cs == 1 && (t.bus 1).trace == []) = true := by decide

/-- R130's example. -/
theorem test_i2cWrite : nextIs (exec (.i2cWrite 0 0x40 1) (presenting (owned 0 0) 0 0x10004001 [0xFE]))
    (fun t => (t.bus 0).i2cState == .waitBusFree && bufRead (t.bus 0).jobBuf 0 == some 0xFE &&
      (t.port 0).pstate == .executing) = true := by decide

/-- F4: length 33 is checked before the lock. -/
theorem test_i2cWrite_F4 : nextIs (exec (.i2cWrite 0 0x40 33) (presenting State.reset 3 0x10004021 []))
    (fun t => t.fatal && t.fatalCause == 2 && t.fatalPort == 3 && t.fatalCmd == 0x10004021) = true := by decide

theorem test_i2cRead : nextIs (exec (.i2cRead 0 .fifo 0x40 3) (presenting (owned 0 0) 0 0x11014003 []))
    (fun t => (t.bus 0).job == ⟨.client 0, .read, 0x40, 3, 0, .fifo, 0⟩) = true := by decide

/-- F5: a read of no byte. -/
theorem test_i2cRead_F5 : nextIs (exec (.i2cRead 0 .port 0x40 0) (presenting State.reset 3 0x11004000 []))
    (fun t => t.fatalCause == 2) = true := by decide

theorem test_spiSelect_SP1 : nextIs (exec (.spiSelect 1 0) (presenting (owned 1 1) 1 0x20100000 []))
    (fun t => (t.bus 1).cs == 1 && (t.bus 1).trace == [.cs 0 true]) = true := by decide

/-- SP7: select while selected. -/
theorem test_spiSelect_SP7 : nextIs (exec (.spiSelect 1 1) (presenting selected 1 0x20110000 []))
    (fun t => statFatal t == 0x29 && (t.bus 1).cs == 1) = true := by decide

theorem test_spiDeselect_SP5 : nextIs (exec (.spiDeselect 1 0) (presenting selected 1 0x21100000 []))
    (fun t => (t.bus 1).cs == 0 && (t.bus 1).trace == [.cs 0 false]) = true := by decide

/-- SP6: slave 1 is not selected. -/
theorem test_spiDeselect_SP6 : nextIs (exec (.spiDeselect 1 1) (presenting selected 1 0x21110000 []))
    (fun t => (t.bus 1).cs == 1 && (t.bus 1).trace == [] && !t.fatal) = true := by decide

theorem test_spiXferByte_SP2 : nextIs (exec (.spiXferByte 1 0x25) (presenting selected 1 0x22100025 []))
    (fun t => (t.bus 1).spiState == .transferring && bufRead (t.bus 1).jobBuf 0 == some 0x25 && (t.bus 1).job.len == 1) = true := by
  decide

/-- F9: no line asserted. -/
theorem test_spiXferByte_F9 : nextIs (exec (.spiXferByte 1 0x25) (presenting (owned 1 3) 3 0x22100025 []))
    (fun t => t.fatalCause == 4) = true := by decide

theorem test_spiXferBuf_SP3 : nextIs (exec (.spiXferBuf 1 2) (presenting selected 1 0x23100002 [0x20, 0x0F]))
    (fun t => bufRead (t.bus 1).jobBuf 1 == some 0x0F && (t.bus 1).job.len == 2) = true := by decide

/-- SP4: no byte. -/
theorem test_spiXferBuf_SP4 : nextIs (exec (.spiXferBuf 1 0) (presenting selected 1 0x23100000 []))
    (fun t => (t.port 1).resp == 0x400 && (t.port 1).pstate == .ready) = true := by decide

theorem test_chEnqReq_Q1 : nextIs (exec (.chEnqReq 0 0 0x4001) (presenting State.reset 0 0x30000000 [0xE5]))
    (fun t => (t.bus 0).rq == [q1] && (t.port 0).resp == 0) = true := by decide

/-- F16: an unknown slave. -/
theorem test_chEnqReq_F16 : nextIs (exec (.chEnqReq 1 0 0x0700) (presenting State.reset 3 0x30100000 []))
    (fun t => t.fatalCause == 1) = true := by decide

theorem test_chDeq_Q2 : nextIs (exec (.chDeq 0 .rq 0) (presenting (withBus State.reset 0 fun u => { u with rq := [q1] }) 1 0x31000000 []))
    (fun t => (t.port 1).resp == 0x800 && (t.port 1).rdata == [0x01, 0x40, 0, 0, 0xE5] && (t.bus 0).rq == []) = true := by decide

theorem test_chDeq_Q5 :
    nextIs (exec (.chDeq 0 .rsp 0xFFFF)
        (presenting (withBus State.reset 0 fun u => { u with rsp := [⟨.ok, 1, true, [0x5A]⟩] }) 0 0x3101FFFF []))
      (fun t => (t.port 0).resp == 0x800 && (t.port 0).rdata == [0x10, 0x04, 0, 0, 0x5A]) = true := by decide

/-! ## Agents, one step each -/

/-- R133: the address byte of a read of address 0x40 is 0x81. -/
theorem test_address_byte :
    nextIs (runMove (withBus (i2cJob .started .read 0 2 .port) 0 fun u => { u with sb := true }) (.i2cAddress 0))
      (fun t => (t.bus 0).trace == [.addr 0x81] && !(t.bus 0).sb) = true := by decide

/-- IR1: the one byte of a read is not acknowledged. -/
theorem test_single_byte_nack :
    nextIs (runMove (withBus (i2cJob .addressSent .read 0 1 .port) 0 fun u => { u with addr := true }) (.i2cAcked 0))
      (fun t => (t.bus 0).trace == [.ackCtl false] && !(t.bus 0).ackEn) = true := by decide

/-- IW2: the second byte is not acknowledged. -/
theorem test_data_nack_IW2 :
    nextIs (runMove (withBus (i2cJob .transferActive .write 1 3 .port) 0 fun u => { u with btf := true, af := true }) (.i2cByteSent 0))
      (fun t => (t.port 0).resp == 0x012 && (t.bus 0).i2cState == .idle && !(t.bus 0).af) = true := by decide

/-- IW10: BUSY held high, WIRE_TIMEOUT = 5: STOP only. -/
theorem test_wire_timeout_IW10 :
    nextIs (runMove (withBus { i2cJob .waitBusFree .write 0 1 .port with cfg := { Config.vectors with wireTimeout := some 5 }, tick := 5 } 0
        fun u => { u with busy := true }) (.i2cWireTimeout 0))
      (fun t => (t.port 0).resp == 0x003 && (t.bus 0).trace == [.stop]) = true := by decide

/-- SP9: the wire timeout deasserts the line. -/
theorem test_spi_timeout_SP9 :
    nextIs (runMove { spiJob 1 2 with cfg := { Config.vectors with wireTimeout := some 5 }, tick := 5 } (.spiWireTimeout 1))
      (fun t => (t.port 1).resp == 0x413 && (t.bus 1).trace == [.cs 0 false] && (t.bus 1).cs == 0) = true := by decide

/-- Q12: the empty bracket, in one step. -/
theorem test_empty_bracket_Q12 :
    nextIs (runMove (withBus State.reset 1 fun u => { u with consState := .cLock }) (.consStart 1))
      (fun t => (t.bus 1).trace == [.cs 0 true, .cs 0 false] && (t.bus 1).cres == ⟨.ok, 0, false, []⟩ &&
        (t.bus 1).lockOwner == none) = true := by decide

/-- K8: at tick 1 a wait of 4 since 0xFFFFFFFE has not expired, at tick 2 it has. -/
theorem test_elapsed_wraps_K8 :
    (⟨.lockWait, 0, 0xFFFFFFFE, 4⟩ : Wait).expired 1 = false ∧ (⟨.lockWait, 0, 0xFFFFFFFE, 4⟩ : Wait).expired 2 = true := by decide

/-- RS3: the status word of a bus whose consumer owns the lock. -/
theorem test_status_RS3 :
    statBus (withBus State.reset 0 fun u =>
      { u with lockOwner := some (.consumer 0), i2cState := .addressSent, consState := .cRun, rq := [q1] }) 0 = 0x00018470 := by decide

/-- F1: the status word of a fatal fault. -/
theorem test_status_F1 : nextIs (step (withMoves State.reset [.present 3 [1, 0, 0, 2]])) (fun t => statFatal t == 0x65) = true := by decide

/-- The host's placement of a table word runs it. -/
theorem test_withFetchWord : nextIs (step (State.reset.withFetchWord 32 0x0100FFFF))
    (fun t => (t.bus 0).lockOwner == some (.client 0)) = true := by decide

/-! ## Witnesses: encoding -/

theorem witness_EncodedCommandDecodes :
    (Instr.spiXferBuf 1 63).wf = true ∧ (List.replicate 63 (0xA5 : Byte)).length = payloadLen Config.vectors (.spiXferBuf 1 63) ∧
    (Instr.i2cRead 0 .fifo 0x7F 63).wf = true ∧ ([] : List Byte).length = payloadLen Config.vectors (.i2cRead 0 .fifo 0x7F 63) ∧
    (Instr.chEnqReq 1 0 0x8002).wf = true ∧ ([5, 0xFF] : List Byte).length = payloadLen Config.vectors (.chEnqReq 1 0 0x8002) := by
  decide

theorem witness_DecodedCommandReencodes :
    decode Config.vectors [0x01, 0x40, 0x00, 0x10, 0xFE, 0x77] = .ok ⟨.i2cWrite 0 0x40 1, 0x10004001, [0xFE], [0x77]⟩ := by decide

theorem witness_OneRowMatchesAWord :
    ∃ r ∈ opcodeTable, rowOf 0x3101FFFF = some r ∧ (0x3101FFFF : Word) &&& r.mask = r.pattern :=
  ⟨⟨0x31000000, 0xFF0E0000, false, fun h _ => .chDeq (busField h) (qselField h) (timeoutField h)⟩, by simp [opcodeTable, channelRows],
    rfl, by decide⟩

theorem witness_PayloadLengthOfAHeader :
    decodeWords 0x1000003F 0 = some (.i2cWrite 0 0 63) ∧ decodeWords 0x23100001 0 = some (.spiXferBuf 1 1) ∧
    decodeWords 0x30000000 0xC002 = some (.chEnqReq 0 0 0xC002) ∧ decodeWords 0x30100000 0x8002 = some (.chEnqReq 1 0 0x8002) ∧
    decodeWords 0x30000000 0x4001 = some (.chEnqReq 0 0 0x4001) ∧ decodeWords 0x11004001 0 = some (.i2cRead 0 .port 0x40 1) := by decide

theorem witness_DequeuedDescriptorIsTheEnqueuedOne :
    reservedOk Config.vectors (.chEnqReq 0 0 0xFF3F) = true ∧ reservedOk Config.vectors (.chEnqReq 1 0 0x8F3F) = true := by decide

theorem witness_ResponseWordFields : 63 ≤ 63 ∧ (⟨.ok, 63, true, []⟩ : Response).count ≤ 63 := by decide

/-! ## Witnesses: the step and the fatal fault -/

/-- Port 3 presents the header F1, illegal, on a block at reset. -/
def illegalNext : State := withMoves State.reset [.present 3 [1, 0, 0, 2]]

theorem witness_StepTakesTheNextMove :
    State.reset.cfg.valid = true ∧ (withMoves State.reset [.clockTick]).moves = .clockTick :: [] ∧
    moveEnabled (withMoves State.reset []) .clockTick = true ∧ moveEnabled (withMoves State.reset []) (.i2cStart 0) = false ∧
    State.reset.moves = [] := by decide

theorem witness_StepRunsThePresentedCommand :
    State.reset.cfg.valid = true ∧ State.reset.fatal = false ∧ (3 : PortIx).val < State.reset.cfg.nPort ∧
    (State.reset.port 3).pstate = .ready ∧ (withMoves State.reset [.present 3 [0, 0, 0x10, 2]]).moves = .present 3 [0, 0, 0x10, 2] :: [] ∧
    decode State.reset.cfg [0, 0, 0x10, 2] = .ok ⟨.lockRelease 1, 0x02100000, [], []⟩ := by decide

theorem witness_ConfigurationIsValidAndFixed_invalid :
    ({ State.reset with cfg := { Config.vectors with nPort := 0 } } : State).cfg.valid = false := by decide

theorem witness_ConfigurationIsValidAndFixed_step : ∃ t, step illegalNext = .next t :=
  (next_of_nextIs (f := fun _ => true) (by decide)).imp fun _ h => h.1

theorem witness_CommandRegistersWrittenOnlyByPresenting :
    (∃ t, step illegalNext = .next t) ∧ illegalNext.nextMove.1.isReset = false :=
  ⟨witness_ConfigurationIsValidAndFixed_step, by decide⟩

theorem witness_FatalFreezesTheBlock :
    let s := withMoves { State.reset with fatal := true } [.clockTick]
    s.cfg.valid = true ∧ s.fatal = true ∧ s.nextMove.1.isReset = false := by decide

theorem witness_OnlyPresentingIsFatal : ∃ t, step illegalNext = .next t ∧ illegalNext.fatal = false ∧ t.fatal = true := by
  obtain ⟨t, h, hf⟩ := next_of_nextIs (o := step illegalNext) (f := fun t => t.fatal) (by decide)
  exact ⟨t, h, rfl, hf⟩

theorem witness_FirstFailingCheckIsRecorded :
    State.reset.fatal = false ∧ (3 : PortIx).val < State.reset.cfg.nPort ∧ (State.reset.port 3).pstate = .ready ∧
    takeWord [1, 0, 0, 2] = some (0x02000001, []) ∧ (rowOf 0x02000001).isNone = true ∧
    decode State.reset.cfg [0, 0, 0, 2] = .ok ⟨.lockRelease 0, 0x02000000, [], []⟩ ∧
    firstFault State.reset 3 (.lockRelease 0) = some .lockNotHeld ∧ firstFault State.reset 3 (.lockRelease 2) = some .unknownBusOrSlave ∧
    firstFault State.reset 3 (.i2cWrite 1 0x40 1) = some .illegalCommand ∧
    firstFault State.reset 3 (.chEnqReq 0 0 0x4081) = some .illegalCommand ∧
    firstFault State.reset 3 (.i2cWrite 0 0x40 33) = some .illegalCommand ∧
    firstFault State.reset 3 (.spiSelect 1 7) = some .unknownBusOrSlave ∧ firstFault selected 1 (.lockRelease 1) = some .csProtocol ∧
    firstFault State.reset 3 (.lockAcquire 1 0) = none := by decide

theorem witness_UnknownBusIsFatal :
    Presenting (presenting State.reset 3 0x02200000 []) 3 ∧
    (presenting State.reset 3 0x02200000 []).cfg.nBus ≤ (Instr.lockRelease 2).bus.toNat ∧
    (presenting State.reset 3 0x02200000 []).cfg.nBus ≤ (Instr.lockRelease 15).bus.toNat := by
  unfold Presenting; decide

/-! ## Witnesses: the lock -/

theorem witness_LockAcquireResult :
    let s := presenting State.reset 0 0x01100000 []
    let s' := presenting (owned 0 1) 3 0x01000001 []
    (Presenting s 0 ∧ s.cfg.hasBus 1 = true ∧ (s.bus 1).lockOwner = none) ∧
    (Presenting s' 3 ∧ s'.cfg.hasBus 0 = true ∧ (s'.bus 0).lockOwner ≠ none ∧ (0 : Timeout) = 0 ∧ (1 : Timeout) ≠ 0) := by
  unfold Presenting; decide

theorem witness_LockReleaseResult :
    let s := presenting (owned 0 3) 3 0x02000000 []
    let s' := presenting (owned 1 0) 0 0x02100000 []
    (Presenting s 3 ∧ s.cfg.hasBus 0 = true ∧ (s.bus 0).lockOwner = some (.client 3) ∧
      (s.cfg.isFourWire 0 = true → (s.bus 0).cs = 0)) ∧
    (Presenting s' 0 ∧ s'.cfg.hasBus 1 = true ∧ (s'.bus 1).lockOwner = some (.client 0) ∧
      (s'.cfg.isFourWire 1 = true → (s'.bus 1).cs = 0)) := by
  unfold Presenting; decide

theorem witness_LockWaitTimeoutStep :
    (waiting 3 .lockWait 0).fatal = false ∧ (3 : PortIx).val < (waiting 3 .lockWait 0).cfg.nPort ∧
    ((waiting 3 .lockWait 0).port 3).pstate = .waiting ⟨.lockWait, 0, 10, 3⟩ := by decide

theorem witness_LockGrantStep :
    (waiting 3 .lockWait 0).fatal = false ∧ (waiting 3 .lockWait 0).cfg.hasBus 0 = true ∧
    (3 : PortIx).val < (waiting 3 .lockWait 0).cfg.nPort ∧ ((waiting 3 .lockWait 0).bus 0).lockOwner = none := by decide

theorem witness_WaitTimesOutAfterItsTimeout (k : WaitKind) :
    let s := withMoves (waiting 0 k 0) [.clockTick, .clockTick, .clockTick, .portTimeout 0]
    s.cfg.valid = true ∧ s.fatal = false ∧ (0 : PortIx).val < s.cfg.nPort ∧ (s.port 0).pstate = .waiting ⟨k, 0, 10, 3⟩ ∧
    (10 : Word) = s.tick ∧ (3 : Timeout) ≠ 0xFFFF ∧ 3 = (3 : Timeout).toNat ∧
    s.moves = List.replicate 3 .clockTick ++ .portTimeout 0 :: [] := by
  exact ⟨(by decide : Config.vectors.valid = true), rfl, (by decide : 0 < 4), rfl, rfl, by decide, rfl, rfl⟩

/-! ## Witnesses: the two-wire engine -/

theorem witness_I2cWriteStartsAJob :
    let s := presenting (owned 0 3) 3 0x10004020 (List.replicate 32 7)
    let s' := presenting (owned 0 3) 3 0x10004000 []
    (Presenting s 3 ∧ s.cfg.isTwoWire 0 = true ∧ (32 : BitVec 6).toNat ≤ s.cfg.i2cMaxLen ∧
      (s.bus 0).lockOwner = some (.client 3) ∧ s.pres.payload.length = (32 : BitVec 6).toNat) ∧
    (Presenting s' 3 ∧ (0 : BitVec 6).toNat ≤ s'.cfg.i2cMaxLen ∧ s'.pres.payload.length = (0 : BitVec 6).toNat) := by
  unfold Presenting; decide

theorem witness_I2cReadStartsAJob :
    let s := presenting (owned 0 3) 3 0x11014020 []
    Presenting s 3 ∧ s.cfg.isTwoWire 0 = true ∧ (Dest.fifo = .fifo → s.cfg.hasChannel 0 = true) ∧ 1 ≤ (1 : BitVec 6).toNat ∧
    1 ≤ (32 : BitVec 6).toNat ∧ (32 : BitVec 6).toNat ≤ s.cfg.i2cMaxLen ∧ (s.bus 0).lockOwner = some (.client 3) := by
  unfold Presenting; decide

theorem witness_BusFreeStep :
    let s := i2cJob .waitBusFree .write 0 1 .port
    let s' := withBus s 0 fun u => { u with busy := true }
    s.fatal = false ∧ s.cfg.isTwoWire 0 = true ∧ (s'.bus 0).i2cState = .waitBusFree ∧ (s'.bus 0).busy = true := by decide

theorem witness_StartLatchedStep :
    (i2cJob .started .read 0 1 .port).fatal = false ∧ (i2cJob .started .read 0 1 .port).cfg.isTwoWire 0 = true := by decide

theorem witness_AddressAckedStep :
    let s := i2cJob .addressSent .write 0 0 .port
    let s' := i2cJob .addressSent .write 0 1 .port
    let s'' := i2cJob .addressSent .read 0 1 .port
    (s.fatal = false ∧ s.cfg.isTwoWire 0 = true ∧ JobOfBus 0 (s.bus 0) ∧ (s.bus 0).job.dir = .write ∧ (s.bus 0).job.len = 0) ∧
    (JobOfBus 0 (s'.bus 0) ∧ (s'.bus 0).job.dir = .write ∧ (s'.bus 0).job.len ≠ 0) ∧
    (JobOfBus 0 (s''.bus 0) ∧ (s''.bus 0).job.dir = .read) := by
  unfold JobOfBus; decide

theorem witness_AddressNotAckedStep :
    let s := i2cJob .addressSent .write 0 0 .port
    s.fatal = false ∧ s.cfg.isTwoWire 0 = true ∧ JobOfBus 0 (s.bus 0) := by
  unfold JobOfBus; decide

theorem witness_WriteByteStep :
    let s := i2cJob .transferActive .write 61 63 .port
    let s' := i2cJob .transferActive .write 62 63 .port
    let s'' := withBus s 0 fun u => { u with af := true }
    (s.fatal = false ∧ s.cfg.isTwoWire 0 = true ∧ JobOfBus 0 (s.bus 0) ∧ (s.bus 0).af = false ∧
      (s.bus 0).job.idx + 1 < (s.bus 0).job.len ∧ (s.bus 0).job.len ≤ 63) ∧
    (JobOfBus 0 (s'.bus 0) ∧ (s'.bus 0).af = false ∧ (s'.bus 0).job.idx + 1 = (s'.bus 0).job.len) ∧
    (JobOfBus 0 (s''.bus 0) ∧ (s''.bus 0).af = true) := by
  unfold JobOfBus; decide

theorem witness_ReadByteStep :
    let s := i2cJob .transferActive .read 61 63 .fifo
    let s' := i2cJob .transferActive .read 62 63 .port
    (s.fatal = false ∧ s.cfg.isTwoWire 0 = true ∧ JobOfBus 0 (s.bus 0) ∧ (s.bus 0).job.idx < (s.bus 0).job.len ∧
      (s.bus 0).job.len ≤ 63 ∧ (s.bus 0).job.idx + 1 < (s.bus 0).job.len) ∧
    (JobOfBus 0 (s'.bus 0) ∧ (s'.bus 0).job.idx < (s'.bus 0).job.len ∧ (s'.bus 0).job.idx + 1 = (s'.bus 0).job.len) := by
  unfold JobOfBus; decide

theorem witness_I2cWireTimeoutStep :
    let s := i2cJob .waitBusFree .write 0 0 .port
    s.fatal = false ∧ s.cfg.isTwoWire 0 = true ∧ JobOfBus 0 (s.bus 0) := by
  unfold JobOfBus; decide

theorem witness_SuccessfulWriteTrace :
    let s := withMoves (i2cJob .waitBusFree .write 0 1 .port) (writeSchedule 0 1)
    let u := s.bus 0
    s.cfg.valid = true ∧ s.fatal = false ∧ s.cfg.isTwoWire 0 = true ∧ u.i2cState = .waitBusFree ∧ u.busy = false ∧ u.sb = false ∧
    u.addr = false ∧ u.af = false ∧ u.btf = false ∧ ([0] : List Byte).length ≤ 63 ∧
    u.job = ⟨.client 0, .write, 0x40, ([0] : List Byte).length, 0, .port, 0⟩ ∧
    u.jobBuf.toList.take ([0] : List Byte).length = [0] ∧ s.moves = writeSchedule 0 ([0] : List Byte).length ++ [] := by decide

theorem witness_SuccessfulReadTrace :
    let vs : List Byte := [0x12, 0x34]
    let s := withMoves (i2cJob .waitBusFree .read 0 2 .port) (readSchedule 0 vs)
    let u := s.bus 0
    s.cfg.valid = true ∧ s.fatal = false ∧ s.cfg.isTwoWire 0 = true ∧ u.i2cState = .waitBusFree ∧ u.busy = false ∧ u.sb = false ∧
    u.addr = false ∧ u.af = false ∧ u.rxne = false ∧ 1 ≤ vs.length ∧ vs.length ≤ 63 ∧
    u.job = ⟨.client 0, .read, 0x40, vs.length, 0, .port, 0⟩ ∧ s.moves = readSchedule 0 vs ++ [] := by decide

/-! ## Witnesses: the four-wire engine -/

theorem witness_SpiSelectAndDeselectResult :
    let s := presenting (owned 1 1) 1 0x20100000 []
    let s' := presenting selected 1 0x21100000 []
    (Presenting s 1 ∧ s.cfg.isFourWire 1 = true ∧ s.cfg.hasSlave 1 0 = true ∧ s.cfg.hasSlave 1 1 = true ∧
      (s.bus 1).lockOwner = some (.client 1) ∧ (s.bus 1).cs = 0) ∧
    (Presenting s' 1 ∧ s'.cfg.isFourWire 1 = true ∧ (s'.bus 1).lockOwner = some (.client 1) ∧
      (s'.bus 1).cs.getLsbD (0 : SlaveId).toNat = true ∧ (s'.bus 1).cs.getLsbD (1 : SlaveId).toNat = false) := by
  unfold Presenting; decide

theorem witness_SpiXferByteStartsAJob :
    let s := presenting selected 1 0x22100025 []
    Presenting s 1 ∧ s.cfg.isFourWire 1 = true ∧ (s.bus 1).lockOwner = some (.client 1) ∧ (s.bus 1).cs = csBit 0 := by
  unfold Presenting; decide

theorem witness_SpiXferBufResult :
    let s := presenting selected 1 0x23100000 []
    let s' := presenting selected 1 0x23100020 (List.replicate 32 7)
    (Presenting s 1 ∧ s.cfg.isFourWire 1 = true ∧ (0 : BitVec 6).toNat ≤ s.cfg.spiMaxLen ∧
      (s.bus 1).lockOwner = some (.client 1) ∧ (s.bus 1).cs = csBit 0 ∧ s.pres.payload.length = (0 : BitVec 6).toNat) ∧
    (Presenting s' 1 ∧ (32 : BitVec 6).toNat ≤ s'.cfg.spiMaxLen ∧ (s'.bus 1).cs = csBit 0 ∧
      s'.pres.payload.length = (32 : BitVec 6).toNat ∧ (32 : BitVec 6) ≠ 0) := by
  unfold Presenting; decide

theorem witness_SpiExchangeStep :
    let s := spiJob 61 63
    let s' := spiJob 62 63
    (s.fatal = false ∧ s.cfg.isFourWire 1 = true ∧ JobOfBus 1 (s.bus 1) ∧ (s.bus 1).job.idx + 1 < (s.bus 1).job.len ∧
      (s.bus 1).job.len ≤ 63) ∧
    (JobOfBus 1 (s'.bus 1) ∧ (s'.bus 1).job.idx < (s'.bus 1).job.len ∧ (s'.bus 1).job.idx + 1 = (s'.bus 1).job.len) := by
  unfold JobOfBus; decide

theorem witness_SpiWireTimeoutStep :
    let s := spiJob 1 2
    let s' := withBus s 1 fun u => { u with cs := 0 }
    s.fatal = false ∧ s.cfg.isFourWire 1 = true ∧ JobOfBus 1 (s.bus 1) ∧ (s.bus 1).cs = csBit 0 ∧ JobOfBus 1 (s'.bus 1) ∧
    (s'.bus 1).cs = 0 := by
  unfold JobOfBus; decide

theorem witness_SuccessfulTransferTrace :
    let vs : List Byte := [0x0E, 0x00]
    let s := withMoves (spiJob 0 2) (transferSchedule 1 vs)
    let u := s.bus 1
    s.cfg.valid = true ∧ s.fatal = false ∧ s.cfg.isFourWire 1 = true ∧ u.spiState = .transferring ∧ u.srxne = false ∧
    u.job.port = .client 1 ∧ u.job.idx = 0 ∧ u.job.len = vs.length ∧ 1 ≤ vs.length ∧ vs.length ≤ 63 ∧
    ([0, 0] : List Byte).length = vs.length ∧ u.jobBuf.toList.take vs.length = [0, 0] ∧
    s.moves = transferSchedule 1 vs ++ [] := by decide

/-! ## Witnesses: the channel, the environment and the outputs -/

theorem witness_ChEnqReqResult :
    let s := presenting State.reset 0 0x30000000 [0xE5]
    let s' := presenting (rqFull 1) 3 0x30100001 [5, 0xFF]
    (Presenting s 0 ∧ s.cfg.hasChannel 0 = true ∧ reservedOk s.cfg (.chEnqReq 0 0 0x4001) = true ∧
      lengthOk s.cfg (.chEnqReq 0 0 0x4001) = true ∧ slaveOk s.cfg (.chEnqReq 0 0 0x4001) = true ∧
      s.pres.payload.length = payloadLen s.cfg (.chEnqReq 0 0 0x4001) ∧ (s.bus 0).rq.length < s.cfg.rqDepth 0) ∧
    (Presenting s' 3 ∧ s'.cfg.hasChannel 1 = true ∧ reservedOk s'.cfg (.chEnqReq 1 1 0x8002) = true ∧
      lengthOk s'.cfg (.chEnqReq 1 1 0x8002) = true ∧ slaveOk s'.cfg (.chEnqReq 1 1 0x8002) = true ∧
      s'.pres.payload.length = payloadLen s'.cfg (.chEnqReq 1 1 0x8002) ∧ s'.cfg.rqDepth 1 ≤ (s'.bus 1).rq.length ∧
      (1 : Timeout) ≠ 0) := by
  unfold Presenting; decide

theorem witness_ChDeqResult :
    let s := presenting (withBus State.reset 0 fun u => { u with rq := [q1], rsp := [⟨.ok, 1, true, [0x5A]⟩] }) 0 0x31000000 []
    let s' := presenting State.reset 3 0x31010003 []
    (Presenting s 0 ∧ s.cfg.hasChannel 0 = true ∧ (s.bus 0).rq = q1 :: [] ∧ (s.bus 0).rsp = ⟨.ok, 1, true, [0x5A]⟩ :: []) ∧
    (Presenting s' 3 ∧ s'.cfg.hasChannel 1 = true ∧ (s'.bus 1).rq = [] ∧ (s'.bus 1).rsp = [] ∧ (3 : Timeout) ≠ 0) := by
  unfold Presenting; decide

theorem witness_EnqueueWaitSteps :
    (waiting 0 .enqWait 1).fatal = false ∧ (0 : PortIx).val < (waiting 0 .enqWait 1).cfg.nPort ∧
    ((waiting 0 .enqWait 1).port 0).pstate = .waiting ⟨.enqWait, 1, 10, 3⟩ := by decide

theorem witness_DequeueWaitSteps :
    let s := withBus (waiting 0 (.deqWait .rq) 1) 1 fun u => { u with rq := [q1] }
    let s' := withBus (waiting 0 (.deqWait .rsp) 1) 1 fun u => { u with rsp := [⟨.ok, 0, false, []⟩] }
    (s.fatal = false ∧ (0 : PortIx).val < s.cfg.nPort ∧ (s.port 0).pstate = .waiting ⟨.deqWait .rq, 1, 10, 3⟩ ∧
      (s.bus 1).rq = q1 :: []) ∧
    ((s'.port 0).pstate = .waiting ⟨.deqWait .rsp, 1, 10, 3⟩ ∧ (s'.bus 1).rsp = ⟨.ok, 0, false, []⟩ :: []) := by decide

theorem witness_ConsumerTakeAndPushSteps :
    let s := withBus State.reset 0 fun u => { u with rq := [q1] }
    s.fatal = false ∧ s.cfg.hasChannel 0 = true ∧ (s.bus 0).rq = q1 :: [] := by decide

theorem witness_ConsumerStartStep :
    let s := withBus State.reset 1 fun u => { u with consState := .cLock, creq := ⟨.read, 0, 2, [5, 0xFF]⟩ }
    let s' := withBus State.reset 1 fun u => { u with consState := .cLock }
    let s'' := withBus State.reset 0 fun u => { u with consState := .cLock, creq := q1 }
    (s.fatal = false ∧ s.cfg.hasChannel 1 = true ∧ s.cfg.isFourWire 1 = true ∧ (s.bus 1).cs = 0 ∧ (s.bus 1).creq.len ≠ 0) ∧
    (s'.fatal = false ∧ s'.cfg.isFourWire 1 = true ∧ (s'.bus 1).cs = 0 ∧ (s'.bus 1).creq.len = 0) ∧
    (s''.fatal = false ∧ s''.cfg.hasChannel 0 = true ∧ s''.cfg.isTwoWire 0 = true) := by decide

theorem witness_EnvironmentSteps :
    State.reset.fatal = false ∧ State.reset.cfg.isTwoWire 0 = true ∧ State.reset.cfg.isFourWire 1 = true := by decide

theorem witness_StatusOutputFields :
    (rqFull 1).cfg.valid = true ∧ (rqFull 1).cfg.hasBus 1 = true ∧ QueuesFit (rqFull 1).cfg 1 ((rqFull 1).bus 1) := by
  unfold QueuesFit; decide

theorem witness_ResetSatisfiesTheInvariant : Config.vectors.valid = true := by decide

theorem witness_TraceIsNeverRead :
    SameButTrace illegalNext (withBus illegalNext 0 fun u => { u with trace := [.start] }) ∧ (∃ t, step illegalNext = .next t) ∧
    step { State.reset with cfg := { Config.vectors with nPort := 0 } } = .refused .invalidConfiguration := by
  refine ⟨⟨⟨rfl, rfl, rfl, rfl, rfl, rfl, rfl, rfl, rfl⟩, fun _ => rfl, fun b => ?_⟩, witness_ConfigurationIsValidAndFixed_step, rfl⟩
  by_cases h : b = 0
  · subst h; exact ⟨[.start], by simp [withBus]⟩
  · exact ⟨(illegalNext.bus b).trace, by unfold withBus; rw [bus_setBus_of_ne _ _ h]⟩

theorem witness_StatusComesFromItsSource :
    let s := withMoves (withBus (i2cJob .addressSent .write 0 1 .port) 0 fun u => { u with af := true }) [.i2cNotAcked 0]
    ∃ t, step s = .next t ∧ (t.port 0).resp ≠ (s.port 0).resp ∧ ((t.port 0).resp.extractLsb' 0 4).toNat = 1 := by
  intro s
  obtain ⟨t, h, hf⟩ := next_of_nextIs (o := step s)
    (f := fun t => (t.port 0).resp != (s.port 0).resp && ((t.port 0).resp.extractLsb' 0 4).toNat == 1) (by decide)
  exact ⟨t, h, by simpa using hf⟩

theorem witness_CleanEndIsQuiet : CleanEnd State.reset := by
  unfold CleanEnd; decide

/-! ## Witnesses: the invariant -/

/-- Port 3 owns bus 0, whose request FIFO holds one request, and the next move is its release. -/
def heldNext : State :=
  withMoves (withBus State.reset 0 fun u => { u with lockOwner := some (.client 3), rq := [q1] }) [.present 3 [0, 0, 0, 2]]

theorem busInv_reset (c : Config) (b : BusId) (busy : Bool) : BusInv c b (Bus.reset busy) := by
  constructor <;> simp [OwnerRuns, SelectInLock, IdleFlagsClear, QueuesFit, CountsFit, EngineOfKind, ByteInFlight, RequestsOk, OwnerLegal,
    Bus.active, Bus.reset, Job.reset]

theorem inv_heldNext : Inv heldNext := by
  have hb : ∀ b, heldNext.bus b = if b = 0 then { Bus.reset false with lockOwner := some (.client 3), rq := [q1] } else Bus.reset false := by
    decide
  have hp : ∀ p, heldNext.port p = Port.reset := by decide
  have hi : ∀ b p, ¬ RunsFor (heldNext.bus b) p := by
    intro b p h
    have ha := h.1
    rw [hb] at ha
    split at ha <;> simp [Bus.active, Bus.reset] at ha
  constructor
  · intro b
    rw [hb]
    split
    · subst b
      have hv : heldNext.cfg = Config.vectors := rfl
      rw [hv]
      constructor <;> simp [OwnerRuns, SelectInLock, IdleFlagsClear, QueuesFit, CountsFit, EngineOfKind, ByteInFlight, RequestsOk,
        OwnerLegal, Bus.active, Bus.reset, Job.reset]
      · decide
      · unfold RequestOk; decide
      · decide
    · exact busInv_reset _ _ _
  · intro b p h; exact absurd h (hi b p)
  · intro b b' p h; exact absurd h (hi b p)
  · intro p h; rw [hp] at h; simp [Port.reset] at h
  · intro p b t0 t h; rw [hp] at h; simp [Port.reset] at h

theorem witness_StepKeepsTheInvariant :
    Inv heldNext ∧ heldNext.cfg.valid = true ∧ heldNext.nextMove.1.isReset = false ∧ ∃ t, step heldNext = .next t :=
  ⟨inv_heldNext, by decide, by decide, (next_of_nextIs (f := fun _ => true) (by decide)).imp fun _ h => h.1⟩

theorem witness_AStepChangesOneBus :
    Inv heldNext ∧ (∃ t, step heldNext = .next t) ∧ heldNext.nextMove.1.isReset = false ∧
    moveBus heldNext heldNext.nextMove.1 = some 0 ∧ moveBus heldNext heldNext.nextMove.1 ≠ some 1 :=
  ⟨inv_heldNext, witness_StepKeepsTheInvariant.2.2.2, by decide, by decide, by decide⟩

theorem witness_StepNeverStops : Inv heldNext ∧ heldNext.cfg.valid = true := ⟨inv_heldNext, by decide⟩

theorem witness_LockFreedOnlyByItsOwner :
    Inv heldNext ∧ (heldNext.bus 0).lockOwner = some (.client 3) ∧
    ∃ t, step heldNext = .next t ∧ (t.bus 0).lockOwner ≠ some (.client 3) := by
  obtain ⟨t, h, hf⟩ := next_of_nextIs (o := step heldNext) (f := fun t => (t.bus 0).lockOwner != some (.client 3)) (by decide)
  exact ⟨inv_heldNext, by decide, t, h, by simpa using hf⟩

theorem witness_QueuedRequestIsTaken :
    Inv heldNext ∧ heldNext.cfg.hasChannel 0 = true ∧ WeaklyFair heldNext (fun _ => .consTake 0) (.consTake 0) ∧
    ((stateAt heldNext (fun _ => .consTake 0) 0).bus 0).consState = .cIdle ∧
    ((stateAt heldNext (fun _ => .consTake 0) 0).bus 0).rq ≠ [] :=
  ⟨inv_heldNext, by decide, fun n _ => ⟨n, Nat.le_refl n, rfl⟩, by decide, by decide⟩

theorem witness_TraceOnlyGrows : (∃ t, step heldNext = .next t) ∧ heldNext.nextMove.1.isReset = false :=
  ⟨witness_StepKeepsTheInvariant.2.2.2, by decide⟩

theorem witness_TickMovesOnlyByTheClock : ∃ t, step (withMoves State.reset [.clockTick]) = .next t ∧ t.tick ≠ State.reset.tick := by
  obtain ⟨t, h, hf⟩ := next_of_nextIs (o := step (withMoves State.reset [.clockTick])) (f := fun t => t.tick != State.reset.tick) (by decide)
  exact ⟨t, h, by simpa using hf⟩

end Sys2Proof.Tests
end

section
/-! PROOFS. The opcode table and the response words (spec/30_encoding.md R88, R93). -/

namespace Sys2Proof

/-! ## The opcode table (R93) -/

theorem OpcodeRow.fits_iff (r : OpcodeRow) (h : Word) : r.fits h = true ↔ h &&& r.mask = r.pattern := beq_iff_eq

/-- Every row tests the whole opcode byte. -/
theorem opcodeTable_mask_opcode : ∀ r ∈ opcodeTable, r.mask.extractLsb' 24 8 = 0xFF := by decide

theorem opcodeTable_opcodes_nodup : (opcodeTable.map (·.pattern.extractLsb' 24 8)).Nodup := by decide

/-- A row's opcode is that of every word that meets the row, as its mask keeps the opcode byte. -/
theorem pattern_opcode_of_fits {r : OpcodeRow} {h : Word} (hr : r ∈ opcodeTable) (hf : r.fits h = true) :
    r.pattern.extractLsb' 24 8 = h.extractLsb' 24 8 := by
  rw [← (r.fits_iff h).1 hf, BitVec.extractLsb'_and, opcodeTable_mask_opcode r hr]
  exact BitVec.and_allOnes

/-- Two rows that one word meets have its opcode, and no two rows share one. -/
theorem row_eq_of_fits {r r' : OpcodeRow} {h : Word} (hr : r ∈ opcodeTable) (hr' : r' ∈ opcodeTable) (hf : r.fits h = true)
    (hf' : r'.fits h = true) : r = r' :=
  List.inj_on_of_nodup_map opcodeTable_opcodes_nodup hr hr'
    ((pattern_opcode_of_fits hr hf).trans (pattern_opcode_of_fits hr' hf').symm)

theorem fits_of_rowOf {h : Word} {r : OpcodeRow} (hrow : rowOf h = some r) : r.fits h = true :=
  List.find?_some (p := fun r : OpcodeRow => r.fits h) hrow

theorem rowOf_eq_none_iff {h : Word} : rowOf h = none ↔ ∀ r ∈ opcodeTable, ¬ r.fits h = true := List.find?_eq_none

/-- The row found for a word is the one row of the table that the word meets. -/
theorem rowOf_eq_some_iff {h : Word} {r : OpcodeRow} : rowOf h = some r ↔ r ∈ opcodeTable ∧ r.fits h = true := by
  constructor
  · intro hrow
    exact ⟨List.mem_of_find?_eq_some hrow, fits_of_rowOf hrow⟩
  · rintro ⟨hr, hf⟩
    cases hrow : rowOf h with
    | none => exact absurd hf (rowOf_eq_none_iff.1 hrow r hr)
    | some r' => rw [row_eq_of_fits hr (List.mem_of_find?_eq_some hrow) hf (fits_of_rowOf hrow)]

/-- Settles O4: a word that meets a row has the row's opcode byte, and the opcodes are distinct. -/
theorem oneRowMatchesAWord : Obligations.OneRowMatchesAWord := by
  refine ⟨opcodeTable_mask_opcode, opcodeTable_opcodes_nodup, fun h => ?_⟩
  simp only [ne_eq, ← OpcodeRow.fits_iff]
  refine ⟨fun r => rowOf_eq_some_iff.1, fun r hr r' hr' hf hf' => ?_, rowOf_eq_none_iff⟩
  cases row_eq_of_fits hr hr' hf hf'
  exact ⟨rfl, rfl⟩

end Sys2Proof

namespace Sys2Proof.Machine

/-! ## Response words (R88): one lemma a field -/

theorem getLsbD_eq_of_extract {n i : Nat} {x : BitVec n} {v : Bool} (h : x.extractLsb' i 1 = BitVec.ofBool v) : x.getLsbD i = v := by
  have h0 : (x.extractLsb' i 1).getLsbD 0 = (BitVec.ofBool v).getLsbD 0 := congrArg (·.getLsbD 0) h
  simpa using h0

section Fields
variable (st : Status) (n : Nat) (data item : Bool)

theorem responseWord_status : (responseWord st n data item).extractLsb' 0 4 = st.code := extract_append_last _ _

theorem responseWord_count : (responseWord st n data item).extractLsb' 4 6 = BitVec.ofNat 6 n :=
  (extract_append 4 0).trans (extract_append_last _ _)

theorem responseWord_count_toNat (hn : n ≤ 63) : ((responseWord st n data item).extractLsb' 4 6).toNat = n := by
  rw [responseWord_count, BitVec.toNat_ofNat]
  exact Nat.mod_eq_of_lt (by omega)

theorem responseWord_data : (responseWord st n data item).getLsbD 10 = data :=
  getLsbD_eq_of_extract ((extract_append 4 6).trans ((extract_append 6 0).trans (extract_append_last _ _)))

/-- ITEM and the zeros above it. -/
theorem responseWord_above_data : (responseWord st n data item).extractLsb' 11 21 = 0#20 ++ BitVec.ofBool item :=
  (extract_append 4 7).trans ((extract_append 6 1).trans ((extract_append 1 0).trans (extract_all _)))

theorem responseWord_item : (responseWord st n data item).getLsbD 11 = item :=
  getLsbD_eq_of_extract
    ((extract_append 4 7).trans ((extract_append 6 1).trans ((extract_append 1 0).trans (extract_append_last _ _))))

theorem responseWord_reserved : (responseWord st n data item).extractLsb' 12 20 = 0 :=
  (extract_append 4 8).trans ((extract_append 6 2).trans ((extract_append 1 1).trans ((extract_append 1 0).trans (extract_all _))))

end Fields

/-- Settles O8: both words are `responseWord`, whose fields are the parts of one concatenation; an entry's ITEM is 0. -/
theorem responseWordFields : Obligations.ResponseWordFields := by
  constructor
  · intro st n data item hn
    refine ⟨?_, responseWord_count_toNat st n data item hn, responseWord_data st n data item, responseWord_item st n data item,
      responseWord_reserved st n data item⟩
    rw [responseWord_status]
    cases st <;> rfl
  · intro e he
    exact ⟨responseWord_status _ _ _ _, responseWord_count_toNat _ _ _ _ he, responseWord_data _ _ _ _,
      responseWord_above_data _ _ _ _⟩

end Sys2Proof.Machine
end

section
/-! PROOFS. The Transaction Lock (spec/40_lock.md): the unknown bus (R117), the timeout of a lock wait (R111), the grant (R113). -/

namespace Sys2Proof.Machine

/-! ## The bus check (R117, R244) -/

/-- A presenting step with a failing check is the fatal fault of the first one. -/
theorem issue_fails {s : State} {d : Option Word} {checks : List (Bool × Cause)} {body : State → State} {c : Cause}
    (hp : presentable s s.pres.port = true) (hc : firstFailing checks = some c) :
    issue s d checks body = .next (takeFatal s s.pres.port c s.pres.cmd) := by
  simp [issue, hp, hc]

/-- R244: every command's presenting step checks first that its bus exists. -/
theorem exec_checks_bus_first (i : Instr) (s : State) :
    ∃ d checks body, exec i s = issue s d ((s.cfg.hasBus i.bus, .unknownBusOrSlave) :: checks) body := by
  cases i <;> dsimp only [exec, Instr.bus, execLockAcquire, execLockRelease, execI2cWrite, execI2cRead, execSpiSelect,
    execSpiDeselect, execSpiXferByte, execSpiXferBuf, execChEnqReq, execChDeq] <;> exact ⟨_, _, _, rfl⟩

theorem hasBus_false_of_nBus_le {c : Config} {b : BusId} (h : c.nBus ≤ b.toNat) : c.hasBus b = false :=
  decide_eq_false (Nat.not_lt.2 h)

/-- Settles O20: the bus check is the first of every command, and it fails. -/
theorem unknownBusIsFatal : Obligations.UnknownBusIsFatal := by
  intro i s p hp hbus
  obtain ⟨d, checks, body, he⟩ := exec_checks_bus_first i s
  have hfail : firstFailing ((s.cfg.hasBus i.bus, .unknownBusOrSlave) :: checks) = some .unknownBusOrSlave := by
    simp [firstFailing, hasBus_false_of_nBus_le hbus]
  have hpres := presenting_presentable hp
  obtain ⟨rfl, -⟩ := hp
  exact ⟨_, he.trans (issue_fails hpres hfail), takeFatal_fatalOf ..⟩

/-! ## Waiting ports -/

theorem waitOf_eq_some_iff {s : State} {p : PortIx} {w : Wait} : s.waitOf p = some w ↔ (s.port p).pstate = .waiting w := by
  unfold State.waitOf
  cases (s.port p).pstate <;> simp

theorem Wait.expired_iff {w : Wait} {tick : Word} :
    w.expired tick = true ↔ w.timeout ≠ 0xFFFF ∧ w.timeout.toNat ≤ (tick - w.t0).toNat := by
  simp only [Wait.expired, Bool.and_eq_true, bne_iff_ne, decide_eq_true_eq]
  rfl

/-- R111, R202 (b), R204 (b): a waiting client port's timeout is enabled exactly when its wait has expired. -/
theorem moveEnabled_portTimeout_iff {s : State} {p : PortIx} {w : Wait} (hf : s.fatal = false) (hp : p.val < s.cfg.nPort)
    (hw : (s.port p).pstate = .waiting w) :
    moveEnabled s (.portTimeout p) = true ↔ w.timeout ≠ 0xFFFF ∧ w.timeout.toNat ≤ (s.tick - w.t0).toNat := by
  simp [moveEnabled_running hf, enabledRunning, isClient, hp, portTimeoutEnabled, waitOf_eq_some_iff.2 hw, Wait.expired_iff]

/-- R111, R202 (b), R204 (b): the timeout of a waiting port answers the status of its wait. -/
theorem runMove_portTimeout {s : State} {p : PortIx} {w : Wait} (hw : (s.port p).pstate = .waiting w) :
    runMove s (.portTimeout p) = .next (respond s p (W w.kind.timeoutStatus 0 false) []) := by
  simp [runMove, portTimeout, waitOf_eq_some_iff.2 hw]

/-- Settles O23: the wait's expiry alone enables the timeout, which is a response to the port. -/
theorem lockWaitTimeoutStep : Obligations.LockWaitTimeoutStep := by
  intro s p b t0 T hf hp hw
  exact ⟨moveEnabled_portTimeout_iff hf hp hw, _, runMove_portTimeout hw, onlyPort_setPort .., port_respond_same ..⟩

/-! ## The grant (R113) -/

theorem lockGrantEnabled_iff {s : State} {b : BusId} {q : PortIx} :
    lockGrantEnabled s b q = true ↔
      (s.bus b).lockOwner = none ∧ ∃ t0 T, (s.port q).pstate = .waiting ⟨.lockWait, b, t0, T⟩ := by
  unfold lockGrantEnabled
  cases hw : s.waitOf q with
  | none =>
    have hnot : ∀ w, (s.port q).pstate ≠ .waiting w := fun w h => by simp [waitOf_eq_some_iff.2 h] at hw
    simp [hnot]
  | some w =>
    obtain ⟨kind, bus, t0, T⟩ := w
    simp [waitOf_eq_some_iff.1 hw, and_assoc]

/-- Settles O24: the grant is `takeLock`, enabled for every port waiting for the free lock. -/
theorem lockGrantStep : Obligations.LockGrantStep := by
  intro s b q hf hb hq
  refine ⟨?_, _, rfl, takeLock_spec s b q⟩
  rw [← lockGrantEnabled_iff, moveEnabled_running hf]
  simp [enabledRunning, isClient, hb, hq]

end Sys2Proof.Machine
end

section
/-! PROOFS. The steps of the two-wire engine (spec/41_i2c.md R140..R148) and of the bus environment (spec/10_state.md R33, R150, R151,
spec/42_spi.md R184). -/

namespace Sys2Proof.Machine

/-! ## The step of an agent of one bus: when it is enabled, and what its outcome says of the bus -/

/-- R20: on a two-wire bus a move of its engine or environment is enabled as its rule's condition says. -/
theorem moveEnabled_twoWire_iff {s : State} {b : BusId} {m : Move} {cond : Bus → Bool} {P : Prop} (hf : s.fatal = false)
    (hk : s.cfg.isTwoWire b = true) (hm : enabledRunning s m = onTwoWire s b cond) (hc : cond (s.bus b) = true ↔ P) :
    moveEnabled s m = true ↔ P := by
  rw [moveEnabled_running hf, hm, ← hc]
  simp [onTwoWire, hk]

/-- R20: on a four-wire bus a move of its engine or environment is enabled as its rule's condition says. -/
theorem moveEnabled_fourWire_iff {s : State} {b : BusId} {m : Move} {cond : Bus → Bool} {P : Prop} (hf : s.fatal = false)
    (hk : s.cfg.isFourWire b = true) (hm : enabledRunning s m = onFourWire s b cond) (hc : cond (s.bus b) = true ↔ P) :
    moveEnabled s m = true ↔ P := by
  rw [moveEnabled_running hf, hm, ← hc]
  simp [onFourWire, hk]

/-- A step that writes one bus: its frame and the bus after it. -/
theorem onlyBus_of_eq_setBus {o : Host.Outcome State Fault Refusal} {s : State} {b : BusId} {u : Bus}
    (h : o = .next (s.setBus b u)) : ∃ t, o = .next t ∧ OnlyBus s t b ∧ t.bus b = u :=
  ⟨_, h, onlyBus_setBus .., bus_setBus_same ..⟩

/-- A step that ends a job (R147). -/
theorem ended_of_eq_i2cFinish {o : Host.Outcome State Fault Refusal} {s : State} {b : BusId} {u : Bus} {st : Status}
    (hj : JobOfBus b u) (h : o = .next (i2cFinish (s.setBus b u) b st)) : ∃ t, o = .next t ∧ I2cEnded s t b u st :=
  ⟨_, h, i2cFinish_ended st hj⟩

/-! ## The conditions of the environment's steps (R150, R151, R184) -/

theorem envStartLatchedEnabled_iff {u : Bus} : envStartLatchedEnabled u = true ↔ u.i2cState = .started ∧ u.sb = false := by
  simp [envStartLatchedEnabled]

theorem envAddressEnabled_iff {u : Bus} :
    envAddressEnabled u = true ↔ u.i2cState = .addressSent ∧ u.addr = false ∧ u.af = false := by
  simp [envAddressEnabled, and_assoc]

theorem envByteDoneEnabled_iff {u : Bus} :
    envByteDoneEnabled u = true ↔ u.i2cState = .transferActive ∧ u.job.dir = .write ∧ u.btf = false := by
  simp [envByteDoneEnabled, and_assoc]

theorem envByteReadyEnabled_iff {u : Bus} :
    envByteReadyEnabled u = true ↔ u.i2cState = .transferActive ∧ u.job.dir = .read ∧ u.rxne = false := by
  simp [envByteReadyEnabled, and_assoc]

theorem envExchangeEnabled_iff {u : Bus} : envExchangeEnabled u = true ↔ u.spiState = .transferring ∧ u.srxne = false := by
  simp [envExchangeEnabled]

/-- Settles O51: each step of the environment has its rule's condition and writes its status inputs into the bus. -/
theorem environmentSteps : Obligations.EnvironmentSteps := by
  intro s b v x hf
  refine ⟨fun hk => ⟨?busy, ?start, ?ack, ?nack, ?done, ?ready⟩, fun hk => ?exchange⟩
  case busy => exact ⟨(moveEnabled_running hf).trans hk, onlyBus_of_eq_setBus rfl⟩
  case start => exact ⟨moveEnabled_twoWire_iff hf hk rfl envStartLatchedEnabled_iff, onlyBus_of_eq_setBus rfl⟩
  case ack => exact ⟨moveEnabled_twoWire_iff hf hk rfl envAddressEnabled_iff, onlyBus_of_eq_setBus rfl⟩
  case nack => exact ⟨moveEnabled_twoWire_iff hf hk rfl envAddressEnabled_iff, onlyBus_of_eq_setBus rfl⟩
  case done => exact ⟨moveEnabled_twoWire_iff hf hk rfl envByteDoneEnabled_iff, onlyBus_of_eq_setBus rfl⟩
  case ready => exact ⟨moveEnabled_twoWire_iff hf hk rfl envByteReadyEnabled_iff, onlyBus_of_eq_setBus rfl⟩
  case exchange => exact ⟨moveEnabled_fourWire_iff hf hk rfl envExchangeEnabled_iff, onlyBus_of_eq_setBus rfl⟩

/-! ## The conditions of the engine's steps -/

theorem i2cStartEnabled_iff {u : Bus} : i2cStartEnabled u = true ↔ u.i2cState = .waitBusFree ∧ u.busy = false := by
  simp [i2cStartEnabled]

theorem i2cAddressEnabled_iff {u : Bus} : i2cAddressEnabled u = true ↔ u.i2cState = .started ∧ u.sb = true := by
  simp [i2cAddressEnabled]

theorem i2cAckedEnabled_iff {u : Bus} : i2cAckedEnabled u = true ↔ u.i2cState = .addressSent ∧ u.addr = true := by
  simp [i2cAckedEnabled]

theorem i2cNotAckedEnabled_iff {u : Bus} : i2cNotAckedEnabled u = true ↔ u.i2cState = .addressSent ∧ u.af = true := by
  simp [i2cNotAckedEnabled]

theorem i2cByteSentEnabled_iff {u : Bus} :
    i2cByteSentEnabled u = true ↔ u.i2cState = .transferActive ∧ u.job.dir = .write ∧ u.btf = true := by
  simp [i2cByteSentEnabled, and_assoc]

theorem i2cByteReceivedEnabled_iff {c : Config} {b : BusId} {u : Bus} :
    i2cByteReceivedEnabled c b u = true ↔
      u.i2cState = .transferActive ∧ u.job.dir = .read ∧ u.rxne = true ∧ (u.job.dest = .port ∨ u.rsp.length < c.rspDepth b) := by
  simp [i2cByteReceivedEnabled, and_assoc]

theorem wireExpired_iff {c : Config} {tick t0 : Word} :
    wireExpired c tick t0 = true ↔ ∃ w, c.wireTimeout = some w ∧ w ≤ (tick - t0).toNat := by
  unfold wireExpired elapsed
  cases c.wireTimeout <;> simp

/-- R148: the awaited event of each state has not occurred. -/
theorem Bus.i2cAwaiting_iff {u : Bus} :
    u.i2cAwaiting = true ↔
      (u.i2cState = .waitBusFree ∧ u.busy = true) ∨ (u.i2cState = .started ∧ u.sb = false) ∨
      (u.i2cState = .addressSent ∧ u.addr = false ∧ u.af = false) ∨
      (u.i2cState = .transferActive ∧ u.job.dir = .write ∧ u.btf = false) ∨
      (u.i2cState = .transferActive ∧ u.job.dir = .read ∧ u.rxne = false) := by
  unfold Bus.i2cAwaiting
  cases u.i2cState
  case transferActive => cases u.job.dir <;> simp
  all_goals simp

theorem i2cWireTimeoutEnabled_iff {c : Config} {tick : Word} {u : Bus} :
    i2cWireTimeoutEnabled c tick u = true ↔
      (∃ w, c.wireTimeout = some w ∧ w ≤ (tick - u.job.t0).toNat) ∧ u.i2cAwaiting = true := by
  rw [i2cWireTimeoutEnabled, Bool.and_eq_true, wireExpired_iff, and_comm]

/-! ## From the free bus to the address byte (R140, R141, R133) -/

/-- R140: while BUSY is high in WaitBusFree no condition of R140..R146 holds. -/
theorem no_i2c_condition_while_busy (c : Config) (b : BusId) {u : Bus} (hw : u.i2cState = .waitBusFree) (hb : u.busy = true) :
    ∀ cond ∈ [i2cStartEnabled, i2cAddressEnabled, i2cAckedEnabled, i2cNotAckedEnabled, i2cByteSentEnabled,
      i2cByteReceivedEnabled c b], cond u = false := by
  simp [i2cStartEnabled, i2cAddressEnabled, i2cAckedEnabled, i2cNotAckedEnabled, i2cByteSentEnabled, i2cByteReceivedEnabled, hw, hb]

/-- Settles O29: START is enabled by the free bus; every other engine step but the timeout needs another state. -/
theorem busFreeStep : Obligations.BusFreeStep := by
  intro s b hf hk
  refine ⟨moveEnabled_twoWire_iff hf hk rfl i2cStartEnabled_iff, onlyBus_of_eq_setBus rfl, fun hw hb => ?_⟩
  simpa [moveEnabled_running hf, enabledRunning, onTwoWire, hk] using no_i2c_condition_while_busy s.cfg b hw hb

/-- R133: the address byte as a number. -/
theorem addressByte_toNat (a : Addr7) (d : Dir) :
    (addressByte a d).toNat = 2 * a.toNat + (match d with | .write => 0 | .read => 1) := by
  have hd : (addressByte a d).toNat = a.toNat * 2 + d.bit.toNat := by
    rw [addressByte, BitVec.toNat_append, ← Nat.shiftLeft_add_eq_or_of_lt d.bit.isLt, Nat.shiftLeft_eq]
  rw [hd, Nat.mul_comm]
  cases d <;> rfl

/-- Settles O30: SB alone enables the step, which sends `addressByte`. -/
theorem startLatchedStep : Obligations.StartLatchedStep := by
  intro s b hf hk
  obtain ⟨t, hrun, hframe, hbus⟩ := onlyBus_of_eq_setBus (rfl : runMove s (.i2cAddress b) = .next (i2cAddress s b))
  exact ⟨moveEnabled_twoWire_iff hf hk rfl i2cAddressEnabled_iff, t, _, hrun, hframe, addressByte_toNat _ _, hbus⟩

/-! ## The answer to the address (R142, R143) -/

/-- R144: the acknowledgment control is on for every byte but the last. -/
theorem ackBit_iff {job : Job} {i : Nat} : ackBit job i = true ↔ i + 1 < job.len := by
  rw [ackBit, decide_eq_true_iff]; omega

theorem i2cAcked_emptyWrite {s : State} {b : BusId} (hd : (s.bus b).job.dir = .write) (hl : (s.bus b).job.len = 0) :
    i2cAcked s b = .next (i2cFinish (s.setBus b { s.bus b with addr := false }) b .ok) := by
  simp [i2cAcked, hd, hl]

theorem i2cAcked_write {s : State} {b : BusId} {v : Byte} (hd : (s.bus b).job.dir = .write) (hl : (s.bus b).job.len ≠ 0)
    (hv : bufRead (s.bus b).jobBuf 0 = some v) :
    i2cAcked s b =
      .next (s.setBus b (({ s.bus b with addr := false }.emit (.tx v)).enter .transferActive s.tick)) := by
  simp [i2cAcked, hd, hl, hv]

theorem i2cAcked_read {s : State} {b : BusId} (hd : (s.bus b).job.dir = .read) :
    i2cAcked s b = .next (s.setBus b (({ s.bus b with addr := false }.setAck 0).enter .transferActive s.tick)) := by
  simp [i2cAcked, hd]

/-- Settles O31: one equation of `i2cAcked` a branch; byte 0 is always an index of the job buffer. -/
theorem addressAckedStep : Obligations.AddressAckedStep := by
  intro s b hf hk hj
  refine ⟨moveEnabled_twoWire_iff hf hk rfl i2cAckedEnabled_iff, fun hd hl => ?_, fun hd hl => ?_, fun hd => ?_⟩
  · exact ended_of_eq_i2cFinish hj (i2cAcked_emptyWrite hd hl)
  · have hv := bufRead_isSome (m := (s.bus b).jobBuf) (i := 0) (by decide)
    obtain ⟨t, hrun, hframe, hbus⟩ := onlyBus_of_eq_setBus (i2cAcked_write hd hl hv)
    exact ⟨t, _, hrun, hframe, hv, hbus⟩
  · obtain ⟨t, hrun, hframe, hbus⟩ := onlyBus_of_eq_setBus (i2cAcked_read hd)
    exact ⟨t, _, hrun, hframe, ackBit_iff, hbus⟩

/-- Settles O32: the step is `finish` with ADDR_NACK after AF is cleared. -/
theorem addressNotAckedStep : Obligations.AddressNotAckedStep := by
  intro s b hf hk hj
  exact ⟨moveEnabled_twoWire_iff hf hk rfl i2cNotAckedEnabled_iff,
    ended_of_eq_i2cFinish (u := { s.bus b with af := false }) hj rfl⟩

/-! ## A byte of a write (R145) -/

theorem i2cByteSent_nack {s : State} {b : BusId} (ha : (s.bus b).af = true) :
    i2cByteSent s b = .next (i2cFinish (s.setBus b { s.bus b with btf := false, af := false }) b .dataNack) := by
  simp [i2cByteSent, ha]

theorem i2cByteSent_last {s : State} {b : BusId} (ha : (s.bus b).af = false) (hl : (s.bus b).job.idx + 1 = (s.bus b).job.len) :
    i2cByteSent s b = .next (i2cFinish (s.setBus b { s.bus b with btf := false }.nextByte) b .ok) := by
  simp [i2cByteSent, Bus.nextByte, ha, hl]

theorem i2cByteSent_more {s : State} {b : BusId} {v : Byte} (ha : (s.bus b).af = false)
    (hl : (s.bus b).job.idx + 1 ≠ (s.bus b).job.len) (hv : bufRead (s.bus b).jobBuf ((s.bus b).job.idx + 1) = some v) :
    i2cByteSent s b = .next (s.setBus b (({ s.bus b with btf := false }.nextByte.emit (.tx v)).stamp s.tick)) := by
  simp [i2cByteSent, Bus.nextByte, ha, hl, hv]

/-- Settles O33: one equation of `i2cByteSent` a branch; before the last byte the next index is in the job buffer. -/
theorem writeByteStep : Obligations.WriteByteStep := by
  intro s b hf hk hj
  refine ⟨moveEnabled_twoWire_iff hf hk rfl i2cByteSentEnabled_iff, fun ha => ?_, fun ha hl => ?_, fun ha hl h63 => ?_⟩
  · exact ended_of_eq_i2cFinish hj (i2cByteSent_nack ha)
  · exact ended_of_eq_i2cFinish hj (i2cByteSent_last ha hl)
  · have hv := bufRead_isSome (m := (s.bus b).jobBuf) (lt_of_lt_of_le hl h63)
    obtain ⟨t, hrun, hframe, hbus⟩ := onlyBus_of_eq_setBus (i2cByteSent_more ha hl.ne hv)
    exact ⟨t, _, hrun, hframe, hv, hbus⟩

/-! ## A byte of a read (R146) -/

theorem bufWrite_isSome {m : Vector Byte 63} {i : Nat} {v : Byte} (h : i < 63) : ∃ m', bufWrite m i v = some m' :=
  ⟨_, dif_pos h⟩

/-- R146: the bus once the received byte `DR` is traced, pushed where it goes to the FIFO, stored and counted; `m` is the job buffer
with it. -/
def Bus.afterReceive (u : Bus) (m : Vector Byte 63) : Bus :=
  { u with
    rxne := false, jobBuf := m, trace := u.trace ++ [.rx u.dr], job := { u.job with idx := u.job.idx + 1 },
    rsp := (match u.job.dest with | .port => u.rsp | .fifo => u.rsp ++ [⟨.ok, 1, true, [u.dr]⟩]) }

@[simp] theorem Bus.job_receive (u : Bus) (v : Byte) : (u.receive v).job = u.job := by
  cases hd : u.job.dest <;> simp [Bus.receive, Bus.emit, hd]

@[simp] theorem Bus.jobBuf_receive (u : Bus) (v : Byte) : (u.receive v).jobBuf = u.jobBuf := by
  cases hd : u.job.dest <;> simp [Bus.receive, Bus.emit, hd]

theorem Bus.nextByte_receive_eq (u : Bus) (m : Vector Byte 63) :
    { u.receive u.dr with jobBuf := m }.nextByte = u.afterReceive m := by
  cases hd : u.job.dest <;> simp [Bus.receive, Bus.emit, Bus.nextByte, Bus.afterReceive, hd]

theorem i2cByteReceived_stored {s : State} {b : BusId} {m : Vector Byte 63}
    (hm : bufWrite (s.bus b).jobBuf (s.bus b).job.idx (s.bus b).dr = some m) :
    i2cByteReceived s b =
      if (s.bus b).job.idx + 1 = (s.bus b).job.len then .next (i2cFinish (s.setBus b ((s.bus b).afterReceive m)) b .ok)
      else .next (s.setBus b ((((s.bus b).afterReceive m).setAck ((s.bus b).job.idx + 1)).stamp s.tick)) := by
  have hw : bufWrite ((s.bus b).receive (s.bus b).dr).jobBuf ((s.bus b).receive (s.bus b).dr).job.idx (s.bus b).dr = some m := by
    simpa using hm
  simp only [i2cByteReceived, hw, Bus.nextByte_receive_eq]
  rfl

/-- Settles O34: the index is in the job buffer, so the byte is stored, and `i2cByteReceived_stored` has the two cases. -/
theorem readByteStep : Obligations.ReadByteStep := by
  intro s b hf hk hj
  refine ⟨moveEnabled_twoWire_iff hf hk rfl i2cByteReceivedEnabled_iff, fun hi h63 => ?_⟩
  obtain ⟨m, hm⟩ := bufWrite_isSome (m := (s.bus b).jobBuf) (v := (s.bus b).dr) (lt_of_lt_of_le hi h63)
  have hrun := i2cByteReceived_stored hm
  refine ⟨m, fun k _ => bufRead_bufWrite hm, fun hl => ?_, fun hl => ?_⟩
  · rw [if_pos hl] at hrun
    exact ended_of_eq_i2cFinish (u := (s.bus b).afterReceive m) hj hrun
  · rw [if_neg hl.ne] at hrun
    obtain ⟨t, hnext, hframe, hbus⟩ := onlyBus_of_eq_setBus hrun
    refine ⟨t, _, hnext, hframe, ackBit_iff, ?_⟩
    rw [hbus, List.append_cons _ (WireEvent.rx _) [WireEvent.ackCtl _]]
    rfl

/-! ## The wire timeout (R148) -/

/-- Settles O35: the timeout is enabled while the awaited event is out and the bound has passed, and is `finish` with BUS_TIMEOUT. -/
theorem i2cWireTimeoutStep : Obligations.I2cWireTimeoutStep := by
  intro s b hf hk hj
  refine ⟨moveEnabled_twoWire_iff hf hk rfl ?_, ended_of_eq_i2cFinish hj ?_⟩
  · rw [i2cWireTimeoutEnabled_iff, Bus.i2cAwaiting_iff]
  · rw [setBus_self]; rfl

end Sys2Proof.Machine
end

section
/-! PROOFS. The steps of the four-wire engine (spec/42_spi.md): the wire timeout (R183). -/

namespace Sys2Proof.Machine

/-! ## Deasserting the lines (R183, R214) -/

/-- With no line asserted there is nothing to deassert, and no event. -/
theorem Bus.deassertAll_of_none {u : Bus} (h : u.cs = 0) : u.deassertAll = u := by
  rw [Bus.deassertAll, h, assertedLines_zero, List.map_nil, List.append_nil, ← h]

/-- With one line asserted its deassertion is the one event. -/
theorem Bus.deassertAll_of_one {u : Bus} {sl : SlaveId} (h : u.cs = csBit sl) :
    u.deassertAll = { u with cs := 0, trace := u.trace ++ [.cs sl false] } := by
  simp [Bus.deassertAll, h, assertedLines_csBit]

/-! ## The wire timeout (R183) -/

theorem spiWireTimeoutEnabled_iff {c : Config} {tick : Word} {u : Bus} :
    spiWireTimeoutEnabled c tick u = true ↔
      (∃ w, c.wireTimeout = some w ∧ w ≤ (tick - u.job.t0).toNat) ∧ u.spiState = .transferring ∧ u.srxne = false := by
  rw [spiWireTimeoutEnabled, Bool.and_eq_true, wireExpired_iff, and_comm]
  simp

/-- R183: whatever lines are asserted, the step ends the job with BUS_TIMEOUT once they are down. -/
theorem runMove_spiWireTimeout_ended {s : State} {b : BusId} (hj : JobOfBus b (s.bus b)) :
    ∃ t, runMove s (.spiWireTimeout b) = .next t ∧ SpiEnded s t b (s.bus b).deassertAll .busTimeout :=
  ⟨_, rfl, spiFinish_ended .busTimeout hj⟩

/-- Settles O42: the timeout is `spi_finish` with BUS_TIMEOUT after `deassertAll`, which is computed for no line and for one. -/
theorem spiWireTimeoutStep : Obligations.SpiWireTimeoutStep := by
  intro s b sl hf hk hj
  have hend := runMove_spiWireTimeout_ended hj
  refine ⟨moveEnabled_fourWire_iff hf hk rfl spiWireTimeoutEnabled_iff, fun hnone => ?_, fun hone => ?_⟩
  · rwa [Bus.deassertAll_of_none hnone] at hend
  · rwa [Bus.deassertAll_of_one hone] at hend

end Sys2Proof.Machine
end

section
/-! PROOFS. The queue-mediated channel (spec/43_channel.md): the waits to enqueue and to dequeue (R202, R204), the consumer's take and
push (R211, R215). -/

namespace Sys2Proof.Machine

/-! ## The FIFOs (R200, R203) -/

theorem rqHasRoom_iff {s : State} {b : BusId} : rqHasRoom s b = true ↔ (s.bus b).rq.length < s.cfg.rqDepth b := decide_eq_true_iff

theorem rspHasRoom_iff {s : State} {b : BusId} : rspHasRoom s b = true ↔ (s.bus b).rsp.length < s.cfg.rspDepth b :=
  decide_eq_true_iff

/-- R203: a dequeue takes an item exactly when the selected FIFO has one. -/
theorem dequeueFor_isSome_iff {s : State} {p : PortIx} {b : BusId} {q : QSel} :
    (dequeueFor s p b q).isSome = true ↔ (q = .rq ∧ (s.bus b).rq ≠ []) ∨ (q = .rsp ∧ (s.bus b).rsp ≠ []) := by
  rcases dequeueFor_cases s p b q with ⟨rfl, hq, hd⟩ | ⟨rfl, hq, hd⟩ | ⟨_, _, rfl, hq, hd⟩ | ⟨_, _, rfl, hq, hd⟩ <;>
    simp [hq, hd]

theorem dequeueFor_rq {s : State} {p : PortIx} {b : BusId} {r : Request} {rest : List Request} (h : (s.bus b).rq = r :: rest) :
    dequeueFor s p b .rq = some (respond (s.setBus b { s.bus b with rq := rest }) p itemWord r.item) := by
  simp [dequeueFor, h]

theorem dequeueFor_rsp {s : State} {p : PortIx} {b : BusId} {e : Response} {rest : List Response}
    (h : (s.bus b).rsp = e :: rest) :
    dequeueFor s p b .rsp = some (respond (s.setBus b { s.bus b with rsp := rest }) p itemWord e.item) := by
  simp [dequeueFor, h]

/-- R88: the response word of a dequeue has ITEM alone. -/
theorem itemWord_eq : itemWord = 0x800 := rfl

/-- A step that writes one bus and answers one port: its frame, the bus and the port after it. -/
theorem onlyPortAndBus_of_eq_respond {o : Host.Outcome State Fault Refusal} {s : State} {p : PortIx} {b : BusId} {u : Bus} {w : Word}
    {bytes : List Byte} (h : o = .next (respond (s.setBus b u) p w bytes)) :
    ∃ t, o = .next t ∧ OnlyPortAndBus s t p b ∧ t.bus b = u ∧
      t.port p = { s.port p with pstate := .ready, resp := w, rdata := bytes } :=
  ⟨_, h, onlyPortAndBus_setPort_setBus .., by simp, by simp⟩

/-! ## The waits (R202, R204) -/

/-- R111, R202 (b), R204 (b): all that the timeout of a waiting port does. -/
theorem portTimeout_spec {s : State} {p : PortIx} {w : Wait} (hw : (s.port p).pstate = .waiting w) :
    ∃ t, runMove s (.portTimeout p) = .next t ∧ OnlyPort s t p ∧
      t.port p = { s.port p with pstate := .ready, resp := W w.kind.timeoutStatus 0 false, rdata := [] } :=
  ⟨_, runMove_portTimeout hw, onlyPort_setPort .., port_respond_same ..⟩

section Enqueue
variable {s : State} {p : PortIx} {b : BusId} {t0 : Word} {T : Timeout} (hw : (s.port p).pstate = .waiting ⟨.enqWait, b, t0, T⟩)
include hw

theorem moveEnabled_portEnqueue_iff (hf : s.fatal = false) (hp : p.val < s.cfg.nPort) :
    moveEnabled s (.portEnqueue p) = true ↔ (s.bus b).rq.length < s.cfg.rqDepth b := by
  rw [moveEnabled_running hf, ← rqHasRoom_iff]
  simp [enabledRunning, isClient, hp, portEnqueueEnabled, waitOf_eq_some_iff.2 hw]

theorem runMove_portEnqueue : runMove s (.portEnqueue p) = .next (enqueueFor s p b) := by
  simp [runMove, portEnqueue, waitOf_eq_some_iff.2 hw]

end Enqueue

/-- Settles O46: room alone enables the enqueue, which is `enqueueFor`; expiry alone enables the timeout. -/
theorem enqueueWaitSteps : Obligations.EnqueueWaitSteps := by
  intro s p b t0 T hf hp hw
  exact ⟨moveEnabled_portEnqueue_iff hw hf hp, ⟨_, runMove_portEnqueue hw, enqueueFor_spec s p b⟩,
    moveEnabled_portTimeout_iff hf hp hw, portTimeout_spec hw⟩

section Dequeue
variable {s : State} {p : PortIx} {b : BusId} {q : QSel} {t0 : Word} {T : Timeout}
  (hw : (s.port p).pstate = .waiting ⟨.deqWait q, b, t0, T⟩)
include hw

theorem portDequeue?_of_waiting : portDequeue? s p = dequeueFor s p b q := by
  simp [portDequeue?, waitOf_eq_some_iff.2 hw]

theorem moveEnabled_portDequeue_iff (hf : s.fatal = false) (hp : p.val < s.cfg.nPort) :
    moveEnabled s (.portDequeue p) = true ↔ (q = .rq ∧ (s.bus b).rq ≠ []) ∨ (q = .rsp ∧ (s.bus b).rsp ≠ []) := by
  rw [moveEnabled_running hf, ← dequeueFor_isSome_iff (p := p), ← portDequeue?_of_waiting hw]
  simp [enabledRunning, isClient, hp]

theorem runMove_portDequeue {t : State} (hd : dequeueFor s p b q = some t) : runMove s (.portDequeue p) = .next t := by
  simp [runMove, portDequeue?_of_waiting hw, hd]

end Dequeue

/-- Settles O47: an item in the selected FIFO alone enables the dequeue, which is `dequeueFor`; expiry alone enables the timeout. -/
theorem dequeueWaitSteps : Obligations.DequeueWaitSteps := by
  intro s p b q t0 T hf hp hw
  refine ⟨moveEnabled_portDequeue_iff hw hf hp, ?request, ?entry, moveEnabled_portTimeout_iff hf hp hw, portTimeout_spec hw⟩
  case request =>
    rintro r rest rfl hq
    exact itemWord_eq ▸ onlyPortAndBus_of_eq_respond (runMove_portDequeue hw (dequeueFor_rq hq))
  case entry =>
    rintro e rest rfl hq
    exact itemWord_eq ▸ onlyPortAndBus_of_eq_respond (runMove_portDequeue hw (dequeueFor_rsp hq))

/-! ## The consumer's take and push (R211, R215) -/

theorem consTakeEnabled_iff {u : Bus} : consTakeEnabled u = true ↔ u.consState = .cIdle ∧ u.rq ≠ [] := by
  simp [consTakeEnabled]

theorem consPushEnabled_iff {s : State} {b : BusId} :
    consPushEnabled s b = true ↔ (s.bus b).consState = .cPush ∧ (s.bus b).rsp.length < s.cfg.rspDepth b := by
  simp [consPushEnabled, rspHasRoom_iff]

/-- R20, R210: on a bus with a channel a move of its consumer is enabled as its rule's condition says. -/
theorem moveEnabled_consumer_iff {s : State} {b : BusId} {m : Move} {cond : Bool} {P : Prop} (hf : s.fatal = false)
    (hch : s.cfg.hasChannel b = true) (hm : enabledRunning s m = (s.cfg.hasChannel b && cond)) (hc : cond = true ↔ P) :
    moveEnabled s m = true ↔ P := by
  rw [moveEnabled_running hf, hm, hch, Bool.true_and, hc]

theorem consTake_of_cons {s : State} {b : BusId} {r : Request} {rest : List Request} (h : (s.bus b).rq = r :: rest) :
    consTake s b = s.setBus b { s.bus b with creq := r, rq := rest, consState := .cLock } := by
  simp [consTake, h]

/-- Settles O48: both steps write the consumer's own bus alone. -/
theorem consumerTakeAndPushSteps : Obligations.ConsumerTakeAndPushSteps := by
  intro s b hf hch
  refine ⟨moveEnabled_consumer_iff hf hch rfl consTakeEnabled_iff, fun r rest hq => ?_,
    moveEnabled_consumer_iff hf hch rfl consPushEnabled_iff, onlyBus_of_eq_setBus rfl⟩
  exact onlyBus_of_eq_setBus (congrArg Host.Outcome.next (consTake_of_cons hq))

end Sys2Proof.Machine
end

section
/-! PROOFS. Reset (spec/70_reset_and_hazards.md R270; the values are R37's). -/

namespace Sys2Proof.Machine

/-- R247, R270: reset is enabled in every state, fatal ones too. -/
theorem moveEnabled_reset (s : State) (busy : BitVec 16) : moveEnabled s (.reset busy) = true := rfl

theorem runMove_reset (s : State) (busy : BitVec 16) : runMove s (.reset busy) = .next (resetBlock s busy) := rfl

/-- Settles O13: reset steps to `resetBlock`, whose ports are each `Port.reset` and whose bus `b` is `Bus.reset` of bit `b` drawn. -/
theorem resetGivesTheStatedValues : Obligations.ResetGivesTheStatedValues := by
  intro s busy
  refine ⟨moveEnabled_reset s busy, _, runMove_reset s busy, fun p => ?port, rfl, rfl, rfl, rfl, rfl,
    cfg_resetBlock s busy, fun b => ?bus⟩
  case port => rw [port_resetBlock, Port.reset]
  case bus => simp [Bus.reset]

end Sys2Proof.Machine
end

section
/-! PROOFS. Decoding and encoding commands (spec/30_encoding.md R80..R93, spec/20_memory.md R63). -/

namespace Sys2Proof

/-! ## Words as rows of fields -/

/-- Two words agree on consecutive fields of the given widths, from bit `s` up. -/
def SameFields {w : Nat} (x y : BitVec w) : Nat → List Nat → Prop
  | _, [] => True
  | s, n :: ns => x.extractLsb' s n = y.extractLsb' s n ∧ SameFields x y (s + n) ns

theorem sameFields_iff {w : Nat} {x y : BitVec w} (ns : List Nat) :
    ∀ s, SameFields x y s ns ↔ ∀ i, s ≤ i → i < s + ns.sum → x.getLsbD i = y.getLsbD i := by
  induction ns with
  | nil => intro s; simp [SameFields]; omega
  | cons n ns ih =>
    intro s
    rw [SameFields, ih, List.sum_cons]
    constructor
    · rintro ⟨hfield, hrest⟩ i hlo hhi
      by_cases hi : i < s + n
      · have hbit := congrArg (·.getLsbD (i - s)) hfield
        have hs : s + (i - s) = i := by omega
        have hn : i - s < n := by omega
        simpa [BitVec.getLsbD_extractLsb', hs, hn] using hbit
      · exact hrest i (by omega) (by omega)
    · intro hall
      refine ⟨BitVec.eq_of_getLsbD_eq fun i hi => ?_, fun i hlo hhi => hall i (by omega) (by omega)⟩
      simp [hi, hall (s + i) (by omega) (by omega)]

/-- A word is the row of its fields. -/
theorem word_eq_iff_sameFields {x y : Word} (ns : List Nat) (hw : ns.sum = 32) : x = y ↔ SameFields x y 0 ns := by
  rw [sameFields_iff, hw]
  exact ⟨fun h i _ _ => h ▸ rfl, fun h => BitVec.eq_of_getLsbD_eq fun i hi => h i (by omega) (by omega)⟩

theorem extract_one {w : Nat} (x : BitVec w) (i : Nat) : x.extractLsb' i 1 = BitVec.ofBool (x.getLsbD i) := by
  apply BitVec.eq_of_getLsbD_eq
  intro k hk
  obtain rfl : k = 0 := by omega
  simp

theorem extract_one_eq_zero_iff {w : Nat} {x : BitVec w} {i : Nat} : x.extractLsb' i 1 = 0#1 ↔ x.getLsbD i = false := by
  rw [extract_one]
  cases x.getLsbD i <;> decide

/-- The mask of a whole field keeps the field. -/
theorem and_eq_left_of_allOnes {n : Nat} {x m : BitVec n} (h : m = BitVec.allOnes n) : x &&& m = x := by
  rw [h, BitVec.and_allOnes]

theorem rowOf_isSome_iff {h : Word} : (rowOf h).isSome = true ↔ ∃ r ∈ opcodeTable, r.fits h = true :=
  List.find?_isSome

/-- R93: a word meets a row exactly when the fields its mask keeps are the pattern's, field by field. -/
theorem fits_iff_sameFields {r : OpcodeRow} {h : Word} (ns : List Nat) (hw : ns.sum = 32) :
    r.fits h = true ↔ SameFields (h &&& r.mask) r.pattern 0 ns := by
  rw [OpcodeRow.fits_iff, word_eq_iff_sameFields ns hw]

/-! ## Formats: the header of a command as a row of fields (R82) -/

/-- `h` has the given fields one after another, from bit `s` up. -/
def HasFields (h : Word) : Nat → List (Σ n, BitVec n) → Prop
  | _, [] => True
  | s, ⟨n, v⟩ :: fs => h.extractLsb' s n = v ∧ HasFields h (s + n) fs

theorem sameFields_of_hasFields {x y : Word} (fs : List (Σ n, BitVec n)) :
    ∀ s, HasFields x s fs → HasFields y s fs → SameFields x y s (fs.map (·.1)) := by
  induction fs with
  | nil => intros; trivial
  | cons f fs ih => exact fun s hx hy => ⟨hx.1.trans hy.1.symm, ih _ hx.2 hy.2⟩

/-- R82: the fields of a command's header, least significant first. -/
def formatOf : Instr → List (Σ n, BitVec n)
  | .lockAcquire b t => [⟨16, t⟩, ⟨4, 0⟩, ⟨4, b⟩, ⟨8, 0x01⟩]
  | .lockRelease b => [⟨20, 0⟩, ⟨4, b⟩, ⟨8, 0x02⟩]
  | .i2cWrite b a len => [⟨6, len⟩, ⟨2, 0⟩, ⟨7, a⟩, ⟨1, 0⟩, ⟨4, 0⟩, ⟨4, b⟩, ⟨8, 0x10⟩]
  | .i2cRead b dest a len => [⟨6, len⟩, ⟨2, 0⟩, ⟨7, a⟩, ⟨1, 0⟩, ⟨1, dest.bit⟩, ⟨3, 0⟩, ⟨4, b⟩, ⟨8, 0x11⟩]
  | .spiSelect b sl => [⟨16, 0⟩, ⟨4, sl⟩, ⟨4, b⟩, ⟨8, 0x20⟩]
  | .spiDeselect b sl => [⟨16, 0⟩, ⟨4, sl⟩, ⟨4, b⟩, ⟨8, 0x21⟩]
  | .spiXferByte b tx => [⟨8, tx⟩, ⟨8, 0⟩, ⟨4, 0⟩, ⟨4, b⟩, ⟨8, 0x22⟩]
  | .spiXferBuf b len => [⟨6, len⟩, ⟨10, 0⟩, ⟨4, 0⟩, ⟨4, b⟩, ⟨8, 0x23⟩]
  | .chEnqReq b t _ => [⟨16, t⟩, ⟨4, 0⟩, ⟨4, b⟩, ⟨8, 0x30⟩]
  | .chDeq b q t => [⟨16, t⟩, ⟨1, q.bit⟩, ⟨3, 0⟩, ⟨4, b⟩, ⟨8, 0x31⟩]

theorem encodeHeader_hasFields (i : Instr) : HasFields (encodeHeader i) 0 (formatOf i) := by
  cases i <;> simp only [formatOf, HasFields, Nat.reduceAdd] <;>
    simp (disch := decide) only [encodeHeader, BitVec.extractLsb'_append_eq_of_le, BitVec.extractLsb'_append_eq_of_add_le,
      BitVec.extractLsb'_eq_self, Nat.reduceSub] <;> simp

/-- A header word is determined by its format. -/
theorem eq_encodeHeader_of_hasFields {h : Word} {i : Instr} (hf : HasFields h 0 (formatOf i)) : h = encodeHeader i := by
  have hsum : ((formatOf i).map (·.1)).sum = 32 := by cases i <;> rfl
  exact (word_eq_iff_sameFields _ hsum).2 (sameFields_of_hasFields _ 0 hf (encodeHeader_hasFields i))

theorem destField_bit (h : Word) : (destField h).bit = h.extractLsb' 16 1 := by
  rw [extract_one, destField]
  cases h.getLsbD 16 <;> rfl

theorem qselField_bit (h : Word) : (qselField h).bit = h.extractLsb' 16 1 := by
  rw [extract_one, qselField]
  cases h.getLsbD 16 <;> rfl

/-- R93: a word meets a row exactly when it has the format of the command the row builds from it: the mask of each row keeps the
opcode and the reserved fields of its format. -/
theorem fits_iff_hasFields (h d : Word) : ∀ r ∈ opcodeTable, r.fits h = true ↔ HasFields h 0 (formatOf (r.build h d)) := by
  simp only [opcodeTable, lockRows, i2cRows, spiRows, channelRows, List.cons_append, List.nil_append, List.forall_mem_cons,
    List.not_mem_nil, false_implies, implies_true, and_true]
  refine ⟨?acquire, ?release, ?write, ?read, ?select, ?deselect, ?byte, ?buf, ?enqueue, ?dequeue⟩
  case acquire | enqueue =>
    rw [fits_iff_sameFields [16, 4, 4, 8] rfl]
    simp [SameFields, BitVec.extractLsb'_and, and_eq_left_of_allOnes, HasFields, formatOf, timeoutField, busField]
  case release =>
    rw [fits_iff_sameFields [20, 4, 8] rfl]
    simp [SameFields, BitVec.extractLsb'_and, and_eq_left_of_allOnes, HasFields, formatOf, busField]
  case write =>
    rw [fits_iff_sameFields [6, 2, 7, 1, 4, 4, 8] rfl]
    simp [SameFields, BitVec.extractLsb'_and, and_eq_left_of_allOnes, HasFields, formatOf, lenField, addrField, busField]
  case read =>
    rw [fits_iff_sameFields [6, 2, 7, 1, 1, 3, 4, 8] rfl]
    simp [SameFields, BitVec.extractLsb'_and, and_eq_left_of_allOnes, HasFields, formatOf, lenField, addrField, destField_bit, busField]
  case select | deselect =>
    rw [fits_iff_sameFields [16, 4, 4, 8] rfl]
    simp [SameFields, BitVec.extractLsb'_and, and_eq_left_of_allOnes, HasFields, formatOf, slaveField, busField]
  case byte =>
    rw [fits_iff_sameFields [8, 8, 4, 4, 8] rfl]
    simp [SameFields, BitVec.extractLsb'_and, and_eq_left_of_allOnes, HasFields, formatOf, txField, busField]
  case buf =>
    rw [fits_iff_sameFields [6, 10, 4, 4, 8] rfl]
    simp [SameFields, BitVec.extractLsb'_and, and_eq_left_of_allOnes, HasFields, formatOf, lenField, busField]
  case dequeue =>
    rw [fits_iff_sameFields [16, 1, 3, 4, 8] rfl]
    simp [SameFields, BitVec.extractLsb'_and, and_eq_left_of_allOnes, HasFields, formatOf, timeoutField, qselField_bit, busField]

theorem Dest.bit_inj {x y : Dest} : x.bit = y.bit ↔ x = y := by cases x <;> cases y <;> decide

theorem QSel.bit_inj {x y : QSel} : x.bit = y.bit ↔ x = y := by cases x <;> cases y <;> decide

theorem destField_eq_iff {h : Word} {dest : Dest} : destField h = dest ↔ h.extractLsb' 16 1 = dest.bit := by
  rw [← destField_bit, Dest.bit_inj]

theorem qselField_eq_iff {h : Word} {q : QSel} : qselField h = q ↔ h.extractLsb' 16 1 = q.bit := by
  rw [← qselField_bit, QSel.bit_inj]

/-- Settles O5: a row is found exactly when the word has the format of the row's command, whose operand fields hold any value. -/
theorem headerLegalByItsFields : Obligations.HeaderLegalByItsFields := by
  intro h
  have hrow : (rowOf h).isSome = true ↔ ∃ r ∈ opcodeTable, HasFields h 0 (formatOf (r.build h 0)) :=
    rowOf_isSome_iff.trans (exists_congr fun r => and_congr_right fun hr => fits_iff_hasFields h 0 r hr)
  rw [hrow]
  simp only [opcodeTable, lockRows, i2cRows, spiRows, channelRows, List.cons_append, List.nil_append, List.exists_mem_cons_iff,
    List.not_mem_nil, false_and, exists_false, or_false, Machine.HeaderLegal, formatOf, HasFields, Nat.reduceAdd, busField,
    timeoutField, lenField, addrField, slaveField, txField, destField_bit, qselField_bit, true_and, and_true]
  refine or_congr ?acquire (or_congr ?release (or_congr ?write (or_congr ?read (or_congr ?select (or_congr ?deselect
    (or_congr ?byte (or_congr ?buf (or_congr ?enqueue ?dequeue))))))))
  case write | read => rw [← extract_one_eq_zero_iff]; tauto
  all_goals tauto

/-- The row of a command, with its descriptor, from a header of the command's format. -/
theorem exists_row_of_hasFields {h : Word} {i : Instr} (hf : HasFields h 0 (formatOf i)) :
    ∃ r ∈ opcodeTable, r.build h ((encodeDescriptor i).headD 0) = i ∧
      ∀ bs, takeDescriptor r ((encodeDescriptor i).flatMap leBytes ++ bs) = some ((encodeDescriptor i).headD 0, bs) := by
  cases i <;> simp only [HasFields, formatOf, Nat.reduceAdd] at hf <;>
    simp [opcodeTable, lockRows, i2cRows, spiRows, channelRows, encodeDescriptor, takeDescriptor, takeWord_leBytes, busField,
      lenField, addrField, slaveField, txField, timeoutField, destField_eq_iff, qselField_eq_iff, hf]

theorem takePayload_append {c : Config} {h : Word} {i : Instr} {payload : List Byte} (rest : List Byte)
    (hl : payload.length = payloadLen c i) : takePayload c h i (payload ++ rest) = .ok ⟨i, h, payload, rest⟩ := by
  simp [takePayload, ← hl]

/-! ## Decoding an encoded command, and encoding a decoded one (R63, R80) -/

/-- Settles O2: the encoded header has the command's format, so the decoder finds the command's row, whose build reads the operands
back. -/
theorem encodedCommandDecodes : Obligations.EncodedCommandDecodes := by
  intro c i payload rest _ hl
  have hfields := encodeHeader_hasFields i
  obtain ⟨r, hr, hbuild, hdesc⟩ := exists_row_of_hasFields hfields
  have hrow : rowOf (encodeHeader i) = some r :=
    rowOf_eq_some_iff.2 ⟨hr, (fits_iff_hasFields _ _ r hr).2 (by rwa [hbuild])⟩
  have hbytes : encodeBytes i payload ++ rest =
      leBytes (encodeHeader i) ++ ((encodeDescriptor i).flatMap leBytes ++ (payload ++ rest)) := by
    simp [encodeBytes, encode]
  simp only [decode, hbytes, takeWord_leBytes, hrow, hdesc, hbuild, takePayload_append rest hl]

theorem eq_of_takeWord {bs after : List Byte} {w : Word} (h : takeWord bs = some (w, after)) : bs = leBytes w ++ after := by
  unfold takeWord at h
  split at h
  case h_1 =>
    cases h
    simp (disch := decide) only [leBytes, BitVec.extractLsb'_append_eq_of_le, BitVec.extractLsb'_append_eq_of_add_le,
      BitVec.extractLsb'_eq_self, Nat.reduceSub, List.cons_append, List.nil_append]
  case h_2 => cases h

theorem eq_of_takePayload {c : Config} {h : Word} {i : Instr} {bs : List Byte} {d : Decoded} (hd : takePayload c h i bs = .ok d) :
    d.instr = i ∧ d.header = h ∧ bs = d.payload ++ d.rest ∧ d.payload.length = payloadLen c i := by
  unfold takePayload at hd
  split at hd
  case isTrue => cases hd
  case isFalse hle =>
    cases hd
    exact ⟨rfl, rfl, (List.take_append_drop _ _).symm, List.length_take_of_le (Nat.le_of_not_lt hle)⟩

/-- The bytes a row takes as its descriptor are the descriptor of the command it builds. -/
theorem eq_of_takeDescriptor {h d : Word} {bs after : List Byte} :
    ∀ r ∈ opcodeTable, takeDescriptor r bs = some (d, after) →
      bs = (encodeDescriptor (r.build h d)).flatMap leBytes ++ after := by
  simp [opcodeTable, lockRows, i2cRows, spiRows, channelRows, encodeDescriptor, takeDescriptor]
  exact eq_of_takeWord

/-- All that decoding to a command says of the bytes. -/
theorem decode_ok {c : Config} {bytes : List Byte} {d : Decoded} (hd : decode c bytes = .ok d) :
    ∃ r desc afterHeader, takeWord bytes = some (d.header, afterHeader) ∧ rowOf d.header = some r ∧
      takeDescriptor r afterHeader = some (desc, d.payload ++ d.rest) ∧ d.instr = r.build d.header desc ∧
      d.payload.length = payloadLen c d.instr := by
  unfold decode at hd
  split at hd
  case h_1 => cases hd
  case h_2 hword =>
    split at hd
    case h_1 => cases hd
    case h_2 hrow =>
      split at hd
      case h_1 => cases hd
      case h_2 hdesc =>
        obtain ⟨hinstr, rfl, hbytes, hlen⟩ := eq_of_takePayload hd
        exact ⟨_, _, _, hword, hrow, hbytes ▸ hdesc, hinstr, hinstr ▸ hlen⟩

/-- Settles O3: the header has the format of the command its row builds, which determines the word. -/
theorem decodedCommandReencodes : Obligations.DecodedCommandReencodes := by
  intro c bytes d hd
  obtain ⟨r, desc, afterHeader, hword, hrow, hdesc, hinstr, hlen⟩ := decode_ok hd
  obtain ⟨hr, hfits⟩ := rowOf_eq_some_iff.1 hrow
  have hheader : d.header = encodeHeader d.instr :=
    hinstr ▸ eq_encodeHeader_of_hasFields ((fits_iff_hasFields _ desc r hr).1 hfits)
  refine ⟨?_, hheader, hlen⟩
  calc bytes = leBytes d.header ++ afterHeader := eq_of_takeWord hword
    _ = leBytes d.header ++ ((encodeDescriptor d.instr).flatMap leBytes ++ (d.payload ++ d.rest)) := by
        rw [eq_of_takeDescriptor r hr hdesc, hinstr]
    _ = encodeBytes d.instr d.payload ++ d.rest := by simp [encodeBytes, encode, ← hheader]

/-- Settles O6: the row of a command is known by its opcode, and each row reads the length from its own field. -/
theorem payloadLengthOfAHeader : Obligations.PayloadLengthOfAHeader := by
  intro c h d i hi
  obtain ⟨r, hrow, rfl⟩ := Option.map_eq_some_iff.1 hi
  obtain ⟨hr, hfits⟩ := rowOf_eq_some_iff.1 hrow
  rw [← pattern_opcode_of_fits hr hfits]
  clear hi hrow hfits
  revert r
  simp [opcodeTable, lockRows, i2cRows, spiRows, channelRows, payloadLen, descriptorLen, lenField, descriptorIsRead, busField]

/-- Settles O1: the words are computed. -/
theorem specWordsDecode : Obligations.SpecWordsDecode := by
  unfold Obligations.SpecWordsDecode
  decide

/-- Settles O9: the lines are computed. -/
theorem specLinesAssemble : Obligations.SpecLinesAssemble := by
  unfold Obligations.SpecLinesAssemble
  decide

end Sys2Proof

namespace Sys2Proof.Machine

/-! ## The descriptor of a request (R87, R89) -/

theorem Request.descriptor_hasFields (r : Request) :
    HasFields r.descriptor 0 [⟨6, r.len⟩, ⟨2, 0⟩, ⟨7, r.target⟩, ⟨1, r.dir.bit⟩, ⟨16, 0⟩] := by
  simp only [HasFields, Nat.reduceAdd]
  simp (disch := decide) only [Request.descriptor, BitVec.extractLsb'_append_eq_of_le, BitVec.extractLsb'_append_eq_of_add_le,
    BitVec.extractLsb'_eq_self, Nat.reduceSub]
  simp

theorem descriptorDir_bit (d : Word) : (descriptorDir d).bit = d.extractLsb' 15 1 := by
  rw [extract_one, descriptorDir, descriptorIsRead]
  cases d.getLsbD 15 <;> rfl

/-- R87: where `D[14:12]` is reserved and zero, the slave id fills the address field. -/
theorem descriptorTarget_eq {c : Config} {b : BusId} {d : Word} (h : c.isFourWire b = true → d.extractLsb' 12 3 = 0) :
    descriptorTarget c b d = d.extractLsb' 8 7 := by
  unfold descriptorTarget
  cases hk : c.isFourWire b
  case false => rfl
  case true =>
    have hsplit : d.extractLsb' 12 3 ++ d.extractLsb' 8 4 = d.extractLsb' 8 7 :=
      BitVec.extractLsb'_append_extractLsb'_eq_extractLsb' rfl
    rw [← hsplit, h hk]
    exact BitVec.setWidth_eq_append (by decide : 4 ≤ 7)

/-- Settles O7: the request's fields are the descriptor's, field by field. -/
theorem dequeuedDescriptorIsTheEnqueuedOne : Obligations.DequeuedDescriptorIsTheEnqueuedOne := by
  intro c b t d payload hr
  obtain ⟨⟨h16, h6⟩, h12⟩ : (d.extractLsb' 16 16 = 0 ∧ d.extractLsb' 6 2 = 0) ∧
      (c.isFourWire b = false ∨ d.extractLsb' 12 3 = 0) := by simpa [reservedOk] using hr
  have htarget : descriptorTarget c b d = d.extractLsb' 8 7 :=
    descriptorTarget_eq fun hk => h12.resolve_left (by simp [hk])
  rw [word_eq_iff_sameFields [6, 2, 7, 1, 16] rfl]
  exact sameFields_of_hasFields _ 0 (Request.descriptor_hasFields _)
    ⟨rfl, h6, htarget.symm, (descriptorDir_bit d).symm, h16, trivial⟩

end Sys2Proof.Machine
end

section
/-! PROOFS. What an engine or the environment does to its bus while a job runs, and what of the bus's invariant it keeps
(spec/10_state.md R38). -/

namespace Sys2Proof.Machine

/-! ## The bus's invariant between steps and within one -/

/-- Every invariant of one bus but that of the byte in flight, which fails between the count of a job's last byte and the job's end. -/
structure Settled (c : Config) (b : BusId) (u : Bus) : Prop where
  ownerRuns : OwnerRuns b u
  selectInLock : SelectInLock u
  idleFlags : IdleFlagsClear u
  queues : QueuesFit c b u
  counts : CountsFit u
  kind : EngineOfKind c b u
  requests : RequestsOk c b u
  owner : OwnerLegal c b u

theorem BusInv.settled {c : Config} {b : BusId} {u : Bus} (h : BusInv c b u) : Settled c b u := { h with }

theorem Settled.busInv {c : Config} {b : BusId} {u : Bus} (h : Settled c b u) (hb : ByteInFlight u) : BusInv c b u :=
  { h with bytes := hb }

/-- What the engine and the environment leave of a bus while the job goes on: the lock, the job's port, length and direction, which
engine is active, the request FIFO and the consumer; no line goes up, and the trace only grows. -/
structure JobGoesOn (u u' : Bus) : Prop where
  lockOwner : u'.lockOwner = u.lockOwner
  port : u'.job.port = u.job.port
  len : u'.job.len = u.job.len
  dir : u'.job.dir = u.job.dir
  i2cIdle : u'.i2cState = .idle ↔ u.i2cState = .idle
  spiIdle : u'.spiState = .idle ↔ u.spiState = .idle
  cs : u'.cs = u.cs ∨ u'.cs = 0
  rq : u'.rq = u.rq
  consState : u'.consState = u.consState
  creq : u'.creq = u.creq
  trace : u.trace <+: u'.trace

theorem JobGoesOn.active_iff {u u' : Bus} (h : JobGoesOn u u') : u'.active ↔ u.active := by
  simp only [Bus.active, ne_eq, h.i2cIdle, h.spiIdle]

/-- What is left to show of a bus whose job goes on. -/
theorem JobGoesOn.settled {c : Config} {b : BusId} {u u' : Bus} (hg : JobGoesOn u u') (h : Settled c b u)
    (hflags : IdleFlagsClear u') (hidx : u'.job.idx ≤ u'.job.len) (hrsp : u'.rsp.length ≤ c.rspDepth b) : Settled c b u' where
  ownerRuns ha := by
    rw [hg.lockOwner, hg.port, hg.consState]
    exact h.ownerRuns (hg.active_iff.1 ha)
  selectInLock := by
    rw [SelectInLock, hg.lockOwner]
    rcases hg.cs with hcs | hcs <;> rw [hcs]
    · exact h.selectInLock
    · exact ⟨.inl rfl, fun hne => absurd rfl hne⟩
  idleFlags := hflags
  queues := ⟨hg.rq ▸ h.queues.1, hrsp⟩
  counts := ⟨hidx, hg.len ▸ h.counts.2⟩
  kind := by
    refine ⟨fun hk => hg.i2cIdle.2 (h.kind.1 hk), fun hk => ⟨hg.spiIdle.2 (h.kind.2 hk).1, ?_⟩⟩
    rcases hg.cs with hcs | hcs
    · exact hcs.trans (h.kind.2 hk).2
    · exact hcs
  requests := by
    rw [RequestsOk, hg.rq, hg.consState, hg.creq]
    exact h.requests
  owner := by
    rw [OwnerLegal, hg.lockOwner, hg.consState, hg.port, hg.active_iff]
    exact h.owner

/-- On a bus whose two-wire engine is active the four-wire engine is idle, and no line is asserted. -/
theorem Settled.spi_idle {c : Config} {b : BusId} {u : Bus} (h : Settled c b u) (hk : c.isTwoWire b = true) :
    u.spiState = .idle ∧ u.cs = 0 := h.kind.2 (Config.fourWire_of_twoWire hk)

theorem Settled.i2c_idle {c : Config} {b : BusId} {u : Bus} (h : Settled c b u) (hk : c.isFourWire b = true) :
    u.i2cState = .idle := h.kind.1 (Config.twoWire_of_fourWire hk)

/-! ## A step of the engine or the environment -/

/-- The job goes on from `u` to `u'`, and the bus's invariant is kept. -/
structure Works (c : Config) (b : BusId) (u u' : Bus) : Prop where
  goesOn : JobGoesOn u u'
  inv : BusInv c b u → BusInv c b u'

/-- A job runs at `u`, and it goes on to `u'`, where it is about to end: all but the invariant of the byte in flight is kept. -/
structure Ending (c : Config) (b : BusId) (u u' : Bus) : Prop where
  active : u.active
  goesOn : JobGoesOn u u'
  settled : BusInv c b u → Settled c b u'

theorem Works.ending {c : Config} {b : BusId} {u u' : Bus} (h : Works c b u u') (ha : u.active) : Ending c b u u' :=
  ⟨ha, h.goesOn, fun hu => (h.inv hu).settled⟩

theorem Ending.works {c : Config} {b : BusId} {u u' : Bus} (h : Ending c b u u') (hb : BusInv c b u → ByteInFlight u') :
    Works c b u u' := ⟨h.goesOn, fun hu => (h.settled hu).busInv (hb hu)⟩

section Bus
variable {c : Config} {b : BusId} {u : Bus}

theorem JobGoesOn.rfl : JobGoesOn u u := by constructor <;> simp

theorem idleFlags_of_i2c_active (h : BusInv c b u) {u' : Bus} (ha : u'.i2cState ≠ .idle)
    (hs : u'.spiState = u.spiState) (hr : u'.srxne = u.srxne) : IdleFlagsClear u' :=
  ⟨fun hi => absurd hi ha, fun hi => hr.trans (h.idleFlags.2 (hs.symm.trans hi))⟩

theorem works_busy (x : Bool) : Works c b u { u with busy := x } where
  goesOn := { JobGoesOn.rfl with }
  inv h := { h with }

/-- The event flags are free while the two-wire engine is active. -/
theorem works_i2cFlags (ha : u.i2cState ≠ .idle) (sb addr af btf rxne : Bool) (dr : Byte) :
    Works c b u { u with sb := sb, addr := addr, af := af, btf := btf, rxne := rxne, dr := dr } where
  goesOn := { JobGoesOn.rfl with }
  inv h := { h with idleFlags := idleFlags_of_i2c_active h ha rfl rfl }

/-- `SRXNE` is free while the four-wire engine is active. -/
theorem works_srxne (ha : u.spiState ≠ .idle) (x : Bool) (v : Byte) : Works c b u { u with srxne := x, sdr := v } where
  goesOn := { JobGoesOn.rfl with }
  inv h := { h with idleFlags := ⟨h.idleFlags.1, fun hi => absurd hi ha⟩ }

/-- The two-wire engine goes from one wait to the next (R140, R141, R142). -/
theorem works_enter (hk : c.isTwoWire b = true) (ha : u.i2cState ≠ .idle) {st : I2cState} (hst : st ≠ .idle)
    (sb addr ackEn : Bool) {tr : List WireEvent} (htr : u.trace <+: tr) (tick : Word)
    (hzero : BusInv c b u → st ≠ .transferActive → u.job.idx = 0)
    (hbyte : BusInv c b u → st = .transferActive → u.job.idx < u.job.len) :
    Works c b u ({ u with sb := sb, addr := addr, ackEn := ackEn, trace := tr }.enter st tick) where
  goesOn := { JobGoesOn.rfl with i2cIdle := by simp [Bus.enter, ha, hst], trace := htr }
  inv h :=
    { ownerRuns := fun _ => h.ownerRuns (.inl ha)
      selectInLock := h.selectInLock
      idleFlags := idleFlags_of_i2c_active h hst rfl rfl
      queues := h.queues
      counts := h.counts
      kind := ⟨fun hn => absurd (hn.symm.trans hk) (by decide), h.kind.2⟩
      bytes := by
        refine ⟨fun hw => hzero h ?_, fun hw => hbyte h ?_, fun _ => h.bytes.2.2 ha⟩
        · rintro rfl; simp [Bus.enter] at hw
        · exact hw.resolve_right (by simp [Bus.enter, (h.settled.spi_idle hk).1])
      requests := h.requests
      owner := ⟨h.owner.1, h.owner.2.1, fun hc => ⟨.inl hst, (h.owner.2.2 hc).2⟩⟩ }

/-- A byte of a two-wire job is counted (R145, R146). -/
theorem ending_countI2c (ha : u.i2cState = .transferActive) (btf rxne ackEn : Bool) (m : Vector Byte 63)
    {tr : List WireEvent} (htr : u.trace <+: tr) {rsp : List Response} (hrsp : BusInv c b u → rsp.length ≤ c.rspDepth b) (t0 : Word) :
    Ending c b u { u with
      btf := btf, rxne := rxne, ackEn := ackEn, jobBuf := m, trace := tr, rsp := rsp,
      job := { u.job with idx := u.job.idx + 1, t0 := t0 } } where
  active := .inl (by simp [ha])
  goesOn := { JobGoesOn.rfl with trace := htr }
  settled h :=
    { h.settled with
      idleFlags := idleFlags_of_i2c_active h (by simp [ha]) rfl rfl
      queues := ⟨h.queues.1, hrsp h⟩
      counts := ⟨h.bytes.2.1 (.inl ha), h.counts.2⟩ }

/-- An exchange is counted (R180). -/
theorem ending_countSpi (ha : u.spiState = .transferring) (m : Vector Byte 63)
    {tr : List WireEvent} (htr : u.trace <+: tr) (t0 : Word) :
    Ending c b u { u with
      srxne := false, jobBuf := m, trace := tr, job := { u.job with idx := u.job.idx + 1, t0 := t0 } } where
  active := .inr (by simp [ha])
  goesOn := { JobGoesOn.rfl with trace := htr }
  settled h :=
    { h.settled with
      idleFlags := ⟨h.idleFlags.1, fun _ => rfl⟩
      counts := ⟨h.bytes.2.1 (.inr ha), h.counts.2⟩ }

/-- In the data phase a byte in flight is all the invariant of the bytes asks. -/
theorem byteInFlight_of_lt (hst : u.i2cState = .transferActive ∨ u.i2cState = .idle) (hlt : u.job.idx < u.job.len) :
    ByteInFlight u :=
  ⟨fun hw => by rcases hst with h | h <;> simp [h] at hw, fun _ => hlt, fun _ _ => Nat.lt_of_le_of_lt (Nat.zero_le _) hlt⟩

/-- Before the last byte the next one follows. -/
theorem next_lt (h : BusInv c b u) (ha : u.i2cState = .transferActive ∨ u.spiState = .transferring)
    (hne : u.job.idx + 1 ≠ u.job.len) : u.job.idx + 1 < u.job.len :=
  lt_of_le_of_ne (h.bytes.2.1 ha) hne

end Bus

/-! ## A step that writes one bus -/

/-- A step of the engine, the environment or the consumer of `b` that leaves every port: a client's lock and job stay, the trace only
grows, and the bus's invariant is kept. -/
structure BusStep (c : Config) (b : BusId) (u u' : Bus) : Prop where
  clientLock : ∀ p, u.lockOwner = some (.client p) → u'.lockOwner = some (.client p)
  trace : u.trace <+: u'.trace
  runs : BusInv c b u → ∀ p, RunsFor u' p ↔ RunsFor u p
  inv : BusInv c b u → BusInv c b u'

theorem JobGoesOn.runsFor_iff {u u' : Bus} (h : JobGoesOn u u') (p : PortIx) : RunsFor u' p ↔ RunsFor u p := by
  rw [RunsFor, RunsFor, h.active_iff, h.port]

theorem Works.busStep {c : Config} {b : BusId} {u u' : Bus} (h : Works c b u u') : BusStep c b u u' where
  clientLock _ hl := h.goesOn.lockOwner.trans hl
  trace := h.goesOn.trace
  runs _ := h.goesOn.runsFor_iff
  inv := h.inv

/-! ## The consumer's steps (R211, R213, R215) -/

section Consumer
variable {c : Config} {b : BusId} {u : Bus}

/-- Outside CRun the consumer has no lock, and no job of its own runs. -/
theorem BusInv.consumer_out {b' : BusId} (h : BusInv c b u) (hc : u.consState ≠ .cRun) : u.lockOwner ≠ some (.consumer b') :=
  fun hl => hc (h.owner.2.1 b' hl).2

theorem busStep_consTake {r : Request} {rest : List Request} (hc : u.consState = .cIdle) (hq : u.rq = r :: rest) :
    BusStep c b u { u with creq := r, rq := rest, consState := .cLock } where
  clientLock _ h := h
  trace := List.prefix_rfl
  runs _ _ := Iff.rfl
  inv h :=
    have hlen : u.rq.length = rest.length + 1 := by rw [hq]; rfl
    { h with
      ownerRuns := fun ha => ⟨(h.ownerRuns ha).1, fun b' hp => absurd ((h.ownerRuns ha).2 b' hp).2 (by simp [hc])⟩
      queues := ⟨by have := h.queues.1; simp only [hlen] at this ⊢; omega, h.queues.2⟩
      requests := ⟨fun x hx => h.requests.1 x (hq ▸ List.mem_cons_of_mem _ hx), fun _ => h.requests.1 r (hq ▸ List.mem_cons_self)⟩
      owner := ⟨h.owner.1, fun b' hl => absurd hl (h.consumer_out (by simp [hc])), by simp⟩ }

theorem busStep_consPush (hc : u.consState = .cPush) (hroom : u.rsp.length < c.rspDepth b) :
    BusStep c b u { u with rsp := u.rsp ++ [u.cres], consState := .cIdle } where
  clientLock _ h := h
  trace := List.prefix_rfl
  runs _ _ := Iff.rfl
  inv h :=
    { h with
      ownerRuns := fun ha => ⟨(h.ownerRuns ha).1, fun b' hp => absurd ((h.ownerRuns ha).2 b' hp).2 (by simp [hc])⟩
      queues := ⟨h.queues.1, by simpa using hroom⟩
      requests := ⟨h.requests.1, by simp⟩
      owner := ⟨h.owner.1, fun b' hl => absurd hl (h.consumer_out (by simp [hc])), by simp⟩ }

/-- With the lock free no engine runs, and no line is asserted. -/
theorem BusInv.free (h : BusInv c b u) (hl : u.lockOwner = none) : u.i2cState = .idle ∧ u.spiState = .idle ∧ u.cs = 0 := by
  have hact : ¬ u.active := fun ha => by simp [(h.ownerRuns ha).1] at hl
  simp only [Bus.active, ne_eq, not_or, not_not] at hact
  exact ⟨hact.1, hact.2, by_contra fun hcs => h.selectInLock.2 hcs hl⟩

/-! ## Taking the lock and starting a job (R130, R131, R172, R173, R212) -/

/-- Who may own the lock of `b` with the consumer at `st`: a client port while the consumer is not in CRun, or the consumer in CRun. -/
def MayOwn (c : Config) (b : BusId) (u : Bus) (st : ConsState) : PortId → Prop
  | .client p => p.val < c.nPort ∧ u.consState = st ∧ st ≠ .cRun
  | .consumer b' => b' = b ∧ u.consState = .cLock ∧ st = .cRun

theorem MayOwn.ownerRuns {st : ConsState} {p : PortId} (hp : MayOwn c b u st p) {u' : Bus} (hl : u'.lockOwner = some p)
    (hj : u'.job.port = p) (hst : u'.consState = st) : OwnerRuns b u' := by
  intro _
  refine ⟨hl.trans (congrArg some hj.symm), fun b' hb' => ?_⟩
  obtain rfl : p = .consumer b' := hj.symm.trans hb'
  exact ⟨hp.1, hst.trans hp.2.2⟩

theorem MayOwn.ownerLegal {st : ConsState} {p : PortId} (hp : MayOwn c b u st p) {u' : Bus} (hl : u'.lockOwner = some p)
    (hst : u'.consState = st) (hrun : st = .cRun → u'.active ∧ u'.job.port = p) : OwnerLegal c b u' := by
  rw [OwnerLegal, hl, hst]
  cases p with
  | client q =>
    refine ⟨fun q' hq => ?_, fun b' hb' => by simp at hb', fun hc => absurd hc hp.2.2⟩
    cases hq; exact hp.1
  | consumer b' =>
    obtain ⟨rfl, -, rfl⟩ := hp
    refine ⟨fun q hq => by simp at hq, fun b'' hb => ?_, fun _ => hrun rfl⟩
    cases hb; exact ⟨rfl, rfl⟩

theorem MayOwn.requests {st : ConsState} {p : PortId} (hp : MayOwn c b u st p) (h : RequestsOk c b u) {u' : Bus}
    (hq : u'.rq = u.rq) (hr : u'.creq = u.creq) (hst : u'.consState = st) : RequestsOk c b u' := by
  rw [RequestsOk, hq, hr, hst]
  refine ⟨h.1, fun hs => h.2 ?_⟩
  cases p with
  | client q => rwa [hp.2.1]
  | consumer b' => exact .inl hp.2.1

theorem busInv_startI2c (h : BusInv c b u) (hrest : u.i2cState = .idle ∧ u.spiState = .idle) (hk : c.isTwoWire b = true) {p : PortId}
    {o : Option PortId} (ho : o = some p) {st : ConsState} (hp : MayOwn c b u st p) {dir : Dir} {len : Nat} (hlen : len ≤ 63)
    (hread : dir = .read → 1 ≤ len) (a : Addr7) (dest : Dest) (tick : Word) (m : Vector Byte 63) :
    BusInv c b { u with
      lockOwner := o, job := ⟨p, dir, a, len, 0, dest, tick⟩, jobBuf := m, i2cState := .waitBusFree, consState := st } where
  ownerRuns := hp.ownerRuns ho rfl rfl
  selectInLock := ⟨h.selectInLock.1, fun _ => by simp [ho]⟩
  idleFlags := idleFlags_of_i2c_active h (by simp) rfl rfl
  queues := h.queues
  counts := ⟨Nat.zero_le _, hlen⟩
  kind := ⟨fun hn => absurd (hn.symm.trans hk) (by decide), h.kind.2⟩
  bytes := ⟨fun _ => rfl, fun hw => by simp [hrest.2] at hw, fun _ => hread⟩
  requests := hp.requests h.requests rfl rfl rfl
  owner := hp.ownerLegal ho rfl fun _ => ⟨.inl (by simp), rfl⟩

theorem busInv_startSpi (h : BusInv c b u) (hrest : u.i2cState = .idle ∧ u.spiState = .idle) (hk : c.isFourWire b = true) {p : PortId}
    {o : Option PortId} (ho : o = some p) {st : ConsState} (hp : MayOwn c b u st p) {len : Nat} (hpos : 0 < len) (hlen : len ≤ 63)
    {cs : BitVec 16} (hcs : cs = 0 ∨ ∃ sl, cs = csBit sl) (tick : Word) (m : Vector Byte 63) (tr : List WireEvent) :
    BusInv c b { u with
      lockOwner := o, cs := cs, trace := tr, job := { u.job with port := p, len := len, idx := 0, t0 := tick }, jobBuf := m,
      spiState := .transferring, consState := st } where
  ownerRuns := hp.ownerRuns ho rfl rfl
  selectInLock := ⟨hcs, fun _ => by simp [ho]⟩
  idleFlags := ⟨h.idleFlags.1, by simp⟩
  queues := h.queues
  counts := ⟨Nat.zero_le _, hlen⟩
  kind := ⟨h.kind.1, fun hn => absurd (hn.symm.trans hk) (by decide)⟩
  bytes := byteInFlight_of_lt (.inr hrest.1) hpos
  requests := hp.requests h.requests rfl rfl rfl
  owner := hp.ownerLegal ho rfl fun _ => ⟨.inr (by simp), rfl⟩

/-! ## The consumer's start (R213) -/

theorem Bus.trace_deselect_prefix (sl : SlaveId) : u.trace <+: (u.deselect sl).trace := by
  unfold Bus.deselect
  split
  · exact List.prefix_append ..
  · exact List.prefix_rfl

theorem Bus.lockOwner_deselect (sl : SlaveId) : (u.deselect sl).lockOwner = u.lockOwner := by
  unfold Bus.deselect
  split <;> rfl

theorem Bus.consState_deselect (sl : SlaveId) : (u.deselect sl).consState = u.consState := by
  unfold Bus.deselect
  split <;> rfl

/-- With no line asserted, selecting and deselecting a slave leaves two events. -/
theorem Bus.deselect_select (hcs : u.cs = 0) (sl : SlaveId) :
    (u.select sl).deselect sl = { u with trace := u.trace ++ [.cs sl true, .cs sl false] } := by
  simp [Bus.select, Bus.deselect, Bus.emit, hcs, csBit_getLsbD]

/-- The job buffer as the consumer's start loads it (R212): a read has no payload. -/
def requestBuf (m : Vector Byte 63) (r : Request) : Vector Byte 63 :=
  bufLoad m (match r.dir with | .write => r.data.take r.len.toNat | .read => [])

theorem consStart_twoWire {s : State} (hk : s.cfg.isTwoWire b = true) :
    consStart s b = s.setBus b { s.bus b with
      lockOwner := some (.consumer b)
      job := ⟨.consumer b, (s.bus b).creq.dir, (s.bus b).creq.target, (s.bus b).creq.len.toNat, 0, .port, s.tick⟩
      jobBuf := requestBuf (s.bus b).jobBuf (s.bus b).creq
      i2cState := .waitBusFree
      consState := .cRun } := by
  simp only [consStart, hk, if_true]
  rfl

theorem consStart_empty {s : State} (hk : s.cfg.isFourWire b = true) (hr : (s.bus b).creq.len = 0) :
    consStart s b = s.setBus b { s.bus b with lockOwner := some (.consumer b) }.emptyBracket := by
  simp [consStart, Config.twoWire_of_fourWire hk, hr]

theorem consStart_fourWire {s : State} (hk : s.cfg.isFourWire b = true) (hr : (s.bus b).creq.len ≠ 0) :
    consStart s b = s.setBus b { s.bus b with
      lockOwner := some (.consumer b)
      cs := (s.bus b).cs ||| csBit (s.bus b).creq.slave
      trace := (s.bus b).trace ++ [.cs (s.bus b).creq.slave true]
      job := { (s.bus b).job with port := .consumer b, len := (s.bus b).creq.len.toNat, idx := 0, t0 := s.tick }
      jobBuf := bufLoad (s.bus b).jobBuf ((s.bus b).creq.data.take (s.bus b).creq.len.toNat)
      spiState := .transferring
      consState := .cRun } := by
  simp only [consStart, Config.twoWire_of_fourWire hk, hr, if_false, Bool.false_eq_true]
  rfl

/-- A start of the consumer takes no client's lock and no client's job. -/
theorem busStep_of_free {u' : Bus} (hl : u.lockOwner = none) (htr : u.trace <+: u'.trace)
    (hjob : BusInv c b u → u'.active → ∀ p, u'.job.port ≠ .client p) (hinv : BusInv c b u → BusInv c b u') : BusStep c b u u' where
  clientLock p h := by simp [hl] at h
  trace := htr
  runs h p := by
    refine ⟨fun hr => absurd hr.2 (hjob h hr.1 p), fun hr => ?_⟩
    have hown := (h.ownerRuns hr.1).1
    simp [hl] at hown
  inv := hinv

/-- R213: with no line asserted the bracket around nothing leaves the lock free, two events and a held result. -/
theorem Bus.emptyBracket_eq (hcs : u.cs = 0) :
    { u with lockOwner := some (.consumer b) }.emptyBracket = { u with
      lockOwner := none
      trace := u.trace ++ [.cs u.creq.slave true, .cs u.creq.slave false]
      cres := ⟨.ok, 0, u.creq.dir == .read, []⟩
      consState := .cPush } := by
  simp only [Bus.emptyBracket]
  rw [Bus.deselect_select (u := { u with lockOwner := some (.consumer b) }) hcs]

theorem Bus.trace_emptyBracket_prefix : u.trace <+: u.emptyBracket.trace :=
  (List.prefix_append ..).trans (Bus.trace_deselect_prefix (u := u.select u.creq.slave) u.creq.slave)

theorem busInv_emptyBracket (h : BusInv c b u) (hl : u.lockOwner = none) :
    BusInv c b { u with lockOwner := some (.consumer b) }.emptyBracket := by
  obtain ⟨hi, hs, hcs⟩ := h.free hl
  rw [Bus.emptyBracket_eq hcs]
  exact
    { h with
      ownerRuns := fun ha => by simp [Bus.active, hi, hs] at ha
      selectInLock := ⟨h.selectInLock.1, fun hne => absurd hcs hne⟩
      requests := ⟨h.requests.1, by simp⟩
      owner := ⟨by simp, by simp, by simp⟩ }

/-- R213: each branch of the consumer's start is a step of its bus. -/
theorem consStart_busStep {s : State} (hch : s.cfg.hasChannel b = true) (hc : (s.bus b).consState = .cLock)
    (hl : (s.bus b).lockOwner = none) : ∃ u', consStart s b = s.setBus b u' ∧ BusStep s.cfg b (s.bus b) u' := by
  have hmay : MayOwn s.cfg b (s.bus b) .cRun (.consumer b) := ⟨rfl, hc, rfl⟩
  rcases Config.kind_of_hasBus (Config.hasBus_of_channel hch) with hk | hk
  · refine ⟨_, consStart_twoWire hk, busStep_of_free hl List.prefix_rfl (by simp) fun h => ?_⟩
    obtain ⟨hi, hs, -⟩ := h.free hl
    have hreq := h.requests.2 (.inl hc)
    exact busInv_startI2c h ⟨hi, hs⟩ hk rfl hmay (by omega) (hreq.2.1 (Config.fourWire_of_twoWire hk)).2 ..
  · by_cases hr : (s.bus b).creq.len = 0
    · refine ⟨_, consStart_empty hk hr, busStep_of_free hl ?_ (fun h ha => ?_) fun h => busInv_emptyBracket h hl⟩
      · exact Bus.trace_emptyBracket_prefix (u := { s.bus b with lockOwner := some (.consumer b) })
      · obtain ⟨hi, hs, hcs⟩ := h.free hl
        rw [Bus.emptyBracket_eq hcs] at ha
        simp [Bus.active, hi, hs] at ha
    · have hpos : 0 < (s.bus b).creq.len.toNat := by
        have := BitVec.toNat_ne.1 hr
        simpa [Nat.pos_iff_ne_zero] using this
      refine ⟨_, consStart_fourWire hk hr, busStep_of_free hl (List.prefix_append ..) (by simp) fun h => ?_⟩
      obtain ⟨hi, hs, hcs⟩ := h.free hl
      exact busInv_startSpi h ⟨hi, hs⟩ hk rfl hmay hpos (by omega) (.inr ⟨_, by rw [hcs, select_alone]⟩) ..

end Consumer

end Sys2Proof.Machine
end

section
/-! PROOFS. The presenting step (spec/60_exceptions.md R244, R256): every command is its checks, in the order of R244, and its pseudocode. -/

namespace Sys2Proof.Machine

/-! ## Every command has one form -/

/-- The descriptor a command has (R80). -/
def commandDesc : Instr → Option Word
  | .chEnqReq _ _ d => some d
  | .lockAcquire _ _ | .lockRelease _ | .i2cWrite _ _ _ | .i2cRead _ _ _ _ | .spiSelect _ _ | .spiDeselect _ _ | .spiXferByte _ _
  | .spiXferBuf _ _ | .chDeq _ _ _ => none

/-- The pseudocode of a command once it is copied in, as the arms of `exec` give it; `exec_form` ties it to them. -/
def commandBody : Instr → State → State
  | .lockAcquire b T, s =>
    if (s.bus b).lockOwner = none then takeLock s b s.pres.port
    else if T = 0 then respond s s.pres.port (W .lockTimeout 0 false) []
    else startWait s s.pres.port .lockWait b T
  | .lockRelease b, s => respond (s.setBus b { s.bus b with lockOwner := none }) s.pres.port (W .ok 0 false) []
  | .i2cWrite b a n, s =>
    setExecuting (s.setBus b ((s.bus b).startI2c s.tick (.client s.pres.port) .write a n.toNat .port
      ((s.port s.pres.port).payload.take n.toNat))) s.pres.port
  | .i2cRead b dest a n, s =>
    setExecuting (s.setBus b ((s.bus b).startI2c s.tick (.client s.pres.port) .read a n.toNat dest [])) s.pres.port
  | .spiSelect b sl, s => respond (s.setBus b ((s.bus b).select sl)) s.pres.port (W .ok 0 false) []
  | .spiDeselect b sl, s => respond (s.setBus b ((s.bus b).deselect sl)) s.pres.port (W .ok 0 false) []
  | .spiXferByte b tx, s =>
    setExecuting (s.setBus b ((s.bus b).startSpi s.tick (.client s.pres.port) [tx] 1)) s.pres.port
  | .spiXferBuf b n, s =>
    if n = 0 then respond s s.pres.port (W .ok 0 true) []
    else setExecuting (s.setBus b ((s.bus b).startSpi s.tick (.client s.pres.port)
      ((s.port s.pres.port).payload.take n.toNat) n.toNat)) s.pres.port
  | .chEnqReq b T _, s =>
    if rqHasRoom s b then enqueueFor s s.pres.port b
    else if T = 0 then respond s s.pres.port (W .queueFull 0 false) []
    else startWait s s.pres.port .enqWait b T
  | .chDeq b q T, s =>
    match dequeueFor s s.pres.port b q with
    | some t => t
    | none => if T = 0 then respond s s.pres.port (W .queueEmpty 0 false) [] else startWait s s.pres.port (.deqWait q) b T

/-- R244: the checks of every command, in their order. -/
def orderedChecks (s : State) (p : PortIx) (i : Instr) : List (Bool × Cause) :=
  [ (s.cfg.hasBus i.bus, .unknownBusOrSlave), (kindOk s.cfg i, .illegalCommand), (reservedOk s.cfg i, .illegalCommand),
    (lengthOk s.cfg i, .illegalCommand), (slaveOk s.cfg i, .unknownBusOrSlave),
    (!needsLock i || (s.bus i.bus).lockOwner == some (.client p), .lockNotHeld), (selectOk s i, .csProtocol) ]

theorem firstFault_eq (s : State) (p : PortIx) (i : Instr) : firstFault s p i = firstFailing (orderedChecks s p i) := by
  have hnot (x : Bool) (a b : Option Cause) : (if (!x) = true then a else b) = if x = true then b else a := by cases x <;> rfl
  have hlock : (needsLock i && (s.bus i.bus).lockOwner != some (.client p)) =
      !(!needsLock i || (s.bus i.bus).lockOwner == some (.client p)) := by
    cases needsLock i <;> simp [bne]
  simp only [firstFault, orderedChecks, firstFailing, hlock, hnot]

theorem firstFault_eq_none_iff {s : State} {p : PortIx} {i : Instr} :
    firstFault s p i = none ↔ s.cfg.hasBus i.bus = true ∧ kindOk s.cfg i = true ∧ reservedOk s.cfg i = true ∧ lengthOk s.cfg i = true ∧
      slaveOk s.cfg i = true ∧ (needsLock i = true → (s.bus i.bus).lockOwner = some (.client p)) ∧ selectOk s i = true := by
  rw [firstFault_eq, firstFailing_eq_none]
  cases hn : needsLock i <;> simp [orderedChecks, hn]

/-- Two checks of one cause are one check. -/
theorem firstFailing_and (x y : Bool) (c : Cause) (l : List (Bool × Cause)) :
    firstFailing ((x, c) :: (y, c) :: l) = firstFailing ((x && y, c) :: l) := by cases x <;> rfl

/-- R244: every command is a presenting step whose checks fail as `firstFault` says. -/
theorem exec_form (i : Instr) (s : State) :
    ∃ checks, exec i s = issue s (commandDesc i) checks (commandBody i) ∧ firstFailing checks = firstFault s s.pres.port i := by
  rw [firstFault_eq]
  cases i with
  | i2cRead b dest a n =>
    refine ⟨_, rfl, ?_⟩
    have htwo (x y : Bool) (l) := congrArg (fun o => if s.cfg.hasBus b = true then o else some Cause.unknownBusOrSlave)
      (firstFailing_and x y .illegalCommand l)
    cases dest <;> exact htwo ..
  | _ => exact ⟨_, rfl, rfl⟩

theorem exec_fault {i : Instr} {s : State} {c : Cause} (hp : presentable s s.pres.port = true)
    (hc : firstFault s s.pres.port i = some c) : exec i s = .next (takeFatal s s.pres.port c s.pres.cmd) := by
  obtain ⟨checks, he, hf⟩ := exec_form i s
  exact he.trans (issue_fails hp (hf.trans hc))

theorem exec_accepted {i : Instr} {s : State} (hp : presentable s s.pres.port = true) (hc : firstFault s s.pres.port i = none) :
    exec i s = .next (commandBody i (accept s (commandDesc i))) := by
  obtain ⟨checks, he, hf⟩ := exec_form i s
  exact he.trans (issue_passes hp (firstFailing_eq_none.1 (hf.trans hc)))

/-! ## What a presented command can do -/

/-- The state in which a command's pseudocode runs: it is on the command interface, and copied into the port's registers. -/
def acceptedState (s : State) (p : PortIx) (d : Decoded) : State :=
  accept { s with pres := ⟨p, d.header, d.payload⟩ } (commandDesc d.instr)

/-- What a presenting step of a Ready client port can do (R243, R244). -/
inductive PresentStep (s : State) (p : PortIx) (bytes : List Byte) : State → Prop
  | illegal {h : Word} {after : List Byte} (hw : takeWord bytes = some (h, after)) (hr : rowOf h = none) :
      PresentStep s p bytes (takeFatal s p .illegalCommand h)
  | fault {d : Decoded} {c : Cause} (hd : decode s.cfg bytes = .ok d) (hc : firstFault s p d.instr = some c) :
      PresentStep s p bytes (takeFatal { s with pres := ⟨p, d.header, d.payload⟩ } p c d.header)
  | accepted {d : Decoded} (hd : decode s.cfg bytes = .ok d) (hc : firstFault s p d.instr = none) :
      PresentStep s p bytes (commandBody d.instr (acceptedState s p d))

/-- An illegal header is judged before anything after it (log 15). -/
theorem decode_illegal {c : Config} {bytes after : List Byte} {h : Word} (hw : takeWord bytes = some (h, after)) (hr : rowOf h = none) :
    decode c bytes = .error (illegalHeader h) := by
  simp [decode, hw, hr]

theorem presentCommand_illegal {s : State} {p : PortIx} {bytes after : List Byte} {h : Word} (hw : takeWord bytes = some (h, after))
    (hr : rowOf h = none) : presentCommand s p bytes = .next (takeFatal s p .illegalCommand h) := by
  unfold presentCommand
  rw [decode_illegal hw hr, illegalHeader]
  cases opcodeAssigned h <;> rfl

theorem presentCommand_ok {s : State} {p : PortIx} {bytes : List Byte} {d : Decoded} (hd : decode s.cfg bytes = .ok d) :
    presentCommand s p bytes = exec d.instr { s with pres := ⟨p, d.header, d.payload⟩ } := by
  simp [presentCommand, hd]

/-- Bytes that are a move hold a command, or begin with an illegal header (log 14, log 15). -/
theorem completeCommand_cases {c : Config} {bytes : List Byte} (h : completeCommand c bytes = true) :
    (∃ d, decode c bytes = .ok d) ∨ ∃ w after, takeWord bytes = some (w, after) ∧ rowOf w = none := by
  cases hw : takeWord bytes with
  | none => simp [completeCommand, decode, hw] at h
  | some word =>
    obtain ⟨w, after⟩ := word
    cases hr : rowOf w with
    | none => exact .inr ⟨w, after, rfl, hr⟩
    | some r =>
      cases hdesc : takeDescriptor r after with
      | none => simp [completeCommand, decode, hw, hr, hdesc] at h
      | some desc =>
        by_cases hl : desc.2.length < payloadLen c (r.build w desc.1)
        · simp [completeCommand, decode, hw, hr, hdesc, takePayload, hl] at h
        · have hpay : takePayload c w (r.build w desc.1) desc.2 = .ok _ := if_neg hl
          have hdec : decode c bytes = takePayload c w (r.build w desc.1) desc.2 := by simp only [decode, hw, hr, hdesc]
          exact .inl ⟨_, hdec.trans hpay⟩

theorem presentStep_of_next {s t : State} {p : PortIx} {bytes : List Byte} (hp : presentable s p = true)
    (hc : completeCommand s.cfg bytes = true) (h : presentCommand s p bytes = .next t) : PresentStep s p bytes t := by
  rcases completeCommand_cases hc with ⟨d, hd⟩ | ⟨w, after, hw, hr⟩
  · rw [presentCommand_ok hd] at h
    cases hf : firstFault s p d.instr with
    | none =>
      rw [exec_accepted (s := { s with pres := ⟨p, d.header, d.payload⟩ }) hp hf] at h
      cases h
      exact .accepted hd hf
    | some c =>
      rw [exec_fault (s := { s with pres := ⟨p, d.header, d.payload⟩ }) hp hf] at h
      cases h
      exact .fault hd hf
  · rw [presentCommand_illegal hw hr] at h
    cases h
    exact .illegal hw hr

/-! ## What a command writes -/

/-- What a command may write of its bus: not the consumer's state; its trace only grows, and it takes no client's lock away but by
LOCK_RELEASE (R112, R115). -/
structure CommandBus (i : Instr) (u u' : Bus) : Prop where
  consState : u'.consState = u.consState
  trace : u.trace <+: u'.trace
  lock : ∀ q, u.lockOwner = some (.client q) → u'.lockOwner = some (.client q) ∨ (i = .lockRelease i.bus ∧ u'.lockOwner = none)

/-- The response a command may give: OK, or a status of its own, those from LOCK_TIMEOUT up (R245). -/
def CommandStatus (w : Word) : Prop := ∃ st n data item, w = responseWord st n data item ∧ (st = .ok ∨ 4 ≤ st.code.toNat)

theorem commandStatus_ok (n : Nat) (data item : Bool) : CommandStatus (responseWord .ok n data item) := ⟨_, _, _, _, rfl, .inl rfl⟩

theorem commandStatus_of_le {st : Status} (h : 4 ≤ st.code.toNat) (n : Nat) (data : Bool) : CommandStatus (W st n data) :=
  ⟨_, _, _, _, rfl, .inr h⟩

/-- What a command may write of its port: not its registers (R21). -/
structure CommandPort (x x' : Port) : Prop where
  cmd : x'.cmd = x.cmd
  desc : x'.desc = x.desc
  payload : x'.payload = x.payload
  resp : x'.resp = x.resp ∨ CommandStatus x'.resp

/-- A command writes the presenting port and the bus it names, and nothing else. -/
def CommandWrites (i : Instr) (s t : State) : Prop :=
  ∃ u x, t = (s.setBus i.bus u).setPort s.pres.port x ∧ CommandBus i (s.bus i.bus) u ∧ CommandPort (s.port s.pres.port) x

theorem CommandBus.rfl {i : Instr} {u : Bus} : CommandBus i u u := ⟨Eq.refl _, List.prefix_rfl, fun _ h => .inl h⟩

section
variable {i : Instr} {s : State} {b : BusId} {u : Bus} {w : Word}

theorem commandWrites_respond (hb : i.bus = b) (hw : CommandStatus w) (bytes : List Byte) (hu : CommandBus i (s.bus b) u) :
    CommandWrites i s (respond (s.setBus b u) s.pres.port w bytes) := by
  subst hb
  exact ⟨u, _, rfl, hu, rfl, rfl, rfl, .inr hw⟩

theorem commandWrites_setExecuting (hb : i.bus = b) (hu : CommandBus i (s.bus b) u) :
    CommandWrites i s (setExecuting (s.setBus b u) s.pres.port) := by
  subst hb
  exact ⟨u, _, rfl, hu, rfl, rfl, rfl, .inl rfl⟩

theorem commandWrites_answer (hw : CommandStatus w) (bytes : List Byte) : CommandWrites i s (respond s s.pres.port w bytes) :=
  ⟨s.bus i.bus, { s.port s.pres.port with pstate := .ready, resp := w, rdata := bytes }, by rw [setBus_self]; rfl, .rfl, rfl, rfl, rfl,
    .inr hw⟩

theorem commandWrites_startWait (k : WaitKind) (T : Timeout) : CommandWrites i s (startWait s s.pres.port k b T) :=
  ⟨s.bus i.bus, { s.port s.pres.port with pstate := .waiting ⟨k, b, s.tick, T⟩ }, by rw [setBus_self]; rfl, .rfl, rfl, rfl, rfl, .inl rfl⟩

end

theorem commandBody_writes (i : Instr) (s : State) : CommandWrites i s (commandBody i s) := by
  cases i with
  | lockAcquire b T =>
    simp only [commandBody]
    split_ifs with hl
    · exact commandWrites_respond rfl (commandStatus_ok ..) [] ⟨rfl, List.prefix_rfl, fun q h => absurd (hl.symm.trans h) (by simp)⟩
    · exact commandWrites_answer (commandStatus_of_le (by decide) ..) []
    · exact commandWrites_startWait ..
  | lockRelease b => exact commandWrites_respond rfl (commandStatus_ok ..) [] ⟨rfl, List.prefix_rfl, fun q h => .inr ⟨rfl, rfl⟩⟩
  | i2cWrite b a n => exact commandWrites_setExecuting rfl ⟨rfl, List.prefix_rfl, fun q h => .inl h⟩
  | i2cRead b dest a n => exact commandWrites_setExecuting rfl ⟨rfl, List.prefix_rfl, fun q h => .inl h⟩
  | spiSelect b sl => exact commandWrites_respond rfl (commandStatus_ok ..) [] ⟨rfl, List.prefix_append .., fun q h => .inl h⟩
  | spiDeselect b sl =>
    exact commandWrites_respond rfl (commandStatus_ok ..) []
      ⟨Bus.consState_deselect sl, Bus.trace_deselect_prefix sl, fun q h => .inl ((Bus.lockOwner_deselect sl).trans h)⟩
  | spiXferByte b tx => exact commandWrites_setExecuting rfl ⟨rfl, List.prefix_rfl, fun q h => .inl h⟩
  | spiXferBuf b n =>
    simp only [commandBody]
    split_ifs
    · exact commandWrites_answer (commandStatus_ok ..) []
    · exact commandWrites_setExecuting rfl ⟨rfl, List.prefix_rfl, fun q h => .inl h⟩
  | chEnqReq b T d =>
    simp only [commandBody]
    split_ifs
    · exact commandWrites_respond rfl (commandStatus_ok ..) [] ⟨rfl, List.prefix_rfl, fun q h => .inl h⟩
    · exact commandWrites_answer (commandStatus_of_le (by decide) ..) []
    · exact commandWrites_startWait ..
  | chDeq b q T =>
    rcases dequeueFor_cases s s.pres.port b q with ⟨-, -, hd⟩ | ⟨-, -, hd⟩ | ⟨_, _, -, -, hd⟩ | ⟨_, _, -, -, hd⟩
    all_goals simp only [commandBody, hd]
    case inr.inr.inl | inr.inr.inr =>
      exact commandWrites_respond rfl (commandStatus_ok ..) _ ⟨rfl, List.prefix_rfl, fun q h => .inl h⟩
    all_goals
      split_ifs
      · exact commandWrites_answer (commandStatus_of_le (by decide) ..) []
      · exact commandWrites_startWait ..

end Sys2Proof.Machine
end

section
/-! PROOFS. What the step of an agent can do (spec/10_state.md R20, R41): one form for the steps that write one bus, one for the end of a
job, one for each step that answers a waiting port. -/

namespace Sys2Proof.Machine

/-- R143, R145, R148, R183: the moves a job's end has its status from. -/
def EndStatus (s : State) (b : BusId) (m : Move) : Status → Prop
  | .ok => True
  | .addrNack => m = .i2cNotAcked b
  | .dataNack => m = .i2cByteSent b ∧ (s.bus b).job.dir = .write
  | .busTimeout => s.cfg.wireTimeout ≠ none ∧ (m = .i2cWireTimeout b ∨ m = .spiWireTimeout b)
  | .lockTimeout | .queueFull | .queueEmpty => False

/-- What a step that is enabled can do, other than a presented command, a tick and reset. -/
inductive AgentStep (s : State) : Move → State → Prop
  | bus {m : Move} {b : BusId} {u : Bus} (hm : moveBus s m = some b) (hu : BusStep s.cfg b (s.bus b) u)
      (hidle : (s.bus b).consState = .cIdle → u.consState = .cIdle ∨ m = .consTake b) : AgentStep s m (s.setBus b u)
  | i2cEnd {m : Move} {b : BusId} {u : Bus} {st : Status} (hm : moveBus s m = some b) (hk : s.cfg.isTwoWire b = true)
      (hu : Ending s.cfg b (s.bus b) u) (hst : EndStatus s b m st) : AgentStep s m (i2cFinish (s.setBus b u) b st)
  | spiEnd {m : Move} {b : BusId} {u : Bus} {st : Status} (hm : moveBus s m = some b) (hk : s.cfg.isFourWire b = true)
      (hu : Ending s.cfg b (s.bus b) u) (hst : EndStatus s b m st) : AgentStep s m (spiFinish (s.setBus b u) b st)
  | timeout {p : PortIx} {w : Wait} (hw : (s.port p).pstate = .waiting w) :
      AgentStep s (.portTimeout p) (respond s p (W w.kind.timeoutStatus 0 false) [])
  | enqueue {p : PortIx} {b : BusId} {t0 : Word} {T : Timeout} (hw : (s.port p).pstate = .waiting ⟨.enqWait, b, t0, T⟩)
      (hroom : (s.bus b).rq.length < s.cfg.rqDepth b) : AgentStep s (.portEnqueue p) (enqueueFor s p b)
  | dequeue {p : PortIx} {q : QSel} {b : BusId} {t0 : Word} {T : Timeout} {t : State}
      (hw : (s.port p).pstate = .waiting ⟨.deqWait q, b, t0, T⟩) (ht : dequeueFor s p b q = some t) : AgentStep s (.portDequeue p) t
  | grant {b : BusId} {q : PortIx} {t0 : Word} {T : Timeout} (hq : q.val < s.cfg.nPort) (hl : (s.bus b).lockOwner = none)
      (hw : (s.port q).pstate = .waiting ⟨.lockWait, b, t0, T⟩) : AgentStep s (.lockGrant b q) (takeLock s b q)

theorem moveEnabled_imp {s : State} {m : Move} (h : moveEnabled s m = true) : enabledRunning s m = true := by
  simp only [moveEnabled, Bool.and_eq_true] at h; exact h.2

theorem onTwoWire_imp {s : State} {b : BusId} {cond : Bus → Bool} (h : onTwoWire s b cond = true) :
    s.cfg.isTwoWire b = true ∧ cond (s.bus b) = true := by simpa [onTwoWire] using h

theorem onFourWire_imp {s : State} {b : BusId} {cond : Bus → Bool} (h : onFourWire s b cond = true) :
    s.cfg.isFourWire b = true ∧ cond (s.bus b) = true := by simpa [onFourWire] using h

theorem AgentStep.works {s : State} {m : Move} {b : BusId} {u : Bus} (hm : moveBus s m = some b) (hu : Works s.cfg b (s.bus b) u) :
    AgentStep s m (s.setBus b u) :=
  .bus hm hu.busStep fun h => .inl (hu.goesOn.consState.trans h)

/-! ## The two-wire engine and its environment -/

theorem agentStep_i2cStart {s : State} {b : BusId} (he : onTwoWire s b i2cStartEnabled = true) :
    AgentStep s (.i2cStart b) (i2cStart s b) := by
  obtain ⟨hk, hc⟩ := onTwoWire_imp he
  obtain ⟨hw, -⟩ := i2cStartEnabled_iff.1 hc
  have hzero : BusInv s.cfg b (s.bus b) → (s.bus b).job.idx = 0 := fun h => h.bytes.1 (.inl hw)
  exact .works rfl (works_enter hk (by simp [hw]) (by simp) _ _ _ (List.prefix_append ..) _ (fun h _ => hzero h) (by simp))

theorem agentStep_i2cAddress {s : State} {b : BusId} (he : onTwoWire s b i2cAddressEnabled = true) :
    AgentStep s (.i2cAddress b) (i2cAddress s b) := by
  obtain ⟨hk, hc⟩ := onTwoWire_imp he
  obtain ⟨hw, -⟩ := i2cAddressEnabled_iff.1 hc
  have hzero : BusInv s.cfg b (s.bus b) → (s.bus b).job.idx = 0 := fun h => h.bytes.1 (.inr (.inl hw))
  exact .works rfl (works_enter hk (by simp [hw]) (by simp) _ _ _ (List.prefix_append ..) _ (fun h _ => hzero h) (by simp))

theorem agentStep_i2cAcked {s t : State} {b : BusId} (he : onTwoWire s b i2cAckedEnabled = true) (h : i2cAcked s b = .next t) :
    AgentStep s (.i2cAcked b) t := by
  obtain ⟨hk, hc⟩ := onTwoWire_imp he
  obtain ⟨hw, -⟩ := i2cAckedEnabled_iff.1 hc
  have ha : (s.bus b).i2cState ≠ .idle := by simp [hw]
  have hzero : BusInv s.cfg b (s.bus b) → (s.bus b).job.idx = 0 := fun hb => hb.bytes.1 (.inr (.inr hw))
  cases hd : (s.bus b).job.dir with
  | write =>
    by_cases hl : (s.bus b).job.len = 0
    · rw [i2cAcked_emptyWrite hd hl] at h
      cases h
      exact .i2cEnd rfl hk ((works_i2cFlags ha _ _ _ _ _ _).ending (.inl ha)) trivial
    · rw [i2cAcked_write hd hl (bufRead_isSome (i := 0) (by decide))] at h
      cases h
      refine .works rfl (works_enter hk ha (by simp) _ _ _ (List.prefix_append ..) _ (fun _ hn => absurd rfl hn) fun hb _ => ?_)
      have := hzero hb
      omega
  | read =>
    rw [i2cAcked_read hd] at h
    cases h
    refine .works rfl (works_enter hk ha (by simp) _ _ _ (List.prefix_append ..) _ (fun _ hn => absurd rfl hn) fun hb _ => ?_)
    have := hzero hb
    have := hb.bytes.2.2 ha hd
    omega

theorem agentStep_i2cNotAcked {s : State} {b : BusId} (he : onTwoWire s b i2cNotAckedEnabled = true) :
    AgentStep s (.i2cNotAcked b) (i2cNotAcked s b) := by
  obtain ⟨hk, hc⟩ := onTwoWire_imp he
  obtain ⟨hw, -⟩ := i2cNotAckedEnabled_iff.1 hc
  have ha : (s.bus b).i2cState ≠ .idle := by simp [hw]
  exact .i2cEnd rfl hk ((works_i2cFlags ha _ _ _ _ _ _).ending (.inl ha)) rfl

theorem i2cByteSent_fault {s : State} {b : BusId} (ha : (s.bus b).af = false)
    (hl : (s.bus b).job.idx + 1 ≠ (s.bus b).job.len) (hv : bufRead (s.bus b).jobBuf ((s.bus b).job.idx + 1) = none) :
    i2cByteSent s b = .fault .jobBufferIndex := by
  simp [i2cByteSent, Bus.nextByte, ha, hl, hv]

theorem agentStep_i2cByteSent {s t : State} {b : BusId} (he : onTwoWire s b i2cByteSentEnabled = true)
    (h : i2cByteSent s b = .next t) : AgentStep s (.i2cByteSent b) t := by
  obtain ⟨hk, hc⟩ := onTwoWire_imp he
  obtain ⟨hw, hd, -⟩ := i2cByteSentEnabled_iff.1 hc
  have ha : (s.bus b).i2cState ≠ .idle := by simp [hw]
  cases haf : (s.bus b).af with
  | true =>
    rw [i2cByteSent_nack haf] at h
    cases h
    exact .i2cEnd rfl hk ((works_i2cFlags ha _ _ _ _ _ _).ending (.inl ha)) ⟨rfl, hd⟩
  | false =>
    by_cases hl : (s.bus b).job.idx + 1 = (s.bus b).job.len
    · rw [i2cByteSent_last haf hl] at h
      cases h
      exact .i2cEnd rfl hk (ending_countI2c hw _ _ _ _ List.prefix_rfl (fun hb => hb.queues.2) _) trivial
    · cases hv : bufRead (s.bus b).jobBuf ((s.bus b).job.idx + 1) with
      | none => rw [i2cByteSent_fault haf hl hv] at h; cases h
      | some v =>
        rw [i2cByteSent_more haf hl hv] at h
        cases h
        have hend := ending_countI2c (c := s.cfg) (b := b) hw false (s.bus b).rxne (s.bus b).ackEn (s.bus b).jobBuf
          (List.prefix_append _ [.tx v]) (fun hb => hb.queues.2) s.tick
        exact .works rfl (hend.works fun hb => byteInFlight_of_lt (.inl hw) (next_lt hb (.inl hw) hl))

theorem i2cByteReceived_fault {s : State} {b : BusId}
    (hm : bufWrite (s.bus b).jobBuf (s.bus b).job.idx (s.bus b).dr = none) : i2cByteReceived s b = .fault .jobBufferIndex := by
  simp [i2cByteReceived, hm]

theorem agentStep_i2cByteReceived {s t : State} {b : BusId} (he : onTwoWire s b (i2cByteReceivedEnabled s.cfg b) = true)
    (h : i2cByteReceived s b = .next t) : AgentStep s (.i2cByteReceived b) t := by
  obtain ⟨hk, hc⟩ := onTwoWire_imp he
  obtain ⟨hw, -, -, hroom⟩ := i2cByteReceivedEnabled_iff.1 hc
  have hrsp (m) : BusInv s.cfg b (s.bus b) → ((s.bus b).afterReceive m).rsp.length ≤ s.cfg.rspDepth b := by
    intro hb
    cases hd : (s.bus b).job.dest with
    | port => simpa [Bus.afterReceive, hd] using hb.queues.2
    | fifo => simpa [Bus.afterReceive, hd] using hroom.resolve_left (by simp [hd])
  cases hm : bufWrite (s.bus b).jobBuf (s.bus b).job.idx (s.bus b).dr with
  | none => rw [i2cByteReceived_fault hm] at h; cases h
  | some m =>
    rw [i2cByteReceived_stored hm] at h
    by_cases hl : (s.bus b).job.idx + 1 = (s.bus b).job.len
    · rw [if_pos hl] at h
      cases h
      exact .i2cEnd rfl hk (ending_countI2c hw _ _ _ _ (List.prefix_append ..) (hrsp m) _) trivial
    · rw [if_neg hl] at h
      cases h
      have htr := (List.prefix_append (s.bus b).trace [.rx (s.bus b).dr]).trans
        (List.prefix_append _ [.ackCtl (ackBit (s.bus b).job ((s.bus b).job.idx + 1))])
      have hend := ending_countI2c (c := s.cfg) (b := b) hw (s.bus b).btf false (ackBit (s.bus b).job ((s.bus b).job.idx + 1)) m
        htr (hrsp m) s.tick
      exact .works rfl (hend.works fun hb => byteInFlight_of_lt (.inl hw) (next_lt hb (.inl hw) hl))

theorem agentStep_i2cWireTimeout {s : State} {b : BusId} (he : onTwoWire s b (i2cWireTimeoutEnabled s.cfg s.tick) = true) :
    AgentStep s (.i2cWireTimeout b) (i2cWireTimeout s b) := by
  obtain ⟨hk, hc⟩ := onTwoWire_imp he
  obtain ⟨⟨w, hwt, -⟩, haw⟩ := i2cWireTimeoutEnabled_iff.1 hc
  have ha : (s.bus b).i2cState ≠ .idle := fun hi => by simp [Bus.i2cAwaiting, hi] at haw
  have hend := AgentStep.i2cEnd (m := .i2cWireTimeout b) (st := .busTimeout) rfl hk
    (Works.ending ⟨JobGoesOn.rfl, id⟩ (.inl ha)) ⟨by simp [hwt], .inl rfl⟩
  rwa [setBus_self] at hend

/-- Each step of the two-wire environment sets flags of an active engine. -/
theorem agentStep_envI2c {s : State} {b : BusId} {m : Move} (hm : moveBus s m = some b) (ha : (s.bus b).i2cState ≠ .idle)
    (sb addr af btf rxne : Bool) (dr : Byte) :
    AgentStep s m (s.setBus b { s.bus b with sb := sb, addr := addr, af := af, btf := btf, rxne := rxne, dr := dr }) :=
  .works hm (works_i2cFlags ha ..)

/-! ## The four-wire engine and its environment -/

theorem spiExchangeEnabled_iff {u : Bus} : spiExchangeEnabled u = true ↔ u.spiState = .transferring ∧ u.srxne = true := by
  simp [spiExchangeEnabled]

/-- R180: the bus once the received byte is traced, stored and counted; `m` is the job buffer with it. -/
def Bus.afterExchange (u : Bus) (tx : Byte) (m : Vector Byte 63) : Bus :=
  { u with srxne := false, jobBuf := m, trace := u.trace ++ [.xfer tx u.sdr], job := { u.job with idx := u.job.idx + 1 } }

theorem spiExchange_stored {s : State} {b : BusId} {tx : Byte} {m : Vector Byte 63}
    (htx : bufRead (s.bus b).jobBuf (s.bus b).job.idx = some tx)
    (hm : bufWrite (s.bus b).jobBuf (s.bus b).job.idx (s.bus b).sdr = some m) :
    spiExchange s b =
      if (s.bus b).job.idx + 1 = (s.bus b).job.len then .next (spiFinish (s.setBus b ((s.bus b).afterExchange tx m)) b .ok)
      else .next (s.setBus b (((s.bus b).afterExchange tx m).stamp s.tick)) := by
  simp only [spiExchange, htx, hm]
  rfl

/-- Outside the job buffer there is no byte to send (log 17). -/
theorem spiExchange_fault {s : State} {b : BusId} (htx : bufRead (s.bus b).jobBuf (s.bus b).job.idx = none) :
    spiExchange s b = .fault .jobBufferIndex := by
  simp [spiExchange, htx]

theorem agentStep_spiExchange {s t : State} {b : BusId} (he : onFourWire s b spiExchangeEnabled = true)
    (h : spiExchange s b = .next t) : AgentStep s (.spiExchange b) t := by
  obtain ⟨hk, hc⟩ := onFourWire_imp he
  obtain ⟨hw, -⟩ := spiExchangeEnabled_iff.1 hc
  cases htx : bufRead (s.bus b).jobBuf (s.bus b).job.idx with
  | none => rw [spiExchange_fault htx] at h; cases h
  | some tx =>
    obtain ⟨hi, -⟩ := bufRead_eq_some.1 htx
    obtain ⟨m, hm⟩ := bufWrite_isSome (m := (s.bus b).jobBuf) (v := (s.bus b).sdr) hi
    rw [spiExchange_stored htx hm] at h
    have hend (t0) := ending_countSpi (c := s.cfg) (b := b) hw m (List.prefix_append _ [.xfer tx (s.bus b).sdr]) t0
    split at h
    case isTrue => cases h; exact .spiEnd rfl hk (hend (s.bus b).job.t0) trivial
    case isFalse hl =>
      cases h
      exact .works rfl ((hend s.tick).works fun hb => byteInFlight_of_lt (.inr (hb.settled.i2c_idle hk)) (next_lt hb (.inr hw) hl))

/-- R183: the lines go down before the job ends. -/
theorem works_deassertAll {c : Config} {b : BusId} {u : Bus} : Works c b u u.deassertAll where
  goesOn := { JobGoesOn.rfl with cs := .inr rfl, trace := List.prefix_append .. }
  inv h :=
    { h with
      selectInLock := ⟨.inl rfl, fun hne => absurd rfl hne⟩
      kind := ⟨h.kind.1, fun hk => ⟨(h.kind.2 hk).1, rfl⟩⟩ }

theorem agentStep_spiWireTimeout {s : State} {b : BusId} (he : onFourWire s b (spiWireTimeoutEnabled s.cfg s.tick) = true) :
    AgentStep s (.spiWireTimeout b) (spiWireTimeout s b) := by
  obtain ⟨hk, hc⟩ := onFourWire_imp he
  obtain ⟨⟨w, hwt, -⟩, hw, -⟩ := spiWireTimeoutEnabled_iff.1 hc
  exact .spiEnd rfl hk (works_deassertAll.ending (.inr (by simp [hw]))) ⟨by simp [hwt], .inr rfl⟩

theorem consStartEnabled_iff {u : Bus} : consStartEnabled u = true ↔ u.consState = .cLock ∧ u.lockOwner = none := by
  simp [consStartEnabled]

/-! ## Waiting ports and the arbiter -/

theorem waiting_of_portTimeoutEnabled {s : State} {p : PortIx} (he : portTimeoutEnabled s p = true) :
    ∃ w, (s.port p).pstate = .waiting w := by
  unfold portTimeoutEnabled at he
  cases hw : s.waitOf p with
  | none => simp [hw] at he
  | some w => exact ⟨w, waitOf_eq_some_iff.1 hw⟩

theorem portEnqueueEnabled_iff {s : State} {p : PortIx} :
    portEnqueueEnabled s p = true ↔
      ∃ b t0 T, (s.port p).pstate = .waiting ⟨.enqWait, b, t0, T⟩ ∧ (s.bus b).rq.length < s.cfg.rqDepth b := by
  unfold portEnqueueEnabled
  cases hw : s.waitOf p with
  | none =>
    have hnot : ∀ w, (s.port p).pstate ≠ .waiting w := fun w h => by simp [waitOf_eq_some_iff.2 h] at hw
    simp [hnot]
  | some w =>
    obtain ⟨kind, b, t0, T⟩ := w
    simp [waitOf_eq_some_iff.1 hw, rqHasRoom_iff]

theorem portDequeue?_eq_some_iff {s t : State} {p : PortIx} :
    portDequeue? s p = some t ↔
      ∃ q b t0 T, (s.port p).pstate = .waiting ⟨.deqWait q, b, t0, T⟩ ∧ dequeueFor s p b q = some t := by
  unfold portDequeue?
  cases hw : s.waitOf p with
  | none =>
    have hnot : ∀ w, (s.port p).pstate ≠ .waiting w := fun w h => by simp [waitOf_eq_some_iff.2 h] at hw
    simp [hnot]
  | some w =>
    obtain ⟨kind, b, t0, T⟩ := w
    cases kind <;> simp [waitOf_eq_some_iff.1 hw]

/-! ## Every move -/

/-- All that an enabled step of a port, of the arbiter or of the consumer does. -/
theorem agentStep_portTimeout {s : State} {p : PortIx} (he : portTimeoutEnabled s p = true) :
    AgentStep s (.portTimeout p) (portTimeout s p) := by
  obtain ⟨w, hw⟩ := waiting_of_portTimeoutEnabled he
  simpa [portTimeout, waitOf_eq_some_iff.2 hw] using AgentStep.timeout hw

theorem agentStep_portEnqueue {s : State} {p : PortIx} (he : portEnqueueEnabled s p = true) :
    AgentStep s (.portEnqueue p) (portEnqueue s p) := by
  obtain ⟨b, t0, T, hw, hroom⟩ := portEnqueueEnabled_iff.1 he
  simpa [portEnqueue, waitOf_eq_some_iff.2 hw] using AgentStep.enqueue hw hroom

theorem agentStep_portDequeue {s : State} {p : PortIx} (he : (portDequeue? s p).isSome = true) :
    AgentStep s (.portDequeue p) ((portDequeue? s p).getD s) := by
  obtain ⟨t, ht⟩ := Option.isSome_iff_exists.1 he
  obtain ⟨q, b, t0, T, hw, hd⟩ := portDequeue?_eq_some_iff.1 ht
  simpa [ht] using AgentStep.dequeue hw hd

theorem agentStep_lockGrant {s : State} {b : BusId} {q : PortIx} (hq : isClient s q = true) (he : lockGrantEnabled s b q = true) :
    AgentStep s (.lockGrant b q) (lockGrant s b q) := by
  obtain ⟨hl, t0, T, hw⟩ := lockGrantEnabled_iff.1 he
  exact .grant (by simpa [isClient] using hq) hl hw

theorem agentStep_consTake {s : State} {b : BusId} (he : consTakeEnabled (s.bus b) = true) :
    AgentStep s (.consTake b) (consTake s b) := by
  obtain ⟨hc, hne⟩ := consTakeEnabled_iff.1 he
  obtain ⟨r, rest, hq⟩ := List.exists_cons_of_ne_nil hne
  exact consTake_of_cons hq ▸ .bus rfl (busStep_consTake hc hq) fun _ => .inr rfl

theorem agentStep_consStart {s : State} {b : BusId} (hch : s.cfg.hasChannel b = true) (he : consStartEnabled (s.bus b) = true) :
    AgentStep s (.consStart b) (consStart s b) := by
  obtain ⟨hc, hl⟩ := consStartEnabled_iff.1 he
  obtain ⟨u, hu, hstep⟩ := consStart_busStep hch hc hl
  exact hu ▸ .bus rfl hstep fun h => absurd (hc.symm.trans h) (by decide)

theorem agentStep_consPush {s : State} {b : BusId} (he : consPushEnabled s b = true) : AgentStep s (.consPush b) (consPush s b) := by
  obtain ⟨hc, hroom⟩ := consPushEnabled_iff.1 he
  exact .bus rfl (busStep_consPush hc hroom) fun h => absurd (hc.symm.trans h) (by decide)

/-- What an enabled step does: it presents a command, resets, ticks, or is the step of an agent. -/
inductive MoveStep (s : State) : Move → State → Prop
  | present {p : PortIx} {bytes : List Byte} {t : State} (hp : presentable s p = true) (h : PresentStep s p bytes t) :
      MoveStep s (.present p bytes) t
  | reset (busy : BitVec 16) : MoveStep s (.reset busy) (resetBlock s busy)
  | clockTick : MoveStep s .clockTick { s with tick := s.tick + 1 }
  | agent {m : Move} {t : State} (h : AgentStep s m t) : MoveStep s m t

theorem moveStep_of_runMove {s t : State} {m : Move} (he : enabledRunning s m = true) (h : runMove s m = .next t) :
    MoveStep s m t := by
  have both {x y : Bool} (hxy : (x && y) = true) : x = true ∧ y = true := by simpa using hxy
  cases m with
  | present p bytes => exact .present (both he).1 (presentStep_of_next (both he).1 (both he).2 h)
  | reset busy => cases h; exact .reset busy
  | clockTick => cases h; exact .clockTick
  | portTimeout p => cases h; exact .agent (agentStep_portTimeout (both he).2)
  | portEnqueue p => cases h; exact .agent (agentStep_portEnqueue (both he).2)
  | portDequeue p => cases h; exact .agent (agentStep_portDequeue (both he).2)
  | lockGrant b q => cases h; exact .agent (agentStep_lockGrant (both (both he).1).2 (both he).2)
  | i2cStart b => cases h; exact .agent (agentStep_i2cStart he)
  | i2cAddress b => cases h; exact .agent (agentStep_i2cAddress he)
  | i2cAcked b => exact .agent (agentStep_i2cAcked he h)
  | i2cNotAcked b => cases h; exact .agent (agentStep_i2cNotAcked he)
  | i2cByteSent b => exact .agent (agentStep_i2cByteSent he h)
  | i2cByteReceived b => exact .agent (agentStep_i2cByteReceived he h)
  | i2cWireTimeout b => cases h; exact .agent (agentStep_i2cWireTimeout he)
  | spiExchange b => exact .agent (agentStep_spiExchange he h)
  | spiWireTimeout b => cases h; exact .agent (agentStep_spiWireTimeout he)
  | consTake b => cases h; exact .agent (agentStep_consTake (both he).2)
  | consStart b => cases h; exact .agent (agentStep_consStart (both he).1 (both he).2)
  | consPush b => cases h; exact .agent (agentStep_consPush (both he).2)
  | envBusy b level => cases h; exact .agent (.works rfl (works_busy level))
  | envStartLatched b =>
    cases h
    have hw := (envStartLatchedEnabled_iff.1 (onTwoWire_imp he).2).1
    exact .agent (agentStep_envI2c rfl (by simp [hw]) ..)
  | envAddrAck b =>
    cases h
    have hw := (envAddressEnabled_iff.1 (onTwoWire_imp he).2).1
    exact .agent (agentStep_envI2c rfl (by simp [hw]) ..)
  | envAddrNack b =>
    cases h
    have hw := (envAddressEnabled_iff.1 (onTwoWire_imp he).2).1
    exact .agent (agentStep_envI2c rfl (by simp [hw]) ..)
  | envByteDone b nack =>
    cases h
    have hw := (envByteDoneEnabled_iff.1 (onTwoWire_imp he).2).1
    exact .agent (agentStep_envI2c rfl (by simp [hw]) ..)
  | envByteReady b v =>
    cases h
    have hw := (envByteReadyEnabled_iff.1 (onTwoWire_imp he).2).1
    exact .agent (agentStep_envI2c rfl (by simp [hw]) ..)
  | envExchange b v =>
    cases h
    have hw := (envExchangeEnabled_iff.1 (onFourWire_imp he).2).1
    exact .agent (.works rfl (works_srxne (by simp [hw]) true v))

end Sys2Proof.Machine
end

section
/-! PROOFS. Rules of the whole machine: what every step leaves, and where what it writes comes from (spec/00_scope.md R10, spec/10_state.md
R21, R23, spec/60_exceptions.md R243..R259). -/

namespace Sys2Proof.Machine

/-! ## What the step of an agent leaves -/

/-- No agent's step changes the globals or a port's command registers, and every trace only grows. -/
structure Quiet (s t : State) : Prop where
  globals : SameGlobals s t
  cmd : ∀ p, (t.port p).cmd = (s.port p).cmd
  desc : ∀ p, (t.port p).desc = (s.port p).desc
  payload : ∀ p, (t.port p).payload = (s.port p).payload
  trace : ∀ b, (s.bus b).trace <+: (t.bus b).trace

theorem sameGlobals_rfl (s : State) : SameGlobals s s := ⟨rfl, rfl, rfl, rfl, rfl, rfl, rfl, rfl, rfl⟩

section Globals
variable {s t : State} (h : SameGlobals s t)
include h

theorem SameGlobals.tick : t.tick = s.tick := by obtain ⟨ht, -⟩ := h; exact ht

theorem SameGlobals.fatal : t.fatal = s.fatal := by obtain ⟨-, hf, -⟩ := h; exact hf

theorem SameGlobals.cfg : t.cfg = s.cfg := by obtain ⟨-, -, -, -, -, hc, -⟩ := h; exact hc

theorem SameGlobals.moves : t.moves = s.moves := by obtain ⟨-, -, -, -, -, -, hm, -⟩ := h; exact hm

theorem SameGlobals.draws : t.draws = s.draws := by obtain ⟨-, -, -, -, -, -, -, hd, -⟩ := h; exact hd

theorem SameGlobals.pres : t.pres = s.pres := by obtain ⟨-, -, -, -, -, -, -, -, hp⟩ := h; exact hp

end Globals

theorem SameGlobals.trans {s t u : State} (h : SameGlobals s t) (h' : SameGlobals t u) : SameGlobals s u := by
  obtain ⟨a1, a2, a3, a4, a5, a6, a7, a8, a9⟩ := h
  obtain ⟨b1, b2, b3, b4, b5, b6, b7, b8, b9⟩ := h'
  exact ⟨b1.trans a1, b2.trans a2, b3.trans a3, b4.trans a4, b5.trans a5, b6.trans a6, b7.trans a7, b8.trans a8, b9.trans a9⟩

theorem Quiet.trans {s t u : State} (h : Quiet s t) (h' : Quiet t u) : Quiet s u where
  globals := h.globals.trans h'.globals
  cmd p := (h'.cmd p).trans (h.cmd p)
  desc p := (h'.desc p).trans (h.desc p)
  payload p := (h'.payload p).trans (h.payload p)
  trace b := (h.trace b).trans (h'.trace b)

theorem quiet_setBus {s : State} {b : BusId} {u : Bus} (h : (s.bus b).trace <+: u.trace) : Quiet s (s.setBus b u) where
  globals := (onlyBus_setBus s b u).1
  cmd _ := rfl
  desc _ := rfl
  payload _ := rfl
  trace c := by
    rw [bus_setBus]
    split_ifs with hc
    · exact hc ▸ h
    · exact List.prefix_rfl

theorem quiet_respond (s : State) (p : PortIx) (w : Word) (bytes : List Byte) : Quiet s (respond s p w bytes) where
  globals := (onlyPort_setPort ..).1
  cmd q := by rw [respond, port_setPort]; split_ifs with h <;> simp [h]
  desc q := by rw [respond, port_setPort]; split_ifs with h <;> simp [h]
  payload q := by rw [respond, port_setPort]; split_ifs with h <;> simp [h]
  trace _ := List.prefix_rfl

theorem Bus.trace_consumerEnd_prefix (u : Bus) (c : Config) (b : BusId) (st : Status) (n : Nat) (bytes : List Byte) :
    u.trace <+: (u.consumerEnd c b st n bytes).trace := by
  unfold Bus.consumerEnd
  split
  · exact List.prefix_append ..
  · exact List.prefix_rfl

theorem quiet_answer (s : State) (p : PortId) (st : Status) (n : Nat) (data : Bool) (bytes : List Byte) :
    Quiet s (answer s p st n data bytes) := by
  cases p with
  | client p => exact quiet_respond ..
  | consumer b => exact quiet_setBus (Bus.trace_consumerEnd_prefix ..)

theorem quiet_i2cFinish {s : State} {b : BusId} {u : Bus} (st : Status) (h : (s.bus b).trace <+: u.trace) :
    Quiet s (i2cFinish (s.setBus b u) b st) := by
  have hend : (s.bus b).trace <+: u.i2cEnd.trace := h.trans (List.prefix_append ..)
  simp only [i2cFinish, bus_setBus_same, setBus_setBus_same]
  exact (quiet_setBus hend).trans (quiet_answer ..)

theorem quiet_spiFinish {s : State} {b : BusId} {u : Bus} (st : Status) (h : (s.bus b).trace <+: u.trace) :
    Quiet s (spiFinish (s.setBus b u) b st) := by
  simp only [spiFinish, bus_setBus_same, setBus_setBus_same]
  exact (quiet_setBus (u := u.spiEnd) h).trans (quiet_answer ..)

theorem quiet_respond_setBus {s : State} {b : BusId} {u : Bus} (h : (s.bus b).trace <+: u.trace) (p : PortIx) (w : Word)
    (bytes : List Byte) : Quiet s (respond (s.setBus b u) p w bytes) := (quiet_setBus h).trans (quiet_respond ..)

theorem AgentStep.quiet {s t : State} {m : Move} (h : AgentStep s m t) : Quiet s t := by
  cases h with
  | bus _ hu _ => exact quiet_setBus hu.trace
  | i2cEnd _ _ hu _ => exact quiet_i2cFinish _ hu.goesOn.trace
  | spiEnd _ _ hu _ => exact quiet_spiFinish _ hu.goesOn.trace
  | timeout _ => exact quiet_respond ..
  | enqueue _ _ => exact quiet_respond_setBus (by rfl) ..
  | dequeue _ ht =>
    rename_i p q b t0 T _
    rcases dequeueFor_cases s p b q with ⟨-, -, hd⟩ | ⟨-, -, hd⟩ | ⟨_, _, -, -, hd⟩ | ⟨_, _, -, -, hd⟩
    all_goals rw [hd] at ht; cases ht
    all_goals exact quiet_respond_setBus (by rfl) ..
  | grant _ _ _ => exact quiet_respond_setBus (by rfl) ..

/-! ## What a presented command leaves -/

@[simp] theorem bus_acceptedState (s : State) (p : PortIx) (d : Decoded) (b : BusId) : (acceptedState s p d).bus b = s.bus b := rfl
@[simp] theorem cfg_acceptedState (s : State) (p : PortIx) (d : Decoded) : (acceptedState s p d).cfg = s.cfg := rfl
@[simp] theorem pres_acceptedState (s : State) (p : PortIx) (d : Decoded) :
    (acceptedState s p d).pres = ⟨p, d.header, d.payload⟩ := rfl

theorem port_acceptedState_same (s : State) (p : PortIx) (d : Decoded) :
    (acceptedState s p d).port p =
      { s.port p with
        cmd := d.header, desc := (commandDesc d.instr).getD (s.port p).desc, payload := d.payload } := by
  exact port_accept_same { s with pres := ⟨p, d.header, d.payload⟩ } (commandDesc d.instr)

theorem setBus_setPort (s : State) (p : PortIx) (x : Port) (b : BusId) (u : Bus) :
    (s.setPort p x).setBus b u = (s.setBus b u).setPort p x := rfl

/-- A bus written after the command is copied in, and its port again. -/
theorem setPort_setBus_acceptedState (s : State) (p : PortIx) (d : Decoded) (b : BusId) (u : Bus) (x : Port) :
    ((acceptedState s p d).setBus b u).setPort p x = ({ s with pres := ⟨p, d.header, d.payload⟩ }.setBus b u).setPort p x := by
  rw [acceptedState, accept, setBus_setPort, setPort_setPort_same]

/-- A presenting step writes the fatal record, or its port and the bus the command names. -/
theorem PresentStep.frame {s t : State} {p : PortIx} {bytes : List Byte} (h : PresentStep s p bytes t) :
    (∃ pres c w, t = takeFatal { s with pres := pres } p c w) ∨
    ∃ d pres u x, decode s.cfg bytes = .ok d ∧ t = ({ s with pres := pres }.setBus d.instr.bus u).setPort p x ∧
      CommandBus d.instr (s.bus d.instr.bus) u ∧ (x.resp = (s.port p).resp ∨ CommandStatus x.resp) := by
  cases h with
  | illegal hw hr => exact .inl ⟨s.pres, _, _, rfl⟩
  | fault hd hc => exact .inl ⟨_, _, _, rfl⟩
  | accepted hd hc =>
    rename_i d
    obtain ⟨u, x, ht, hu, hx⟩ := commandBody_writes d.instr (acceptedState s p d)
    have hresp := hx.resp
    rw [pres_acceptedState, port_acceptedState_same] at hresp
    exact .inr ⟨d, _, u, x, hd, ht.trans (setPort_setBus_acceptedState ..), hu, hresp⟩

/-! ## Every step -/

/-- A step that answers a next state passes over its move, or takes it. -/
theorem moveStep_of_step {s t : State} (h : step s = .next t) :
    s.cfg.valid = true ∧ (t = s.nextMove.2 ∨
      (s.nextMove.1.isReset = true ∨ s.fatal = false) ∧ MoveStep s.nextMove.2 s.nextMove.1 t) := by
  obtain ⟨hv, ⟨he, hrun⟩ | ⟨-, rfl⟩⟩ := step_next h
  · refine ⟨hv, .inr ⟨?_, moveStep_of_runMove (moveEnabled_imp he) hrun⟩⟩
    simp only [moveEnabled, Bool.and_eq_true, Bool.or_eq_true, Bool.not_eq_true', fatal_nextMove] at he
    exact he.1
  · exact ⟨hv, .inl rfl⟩

section MoveStep
variable {s t : State} {m : Move} (h : MoveStep s m t)
include h

theorem MoveStep.cfg : t.cfg = s.cfg := by
  cases h with
  | present _ hp => obtain ⟨_, _, _, rfl⟩ | ⟨_, _, _, _, -, rfl, -⟩ := hp.frame <;> rfl
  | reset _ => rfl
  | clockTick => rfl
  | agent ha => exact ha.quiet.globals.cfg

theorem MoveStep.tick : t.tick = s.tick ∨ (m = .clockTick ∧ t.tick = s.tick + 1) ∨ (m.isReset = true ∧ t.tick = 0) := by
  cases h with
  | present _ hp => obtain ⟨_, _, _, rfl⟩ | ⟨_, _, _, _, -, rfl, -⟩ := hp.frame <;> exact .inl rfl
  | reset _ => exact .inr (.inr ⟨rfl, rfl⟩)
  | clockTick => exact .inr (.inl ⟨rfl, rfl⟩)
  | agent ha => exact .inl ha.quiet.globals.tick

theorem MoveStep.commandRegisters (hr : m.isReset = false) (p : PortIx) :
    ((t.port p).cmd = (s.port p).cmd ∧ (t.port p).desc = (s.port p).desc ∧ (t.port p).payload = (s.port p).payload) ∨
      ((∃ bytes, m = .present p bytes) ∧ (s.port p).pstate = .ready) := by
  cases h with
  | present hready hp =>
    rename_i q bytes
    obtain ⟨_, _, _, rfl⟩ | ⟨_, _, _, _, -, rfl, -⟩ := hp.frame
    · exact .inl ⟨rfl, rfl, rfl⟩
    · by_cases hq : p = q
      · subst hq
        exact .inr ⟨⟨bytes, rfl⟩, (presentable_iff.1 hready).2.2⟩
      · rw [port_setPort_of_ne _ _ hq]
        exact .inl ⟨rfl, rfl, rfl⟩
  | reset _ => cases hr
  | clockTick => exact .inl ⟨rfl, rfl, rfl⟩
  | agent ha => exact .inl ⟨ha.quiet.cmd p, ha.quiet.desc p, ha.quiet.payload p⟩

theorem MoveStep.trace (hr : m.isReset = false) (b : BusId) : (s.bus b).trace <+: (t.bus b).trace := by
  cases h with
  | present _ hp =>
    obtain ⟨_, _, _, rfl⟩ | ⟨_, pres, _, _, -, rfl, hu, -⟩ := hp.frame
    · exact List.prefix_rfl
    · exact (quiet_setBus (s := { s with pres := pres }) hu.trace).trace b
  | reset _ => cases hr
  | clockTick => exact List.prefix_rfl
  | agent ha => exact ha.quiet.trace b

end MoveStep

/-- Settles O12: `moveStep_of_step` has the valid configuration, and no move's step writes it. -/
theorem configurationIsValidAndFixed : Obligations.ConfigurationIsValidAndFixed := by
  intro s
  refine ⟨fun hv => by simp [step, hv], fun t h => ?_⟩
  obtain ⟨hv, rfl | ⟨-, hm⟩⟩ := moveStep_of_step h
  · exact ⟨hv, cfg_nextMove s⟩
  · exact ⟨hv, hm.cfg.trans (cfg_nextMove s)⟩

/-- Settles O14: a presenting step writes its own port, and no agent's step writes a command register. -/
theorem commandRegistersWrittenOnlyByPresenting : Obligations.CommandRegistersWrittenOnlyByPresenting := by
  intro s t h hr p
  obtain ⟨-, rfl | ⟨-, hm⟩⟩ := moveStep_of_step h
  · simp
  · simpa using hm.commandRegisters hr p

/-- Settles O16: of the moves only the clock's writes `tick`, and reset, which sets it to 0 (`MoveStep.tick`). -/
theorem tickMovesOnlyByTheClock : Obligations.TickMovesOnlyByTheClock := by
  intro s t h
  obtain ⟨-, rfl | ⟨-, hm⟩⟩ := moveStep_of_step h
  · exact .inl (tick_nextMove s)
  · simpa using hm.tick

/-- Settles O17: no step but reset is enabled in a fatal state. -/
theorem fatalFreezesTheBlock : Obligations.FatalFreezesTheBlock := by
  intro s hv hf hr
  have he : moveEnabled s.nextMove.2 s.nextMove.1 = false := (moveEnabled_fatal ((fatal_nextMove s).trans hf)).trans hr
  simp [step, takeStep, hv, he]

/-- Settles O56: each operation hands the trace on with events appended (`MoveStep.trace`). -/
theorem traceOnlyGrows : Obligations.TraceOnlyGrows := by
  intro s t h hr b
  suffices hpre : (s.bus b).trace <+: (t.bus b).trace from hpre.imp fun _ he => he.symm
  obtain ⟨-, rfl | ⟨-, hm⟩⟩ := moveStep_of_step h
  · rw [bus_nextMove]
  · simpa using hm.trace hr b

/-! ## The fatal fault (R241..R244) -/

theorem Cause.code_bounds (c : Cause) : 1 ≤ c.code.toNat ∧ c.code.toNat ≤ 4 := by cases c <;> decide

theorem AgentStep.fatal {s t : State} {m : Move} (h : AgentStep s m t) : t.fatal = s.fatal := h.quiet.globals.fatal

/-- A step that makes the block fatal presents a command and writes the fatal record alone. -/
theorem MoveStep.becomes_fatal {s t : State} {m : Move} (h : MoveStep s m t) (hs : s.fatal = false) (ht : t.fatal = true) :
    ∃ p bytes w after c, m = .present p bytes ∧ (s.port p).pstate = .ready ∧ takeWord bytes = some (w, after) ∧
      t = takeFatal { s with pres := t.pres } p c w := by
  cases h with
  | present hready hp =>
    rename_i p bytes
    have hpst := (presentable_iff.1 hready).2.2
    cases hp with
    | illegal hw hr => exact ⟨p, bytes, _, _, _, rfl, hpst, hw, rfl⟩
    | fault hd hc =>
      obtain ⟨_, _, after, hw, -⟩ := decode_ok hd
      exact ⟨p, bytes, _, after, _, rfl, hpst, hw, rfl⟩
    | accepted hd hc =>
      obtain ⟨_, _, he, -⟩ := commandBody_writes _ (acceptedState s p _)
      rw [he] at ht
      exact absurd (hs.symm.trans ht) (by decide)
  | reset _ => cases ht
  | clockTick => exact absurd (hs.symm.trans ht) (by decide)
  | agent ha => exact absurd (hs.symm.trans (ha.fatal.symm.trans ht)) (by decide)

/-- Settles O18: of all steps only a presenting one can write the fatal record, and `takeFatal` writes nothing else. -/
theorem onlyPresentingIsFatal : Obligations.OnlyPresentingIsFatal := by
  intro s t h hs ht
  have hs' : s.nextMove.2.fatal = false := (fatal_nextMove s).trans hs
  obtain ⟨-, rfl | ⟨-, hm⟩⟩ := moveStep_of_step h
  · exact absurd (hs'.symm.trans ht) (by decide)
  · obtain ⟨p, bytes, w, after, c, hmove, hready, hw, he⟩ := hm.becomes_fatal hs' ht
    obtain ⟨hlo, hhi⟩ := c.code_bounds
    refine ⟨p, bytes, w, after, c.code, hmove, by simpa using hready, hw, hlo, hhi, ?_⟩
    have hof := takeFatal_fatalOf { s.nextMove.2 with pres := t.pres } p c w
    rwa [← he] at hof

/-- Settles O19: the checks of each command are `firstFault`'s (`exec_form`), and each cause has its number. -/
theorem firstFailingCheckIsRecorded : Obligations.FirstFailingCheckIsRecorded := by
  intro s p bytes hf hp hready
  have hpres := presentable_iff.2 ⟨hf, hp, hready⟩
  refine ⟨fun h after hw hr => ⟨_, presentCommand_illegal hw hr, takeFatal_fatalOf ..⟩, fun d hd => ⟨fun c hc => ?_, fun hc => ?_⟩⟩
  · have hrun := (presentCommand_ok hd).trans (exec_fault (s := { s with pres := ⟨p, d.header, d.payload⟩ }) hpres hc)
    have hof := takeFatal_fatalOf { s with pres := ⟨p, d.header, d.payload⟩ } p c d.header
    exact ⟨_, hrun, by cases c <;> exact hof⟩
  · have hrun := (presentCommand_ok hd).trans (exec_accepted (s := { s with pres := ⟨p, d.header, d.payload⟩ }) hpres hc)
    obtain ⟨_, _, he, -⟩ := commandBody_writes d.instr (acceptedState s p d)
    exact ⟨_, hrun, (congrArg State.fatal he).trans hf⟩

/-! ## Where a status comes from (R245, R246) -/

/-- Of a port's response: it stays, or it is the word of a status of which `P` holds. -/
def Responds (P : Status → Prop) (x x' : Port) : Prop :=
  x'.resp = x.resp ∨ ∃ st n data item, x'.resp = responseWord st n data item ∧ P st

theorem responds_respond {P : Status → Prop} {st : Status} (hst : P st) (s : State) (p q : PortIx) (n : Nat) (data item : Bool)
    (bytes : List Byte) : Responds P (s.port q) ((respond s p (responseWord st n data item) bytes).port q) := by
  rw [respond, port_setPort]
  split_ifs
  · exact .inr ⟨st, n, data, item, rfl, hst⟩
  · exact .inl rfl

theorem responds_answer {P : Status → Prop} {st : Status} (hst : P st) (s : State) (p : PortId) (q : PortIx) (n : Nat) (data : Bool)
    (bytes : List Byte) : Responds P (s.port q) ((answer s p st n data bytes).port q) := by
  cases p with
  | client p => exact responds_respond hst ..
  | consumer b => exact .inl rfl

/-- The source of a status an agent's step gives port `p`: the end of a job, or OK, or the timeout of the port's wait. -/
def AgentStatus (s : State) (m : Move) (p : PortIx) (st : Status) : Prop :=
  (∃ b, EndStatus s b m st) ∨ (m = .portTimeout p ∧ 4 ≤ st.code.toNat)

theorem agentStatus_ok (s : State) (m : Move) (p : PortIx) : AgentStatus s m p .ok := .inl ⟨0, trivial⟩

theorem WaitKind.four_le_timeoutStatus (k : WaitKind) : 4 ≤ k.timeoutStatus.code.toNat := by
  cases k <;> simp [WaitKind.timeoutStatus, Status.code]

theorem AgentStep.responds {s t : State} {m : Move} (h : AgentStep s m t) (p : PortIx) :
    Responds (AgentStatus s m p) (s.port p) (t.port p) := by
  cases h with
  | bus _ _ _ => exact .inl rfl
  | i2cEnd _ _ _ hst => exact responds_answer (.inl ⟨_, hst⟩) ..
  | spiEnd _ _ _ hst => exact responds_answer (.inl ⟨_, hst⟩) ..
  | timeout hw =>
    rename_i q w
    by_cases hq : p = q
    · subst hq
      exact responds_respond (.inr ⟨rfl, w.kind.four_le_timeoutStatus⟩) ..
    · exact .inl (congrArg Port.resp (port_respond_of_ne _ _ _ hq))
  | enqueue _ _ => exact responds_respond (agentStatus_ok ..) ..
  | dequeue _ ht =>
    rename_i q sel b t0 T _
    rcases dequeueFor_cases s q b sel with ⟨-, -, hd⟩ | ⟨-, -, hd⟩ | ⟨_, _, -, -, hd⟩ | ⟨_, _, -, -, hd⟩
    all_goals rw [hd] at ht; cases ht
    all_goals exact responds_respond (agentStatus_ok ..) ..
  | grant _ _ _ => exact responds_respond (agentStatus_ok ..) ..

/-- The source of a status a step gives port `p` by move `m`: an agent's, or the port's own command. -/
def StatusSource (s : State) (m : Move) (p : PortIx) (st : Status) : Prop :=
  AgentStatus s m p st ∨ ((∃ bytes, m = .present p bytes) ∧ 4 ≤ st.code.toNat)

theorem MoveStep.responds {s t : State} {m : Move} (h : MoveStep s m t) (p : PortIx) :
    Responds (StatusSource s m p) (s.port p) (t.port p) := by
  cases h with
  | @present q bytes _ _ hp =>
    obtain ⟨_, _, _, rfl⟩ | ⟨_, _, _, _, -, rfl, -, hresp⟩ := hp.frame
    · exact .inl rfl
    · by_cases hq : p = q
      · subst hq
        rw [port_setPort_same]
        refine hresp.imp_right ?_
        rintro ⟨st, n, data, item, hw, hst⟩
        exact ⟨st, n, data, item, hw, hst.elim (fun h => h ▸ .inl (agentStatus_ok ..)) fun h => .inr ⟨⟨bytes, rfl⟩, h⟩⟩
      · exact .inl (congrArg Port.resp (port_setPort_of_ne _ _ hq))
  | reset _ => exact .inr ⟨.ok, 0, false, false, by rw [port_resetBlock]; rfl, .inl (agentStatus_ok ..)⟩
  | clockTick => exact .inl rfl
  | agent ha => exact (ha.responds p).imp_right fun ⟨st, n, data, item, hw, hst⟩ => ⟨st, n, data, item, hw, .inl hst⟩

/-- Settles O58: each status a step can give has its source, and the status is read back from the response word. -/
theorem statusComesFromItsSource : Obligations.StatusComesFromItsSource := by
  intro s t p h hne
  obtain ⟨-, rfl | ⟨-, hm⟩⟩ := moveStep_of_step h
  · exact absurd (by simp) hne
  · obtain hsame | ⟨st, n, data, item, hw, hst⟩ := hm.responds p
    · exact absurd (by simpa using hsame) hne
    · simp only [hw, responseWord_status]
      rcases hst with (⟨b, hend⟩ | ⟨hmove, hle⟩) | ⟨hmove, hle⟩
      case inl.inl =>
        cases st with
        | ok => simp [Status.code]
        | addrNack => simpa [Status.code] using ⟨b, hend⟩
        | dataNack => simpa [Status.code] using ⟨b, hend.1, by simpa using hend.2⟩
        | busTimeout => simpa [Status.code] using ⟨by simpa using hend.1, b, hend.2⟩
        | lockTimeout | queueFull | queueEmpty => exact hend.elim
      all_goals cases st <;> simp [Status.code, hmove] at hle ⊢

end Sys2Proof.Machine
end

section
/-! PROOFS. Every step keeps the invariant of the block (spec/10_state.md R38). -/

namespace Sys2Proof.Machine

/-! ## Writing one bus, or one bus and one port -/

section Update
variable {s : State} {b : BusId} {u : Bus} {p : PortIx} {x : Port}

/-- The invariant after one bus is written, where no client's job begins or ends. -/
theorem Inv.setBus (hi : Inv s) (hu : BusInv s.cfg b u) (hr : ∀ q, RunsFor u q ↔ RunsFor (s.bus b) q) : Inv (s.setBus b u) := by
  have hruns : ∀ c q, RunsFor ((s.setBus b u).bus c) q ↔ RunsFor (s.bus c) q := by
    intro c q
    rw [bus_setBus]
    split_ifs with hc
    · exact hc ▸ hr q
    · exact Iff.rfl
  constructor
  case buses =>
    intro c
    rw [bus_setBus]
    split_ifs with hc
    · exact hc ▸ hu
    · exact hi.buses c
  case running => exact fun c q h => hi.running c q ((hruns c q).1 h)
  case single => exact fun c c' q h h' => hi.single c c' q ((hruns c q).1 h) ((hruns c' q).1 h')
  case executing => exact fun q h => (hi.executing q h).imp fun c => (hruns c q).2
  case waiting => exact hi.waiting

/-- The invariant after a bus and a port are written: the port is Executing exactly when the bus runs its job, and no other bus does. -/
theorem Inv.update (hi : Inv s) (hu : BusInv s.cfg b u) (hq : ∀ q, q ≠ p → (RunsFor u q ↔ RunsFor (s.bus b) q))
    (hother : ∀ c, c ≠ b → ¬ RunsFor (s.bus c) p) (hx : x.pstate = .executing ↔ RunsFor u p)
    (hw : ∀ c t0 T, x.pstate = .waiting ⟨.enqWait, c, t0, T⟩ → RequestOk s.cfg c (requestOf s.cfg c x.desc x.payload)) :
    Inv ((s.setBus b u).setPort p x) := by
  have hne : ∀ c q, q ≠ p → (RunsFor ((s.setBus b u).bus c) q ↔ RunsFor (s.bus c) q) := by
    intro c q hqp
    rw [bus_setBus]
    split_ifs with hc
    · exact hc ▸ hq q hqp
    · exact Iff.rfl
  have hp : ∀ c, RunsFor ((s.setBus b u).bus c) p ↔ c = b ∧ x.pstate = .executing := by
    intro c
    rw [bus_setBus, hx]
    split_ifs with hc
    · simp [hc]
    · simp [hc, hother c hc]
  constructor
  case buses =>
    intro c
    rw [bus_setPort, bus_setBus]
    split_ifs with hc
    · exact hc ▸ hu
    · exact hi.buses c
  case running =>
    intro c q h
    by_cases hqp : q = p
    · subst hqp; rw [port_setPort_same]; exact ((hp c).1 h).2
    · rw [port_setPort_of_ne _ _ hqp]; exact hi.running c q ((hne c q hqp).1 h)
  case single =>
    intro c c' q h h'
    by_cases hqp : q = p
    · subst hqp; exact ((hp c).1 h).1.trans ((hp c').1 h').1.symm
    · exact hi.single c c' q ((hne c q hqp).1 h) ((hne c' q hqp).1 h')
  case executing =>
    intro q h
    by_cases hqp : q = p
    · subst hqp; rw [port_setPort_same] at h; exact ⟨b, (hp b).2 ⟨rfl, h⟩⟩
    · rw [port_setPort_of_ne _ _ hqp] at h; exact (hi.executing q h).imp fun c => (hne c q hqp).2
  case waiting =>
    intro q c t0 T h
    by_cases hqp : q = p
    · subst hqp; rw [port_setPort_same] at h ⊢; exact hw c t0 T h
    · rw [port_setPort_of_ne _ _ hqp] at h ⊢; exact hi.waiting q c t0 T h

theorem Inv.not_runsFor (hi : Inv s) (hp : (s.port p).pstate ≠ .executing) (c : BusId) : ¬ RunsFor (s.bus c) p :=
  fun h => hp (hi.running c p h)

/-- A port that no job runs for is written, and a bus where no job begins or ends. -/
theorem Inv.update_idle (hi : Inv s) (hp : (s.port p).pstate ≠ .executing) (hu : BusInv s.cfg b u)
    (hr : ∀ q, RunsFor u q ↔ RunsFor (s.bus b) q) (hx : x.pstate ≠ .executing)
    (hw : ∀ c t0 T, x.pstate = .waiting ⟨.enqWait, c, t0, T⟩ → RequestOk s.cfg c (requestOf s.cfg c x.desc x.payload)) :
    Inv ((s.setBus b u).setPort p x) :=
  hi.update hu (fun q _ => hr q) (fun c _ => hi.not_runsFor hp c)
    (iff_of_false hx fun h => hi.not_runsFor hp b ((hr p).1 h)) hw

/-- A port that no job runs for is answered. -/
theorem Inv.respond (hi : Inv s) (hp : (s.port p).pstate ≠ .executing) (hu : BusInv s.cfg b u)
    (hr : ∀ q, RunsFor u q ↔ RunsFor (s.bus b) q) (w : Word) (bytes : List Byte) : Inv (respond (s.setBus b u) p w bytes) :=
  hi.update_idle hp hu hr (by simp) (by simp)

theorem Inv.setPort (hi : Inv s) (hp : (s.port p).pstate ≠ .executing) (hx : x.pstate ≠ .executing)
    (hw : ∀ c t0 T, x.pstate = .waiting ⟨.enqWait, c, t0, T⟩ → RequestOk s.cfg c (requestOf s.cfg c x.desc x.payload)) :
    Inv (s.setPort p x) := by
  have h := hi.update_idle (b := 0) hp (hi.buses 0) (fun _ => Iff.rfl) hx hw
  rwa [setBus_self] at h

/-- The job of a client port begins. -/
theorem Inv.setExecuting (hi : Inv s) (hp : (s.port p).pstate ≠ .executing) (hu : BusInv s.cfg b u) (hrest : ¬ (s.bus b).active)
    (hact : u.active) (hport : u.job.port = .client p) : Inv (setExecuting (s.setBus b u) p) := by
  refine hi.update hu (fun q hq => ?_) (fun c _ => hi.not_runsFor hp c) (iff_of_true rfl ⟨hact, hport⟩) (by simp)
  refine iff_of_false (fun h => hq ?_) fun h => hrest h.1
  have := h.2.symm.trans hport
  simpa using this

end Update

/-! ## The end of a job (R147, R182, R214) -/

/-- `e` is `u` with its engine at rest. -/
structure Rests (u e : Bus) : Prop where
  rest : e.atRest
  lockOwner : e.lockOwner = u.lockOwner
  job : e.job = u.job
  cs : e.cs = u.cs
  rq : e.rq = u.rq
  rsp : e.rsp = u.rsp
  consState : e.consState = u.consState
  creq : e.creq = u.creq

section End
variable {c : Config} {b : BusId} {u e : Bus}

theorem Settled.rests_i2cEnd (h : Settled c b u) (hk : c.isTwoWire b = true) : Rests u u.i2cEnd where
  rest := ⟨rfl, (h.spi_idle hk).1, fun _ => ⟨rfl, rfl, rfl, rfl, rfl, rfl⟩, h.idleFlags.2⟩
  lockOwner := rfl
  job := rfl
  cs := rfl
  rq := rfl
  rsp := rfl
  consState := rfl
  creq := rfl

theorem Settled.rests_spiEnd (h : Settled c b u) (hk : c.isFourWire b = true) : Rests u u.spiEnd where
  rest := ⟨h.i2c_idle hk, rfl, h.idleFlags.1, fun _ => rfl⟩
  lockOwner := rfl
  job := rfl
  cs := rfl
  rq := rfl
  rsp := rfl
  consState := rfl
  creq := rfl

theorem Bus.atRest.not_active (h : e.atRest) : ¬ e.active := by
  obtain ⟨hi, hs, -⟩ := h
  simp [Bus.active, hi, hs]

theorem Bus.atRest.byteInFlight (h : e.atRest) : ByteInFlight e := by
  obtain ⟨hi, hs, -⟩ := h
  simp [ByteInFlight, hi, hs]

/-- The job of a client ends: the lock stays. -/
theorem Rests.busInv (hr : Rests u e) (h : Settled c b u) (hc : u.consState ≠ .cRun) : BusInv c b e where
  ownerRuns ha := absurd ha hr.rest.not_active
  selectInLock := by rw [SelectInLock, hr.cs, hr.lockOwner]; exact h.selectInLock
  idleFlags := hr.rest.2.2
  queues := by rw [QueuesFit, hr.rq, hr.rsp]; exact h.queues
  counts := by rw [CountsFit, hr.job]; exact h.counts
  kind := ⟨fun _ => hr.rest.1, fun hn => ⟨hr.rest.2.1, hr.cs.trans (h.kind.2 hn).2⟩⟩
  bytes := hr.rest.byteInFlight
  requests := by rw [RequestsOk, hr.rq, hr.consState, hr.creq]; exact h.requests
  owner := by
    rw [OwnerLegal, hr.lockOwner, hr.consState]
    exact ⟨h.owner.1, h.owner.2.1, fun hrun => absurd hrun hc⟩

/-- R214: whatever line is asserted goes down. -/
theorem Bus.consumerEnd_eq (hcs : c.isFourWire b = false → e.cs = 0) (st : Status) (n : Nat) (bytes : List Byte) :
    ∃ tr, e.consumerEnd c b st n bytes =
      { e with
        cs := 0, trace := tr, lockOwner := none, consState := .cPush
        cres := ⟨st, n, e.creq.dir == .read, if e.creq.dir = .read then bytes else []⟩ } := by
  cases hk : c.isFourWire b
  · refine ⟨e.trace, ?_⟩
    simp only [Bus.consumerEnd, hk, Bool.false_eq_true, if_false, ← hcs hk]
  · exact ⟨_, by simp only [Bus.consumerEnd, hk, if_true]; rfl⟩

/-- The consumer's job ends: the lines go down and the lock is freed. -/
theorem Rests.busInv_consumerEnd (hr : Rests u e) (h : Settled c b u) (st : Status) (n : Nat) (bytes : List Byte) :
    BusInv c b (e.consumerEnd c b st n bytes) ∧ ¬ (e.consumerEnd c b st n bytes).active := by
  obtain ⟨tr, he⟩ := Bus.consumerEnd_eq (c := c) (b := b) (fun hk => hr.cs.trans (h.kind.2 hk).2) st n bytes
  rw [he]
  refine ⟨?_, hr.rest.not_active⟩
  exact
    { ownerRuns := fun ha => absurd ha hr.rest.not_active
      selectInLock := ⟨.inl rfl, fun hne => absurd rfl hne⟩
      idleFlags := hr.rest.2.2
      queues := by have := h.queues; rwa [QueuesFit, ← hr.rq, ← hr.rsp] at this
      counts := by have := h.counts; rwa [CountsFit, ← hr.job] at this
      kind := ⟨fun _ => hr.rest.1, fun _ => ⟨hr.rest.2.1, rfl⟩⟩
      bytes := hr.rest.byteInFlight
      requests := ⟨by have := h.requests.1; rwa [← hr.rq] at this, by simp⟩
      owner := ⟨by simp, by simp, by simp⟩ }

/-- A client's job is not the consumer's. -/
theorem Settled.not_cRun (h : Settled c b u) {p : PortIx} (hp : u.job.port = .client p) : u.consState ≠ .cRun := by
  intro hrun
  have := (h.owner.2.2 hrun).2
  rw [hp] at this
  cases this

theorem Inv.answer {s : State} (hi : Inv s) (hu : Ending s.cfg b (s.bus b) u) (hr : Rests u e) (st : Status) (n : Nat) (data : Bool)
    (bytes : List Byte) : Inv (answer (s.setBus b e) u.job.port st n data bytes) := by
  have hset := hu.settled (hi.buses b)
  have hnone : ∀ q, ¬ RunsFor e q := fun q h => hr.rest.not_active h.1
  cases hp : u.job.port with
  | client p =>
    have hport := hu.goesOn.port.symm.trans hp
    have hruns : RunsFor (s.bus b) p := ⟨hu.active, hport⟩
    refine hi.update (hr.busInv hset (hset.not_cRun hp)) (fun q hq => iff_of_false (hnone q) fun h => hq ?_)
      (fun c hc h => hc (hi.single c b p h hruns)) (iff_of_false (by simp) (hnone p)) (by simp)
    have := h.2.symm.trans hport
    simpa using this
  | consumer b' =>
    have hport := hu.goesOn.port.symm.trans hp
    obtain rfl := (((hi.buses b).ownerRuns hu.active).2 b' hport).1
    rw [answer_consumer, consumerDone, bus_setBus_same, setBus_setBus_same]
    obtain ⟨hinv, hrest⟩ := hr.busInv_consumerEnd hset st n bytes
    refine hi.setBus hinv fun q => iff_of_false (fun h => hrest h.1) fun h => ?_
    have := h.2.symm.trans hport
    cases this

end End

theorem Inv.i2cFinish {s : State} {b : BusId} {u : Bus} (hi : Inv s) (hk : s.cfg.isTwoWire b = true)
    (hu : Ending s.cfg b (s.bus b) u) (st : Status) : Inv (i2cFinish (s.setBus b u) b st) := by
  have h := hi.answer hu ((hu.settled (hi.buses b)).rests_i2cEnd hk) st u.job.idx u.job.hasData u.i2cData
  simpa only [Machine.i2cFinish, bus_setBus_same, setBus_setBus_same] using h

theorem Inv.spiFinish {s : State} {b : BusId} {u : Bus} (hi : Inv s) (hk : s.cfg.isFourWire b = true)
    (hu : Ending s.cfg b (s.bus b) u) (st : Status) : Inv (spiFinish (s.setBus b u) b st) := by
  have h := hi.answer hu ((hu.settled (hi.buses b)).rests_spiEnd hk) st u.job.idx true (bufPrefix u.jobBuf u.job.idx)
  simpa only [Machine.spiFinish, bus_setBus_same, setBus_setBus_same] using h

/-! ## The lock and the FIFOs (R110, R112, R201, R203) -/

section Bus
variable {c : Config} {b : BusId} {u : Bus}

theorem BusInv.takeLock (h : BusInv c b u) (hl : u.lockOwner = none) {p : PortIx} (hp : p.val < c.nPort) :
    BusInv c b { u with lockOwner := some (.client p) } :=
  have hact : ¬ u.active := fun ha => by simp [(h.ownerRuns ha).1] at hl
  { h with
    ownerRuns := fun ha => absurd ha hact
    selectInLock := ⟨h.selectInLock.1, by simp⟩
    owner := ⟨fun q hq => by cases hq; exact hp, by simp, fun hrun => absurd (h.owner.2.2 hrun).1 hact⟩ }

theorem BusInv.releaseLock (h : BusInv c b u) (hact : ¬ u.active) (hcs : u.cs = 0) : BusInv c b { u with lockOwner := none } :=
  { h with
    ownerRuns := fun ha => absurd ha hact
    selectInLock := ⟨h.selectInLock.1, fun hne => absurd hcs hne⟩
    owner := ⟨by simp, by simp, fun hrun => absurd (h.owner.2.2 hrun).1 hact⟩ }

/-- The lines of a four-wire bus whose lock is held may change, one at most being asserted. -/
theorem BusInv.withLines (h : BusInv c b u) (hk : c.isFourWire b = true) (hl : u.lockOwner ≠ none) {cs : BitVec 16}
    (hcs : cs = 0 ∨ ∃ sl, cs = csBit sl) (tr : List WireEvent) : BusInv c b { u with cs := cs, trace := tr } :=
  { h with
    selectInLock := ⟨hcs, fun _ => hl⟩
    kind := ⟨h.kind.1, fun hn => absurd (hn.symm.trans hk) (by decide)⟩ }

theorem BusInv.enqueue (h : BusInv c b u) {r : Request} (hr : RequestOk c b r) (hroom : u.rq.length < c.rqDepth b) :
    BusInv c b { u with rq := u.rq ++ [r] } :=
  { h with
    queues := ⟨by simpa using hroom, h.queues.2⟩
    requests := ⟨fun x hx => (List.mem_append.1 hx).elim (h.requests.1 x) fun hx => by rw [List.mem_singleton.1 hx]; exact hr,
      h.requests.2⟩ }

theorem BusInv.dequeueRq (h : BusInv c b u) {r : Request} {rest : List Request} (hq : u.rq = r :: rest) :
    BusInv c b { u with rq := rest } :=
  have hle : rest.length ≤ u.rq.length := by simp [hq]
  { h with
    queues := ⟨hle.trans h.queues.1, h.queues.2⟩
    requests := ⟨fun x hx => h.requests.1 x (hq ▸ List.mem_cons_of_mem _ hx), h.requests.2⟩ }

theorem BusInv.dequeueRsp (h : BusInv c b u) {e : Response} {rest : List Response} (hq : u.rsp = e :: rest) :
    BusInv c b { u with rsp := rest } :=
  have hle : rest.length ≤ u.rsp.length := by simp [hq]
  { h with queues := ⟨h.queues.1, hle.trans h.queues.2⟩ }

end Bus

section Port
variable {s : State} {p : PortIx} {b : BusId}

theorem Inv.takeLock (hi : Inv s) (hp : (s.port p).pstate ≠ .executing) (hn : p.val < s.cfg.nPort) (hl : (s.bus b).lockOwner = none) :
    Inv (takeLock s b p) := hi.respond hp ((hi.buses b).takeLock hl hn) (fun _ => Iff.rfl) ..

theorem Inv.enqueueFor (hi : Inv s) (hp : (s.port p).pstate ≠ .executing)
    (hr : RequestOk s.cfg b (requestOf s.cfg b (s.port p).desc (s.port p).payload)) (hroom : (s.bus b).rq.length < s.cfg.rqDepth b) :
    Inv (enqueueFor s p b) := hi.respond hp ((hi.buses b).enqueue hr hroom) (fun _ => Iff.rfl) ..

theorem Inv.dequeueFor (hi : Inv s) (hp : (s.port p).pstate ≠ .executing) {q : QSel} {t : State} (ht : dequeueFor s p b q = some t) :
    Inv t := by
  rcases dequeueFor_cases s p b q with ⟨-, -, hd⟩ | ⟨-, -, hd⟩ | ⟨_, _, -, hq, hd⟩ | ⟨_, _, -, hq, hd⟩
  all_goals rw [hd] at ht; cases ht
  · exact hi.respond hp ((hi.buses b).dequeueRq hq) (fun _ => Iff.rfl) ..
  · exact hi.respond hp ((hi.buses b).dequeueRsp hq) (fun _ => Iff.rfl) ..

end Port

theorem AgentStep.inv {s t : State} {m : Move} (h : AgentStep s m t) (hi : Inv s) : Inv t := by
  have hwait {p : PortIx} {w : Wait} (hw : (s.port p).pstate = .waiting w) : (s.port p).pstate ≠ .executing := by simp [hw]
  cases h with
  | bus _ hu _ => exact hi.setBus (hu.inv (hi.buses _)) (hu.runs (hi.buses _))
  | i2cEnd _ hk hu _ => exact hi.i2cFinish hk hu _
  | spiEnd _ hk hu _ => exact hi.spiFinish hk hu _
  | timeout hw => exact hi.setPort (hwait hw) (by simp) (by simp)
  | enqueue hw hroom => exact hi.enqueueFor (hwait hw) (hi.waiting _ _ _ _ hw) hroom
  | dequeue hw ht => exact hi.dequeueFor (hwait hw) ht
  | grant hq hl hw => exact hi.takeLock (hwait hw) hq hl

/-! ## The commands -/

/-- A port that owns a lock and runs no job leaves the bus's engine at rest. -/
theorem Inv.not_active_of_owner {s : State} {p : PortIx} {b : BusId} (hi : Inv s) (hp : (s.port p).pstate ≠ .executing)
    (hl : (s.bus b).lockOwner = some (.client p)) : ¬ (s.bus b).active := by
  intro ha
  have hown := ((hi.buses b).ownerRuns ha).1
  rw [hl, Option.some.injEq] at hown
  exact hi.not_runsFor hp b ⟨ha, hown.symm⟩

theorem Bus.not_active_iff {u : Bus} : ¬ u.active ↔ u.i2cState = .idle ∧ u.spiState = .idle := by
  simp [Bus.active]

/-- The slave a four-wire descriptor names is the one its request names. -/
theorem requestOf_slave {c : Config} {b : BusId} {d : Word} {payload : List Byte} (hk : c.isFourWire b = true) :
    (requestOf c b d payload).slave = descriptorSlave d := by
  have hwide (v : BitVec 4) : (v.setWidth 7).setWidth 4 = v := by simp
  simp only [Request.slave, requestOf, descriptorTarget, hk, if_true]
  exact hwide _

/-- R205: the request a command asks for is in range and has its data, once the command's checks pass. -/
theorem requestOk_of_checks {c : Config} {b : BusId} {T : Timeout} {d : Word} {payload : List Byte}
    (hl : lengthOk c (.chEnqReq b T d) = true) (hs : slaveOk c (.chEnqReq b T d) = true)
    (hpay : payload.length = payloadLen c (.chEnqReq b T d)) : RequestOk c b (requestOf c b d payload) := by
  have hdata : (requestOf c b d payload).data.length = if !descriptorIsRead d || c.isFourWire b then (descriptorLen d).toNat else 0 := by
    simp only [requestOf, List.length_take]
    exact min_eq_left hpay.symm.le
  have hlen : (requestOf c b d payload).len = d.extractLsb' 0 6 := rfl
  have hdir : (requestOf c b d payload).dir = if d.getLsbD 15 then .read else .write := rfl
  simp only [RequestOk, hlen, hdir]
  cases hk : c.isFourWire b
  case true =>
    simp only [lengthOk, slaveOk, hk, if_true, decide_eq_true_eq, Bool.not_true, Bool.false_or] at hl hs
    simp only [hk, Bool.or_true, if_true] at hdata
    exact ⟨fun _ => ⟨requestOf_slave hk ▸ hs, hl⟩, by simp, fun _ => hdata, by simp⟩
  case false =>
    simp [lengthOk, hk] at hl
    simp only [hk, Bool.or_false, descriptorIsRead] at hdata
    cases hr : d[15]
    · simp [hr] at hdata hl ⊢
      exact ⟨hl, hdata⟩
    · simp [hr] at hdata hl ⊢
      exact ⟨⟨hl.1, by omega⟩, hdata⟩

/-- The state in which a command runs: its port is Ready, its checks pass, and its payload has its length. -/
structure Accepted (s : State) (i : Instr) : Prop where
  ready : (s.port s.pres.port).pstate = .ready
  client : s.pres.port.val < s.cfg.nPort
  passes : firstFault s s.pres.port i = none
  payload : (s.port s.pres.port).payload.length = payloadLen s.cfg i
  desc : ∀ d, commandDesc i = some d → (s.port s.pres.port).desc = d

section Commands
variable {s : State} {b : BusId} (hi : Inv s) (hready : (s.port s.pres.port).pstate ≠ .executing) (hn : s.pres.port.val < s.cfg.nPort)
  (hl : (s.bus b).lockOwner = some (.client s.pres.port))
include hi hready hn hl

theorem Inv.mayOwn : MayOwn s.cfg b (s.bus b) (s.bus b).consState (.client s.pres.port) :=
  ⟨hn, rfl, fun hrun => hi.not_active_of_owner hready hl ((hi.buses b).owner.2.2 hrun).1⟩

theorem Inv.startI2c (hk : s.cfg.isTwoWire b = true) {dir : Dir} {n : BitVec 6} (hread : dir = .read → 1 ≤ n.toNat) (a : Addr7)
    (dest : Dest) (data : List Byte) :
    Inv (Machine.setExecuting (s.setBus b ((s.bus b).startI2c s.tick (.client s.pres.port) dir a n.toNat dest data)) s.pres.port) := by
  have hrest := hi.not_active_of_owner hready hl
  exact hi.setExecuting hready
    (busInv_startI2c (hi.buses b) (Bus.not_active_iff.1 hrest) hk hl (hi.mayOwn hready hn hl) (by omega) hread a dest s.tick _)
    hrest (.inl (by simp [Bus.startI2c])) rfl

theorem Inv.startSpi (hk : s.cfg.isFourWire b = true) {n : Nat} (hpos : 0 < n) (hlen : n ≤ 63) (data : List Byte) :
    Inv (Machine.setExecuting (s.setBus b ((s.bus b).startSpi s.tick (.client s.pres.port) data n)) s.pres.port) := by
  have hrest := hi.not_active_of_owner hready hl
  exact hi.setExecuting hready
    (busInv_startSpi (hi.buses b) (Bus.not_active_iff.1 hrest) hk hl (hi.mayOwn hready hn hl) hpos hlen (hi.buses b).selectInLock.1
      s.tick _ _)
    hrest (.inr (by simp [Bus.startSpi])) rfl

end Commands

theorem Bus.select_eq {u : Bus} (hcs : u.cs = 0) (sl : SlaveId) :
    u.select sl = { u with cs := csBit sl, trace := u.trace ++ [.cs sl true] } := by
  simp [Bus.select, Bus.emit, hcs]

/-- Where one line at most is asserted, none is after a deselect of it, and the same one after a deselect of another. -/
theorem Bus.deselect_eq {u : Bus} (h : u.cs = 0 ∨ ∃ s, u.cs = csBit s) (sl : SlaveId) :
    ∃ cs tr, u.deselect sl = { u with cs := cs, trace := tr } ∧ (cs = 0 ∨ ∃ s, cs = csBit s) := by
  unfold Bus.deselect
  split
  case isTrue hsl =>
    refine ⟨_, _, rfl, ?_⟩
    obtain h0 | ⟨s, hs⟩ := h
    · simp [h0]
    · rw [hs, csBit_getLsbD, decide_eq_true_iff] at hsl
      rw [hs, hsl, csBit_clear]
      exact .inl rfl
  case isFalse => exact ⟨_, _, rfl, h⟩

theorem commandBody_inv {s : State} {i : Instr} (hi : Inv s) (ha : Accepted s i) : Inv (commandBody i s) := by
  obtain ⟨hready, hn, hpass, hpay, hdesc⟩ := ha
  obtain ⟨hbus, hkind, hres, hlen, hslave, hlock, hsel⟩ := firstFault_eq_none_iff.1 hpass
  have hp : (s.port s.pres.port).pstate ≠ .executing := by simp [hready]
  cases i with
  | lockAcquire b T =>
    simp only [commandBody]
    split_ifs with hl
    · exact hi.takeLock hp hn hl
    · exact hi.setPort hp (by simp) (by simp)
    · exact hi.setPort hp (by simp) (by simp)
  | lockRelease b =>
    have hrest := hi.not_active_of_owner hp (hlock rfl)
    have hcs : (s.bus b).cs = 0 := by
      cases hk : s.cfg.isFourWire b
      · exact ((hi.buses b).kind.2 hk).2
      · simpa [selectOk, hk] using hsel
    exact hi.respond hp ((hi.buses b).releaseLock hrest hcs) (fun _ => Iff.rfl) ..
  | i2cWrite b a n => exact hi.startI2c hp hn (hlock rfl) hkind (fun h => absurd h (by decide)) ..
  | i2cRead b dest a n =>
    have hk : s.cfg.isTwoWire b = true := by simp [kindOk] at hkind; exact hkind.1
    have hread : 1 ≤ n.toNat := by simp [lengthOk] at hlen; omega
    exact hi.startI2c hp hn (hlock rfl) hk (fun _ => hread) ..
  | spiSelect b sl =>
    have hcs : (s.bus b).cs = 0 := by simpa [selectOk] using hsel
    have hl : (s.bus b).lockOwner ≠ none := by simp [show (s.bus b).lockOwner = _ from hlock rfl]
    have hu : BusInv s.cfg b ((s.bus b).select sl) := Bus.select_eq hcs sl ▸ (hi.buses b).withLines hkind hl (.inr ⟨sl, rfl⟩) _
    exact hi.respond hp hu (fun _ => Iff.rfl) ..
  | spiDeselect b sl =>
    have hl : (s.bus b).lockOwner ≠ none := by simp [show (s.bus b).lockOwner = _ from hlock rfl]
    obtain ⟨cs, tr, he, hcs⟩ := Bus.deselect_eq (hi.buses b).selectInLock.1 sl
    have hu : BusInv s.cfg b ((s.bus b).deselect sl) := he ▸ (hi.buses b).withLines hkind hl hcs tr
    exact hi.respond hp hu (fun q => by rw [he]; exact Iff.rfl) ..
  | spiXferByte b tx => exact hi.startSpi (n := 1) hp hn (hlock rfl) hkind (by decide) (by decide) ..
  | spiXferBuf b n =>
    simp only [commandBody]
    split_ifs with h0
    · exact hi.setPort hp (by simp) (by simp)
    · have hpos : 0 < n.toNat := Nat.pos_of_ne_zero fun hz => h0 (BitVec.eq_of_toNat_eq hz)
      exact hi.startSpi hp hn (hlock rfl) hkind hpos (by omega) ..
  | chEnqReq b T d =>
    have hd := hdesc d rfl
    have hreq : RequestOk s.cfg b (requestOf s.cfg b (s.port s.pres.port).desc (s.port s.pres.port).payload) :=
      hd ▸ requestOk_of_checks hlen hslave hpay
    simp only [commandBody]
    split_ifs with hroom
    · exact hi.enqueueFor hp hreq (rqHasRoom_iff.1 hroom)
    · exact hi.setPort hp (by simp) (by simp)
    · refine hi.setPort hp (by simp) fun c t0 T' hw => ?_
      cases hw
      exact hreq
  | chDeq b q T =>
    simp only [commandBody]
    split
    · rename_i t ht
      exact hi.dequeueFor hp ht
    · split_ifs
      · exact hi.setPort hp (by simp) (by simp)
      · exact hi.setPort hp (by simp) (by simp)

/-! ## Every step -/

/-- The moves still to come, the free moves taken, the command interface and `tick` are no part of the invariant. -/
theorem Inv.congr {s t : State} (hi : Inv s) (hc : t.cfg = s.cfg) (hb : t.buses = s.buses) (hp : t.ports = s.ports) : Inv t := by
  have hbus : ∀ b, t.bus b = s.bus b := fun b => by simp only [State.bus, hb]
  have hport : ∀ p, t.port p = s.port p := fun p => by simp only [State.port, hp]
  constructor <;> simp only [hc, hbus, hport]
  · exact hi.buses
  · exact hi.running
  · exact hi.single
  · exact hi.executing
  · exact hi.waiting

theorem Inv.nextMove {s : State} (hi : Inv s) : Inv s.nextMove.2 := by
  unfold State.nextMove
  split <;> exact hi.congr rfl rfl rfl

theorem accepted_acceptedState {s : State} {p : PortIx} {bytes : List Byte} {d : Decoded} (hp : presentable s p = true)
    (hd : decode s.cfg bytes = .ok d) (hc : firstFault s p d.instr = none) : Accepted (acceptedState s p d) d.instr := by
  obtain ⟨-, hn, hready⟩ := presentable_iff.1 hp
  obtain ⟨_, _, _, _, _, _, _, hlen⟩ := decode_ok hd
  constructor <;> simp only [pres_acceptedState, port_acceptedState_same]
  · exact hready
  · exact hn
  · exact hc
  · exact hlen
  · intro w hw
    simp [hw]

theorem Inv.acceptedState {s : State} {p : PortIx} (hi : Inv s) (hp : presentable s p = true) (d : Decoded) :
    Inv (acceptedState s p d) := by
  have hready := (presentable_iff.1 hp).2.2
  have hi' : Inv { s with pres := ⟨p, d.header, d.payload⟩ } := hi.congr rfl rfl rfl
  exact hi'.setPort (p := p) (by simp [hready]) (by simp [hready]) (by simp [hready])

theorem inv_resetOf (c : Config) (busy : BitVec 16) : Inv (State.resetOf c busy) := by
  have hact (b) : ¬ ((State.resetOf c busy).bus b).active := by simp [Bus.active, Bus.reset]
  constructor
  case buses =>
    intro b
    rw [bus_resetOf]
    constructor <;> simp [OwnerRuns, SelectInLock, IdleFlagsClear, QueuesFit, CountsFit, EngineOfKind, ByteInFlight, RequestsOk,
      OwnerLegal, Bus.active, Bus.reset, Job.reset]
  case running => exact fun b p h => absurd h.1 (hact b)
  case single => exact fun b b' p h => absurd h.1 (hact b)
  case executing => intro p h; simp [Port.reset] at h
  case waiting => intro p b t0 t h; simp [Port.reset] at h

theorem MoveStep.inv {s t : State} {m : Move} (h : MoveStep s m t) (hi : Inv s) : Inv t := by
  cases h with
  | present hp hpres =>
    cases hpres with
    | illegal _ _ => exact hi.congr rfl rfl rfl
    | fault _ _ => exact hi.congr rfl rfl rfl
    | accepted hd hc => exact commandBody_inv (hi.acceptedState hp _) (accepted_acceptedState hp hd hc)
  | reset busy => exact (inv_resetOf s.cfg busy).congr rfl rfl rfl
  | clockTick => exact hi.congr rfl rfl rfl
  | agent ha => exact ha.inv hi

/-- Settles O54: the step of every move keeps the invariant (`MoveStep.inv`), of which the moves still to come are no part. -/
theorem stepKeepsTheInvariant : Obligations.StepKeepsTheInvariant := by
  intro s t hi h
  obtain ⟨-, rfl | ⟨-, hm⟩⟩ := moveStep_of_step h
  · exact hi.nextMove
  · exact hm.inv hi.nextMove

/-- Settles O53: after reset every engine is idle and every port Ready, so no job runs. -/
theorem resetSatisfiesTheInvariant : Obligations.ResetSatisfiesTheInvariant := by
  have hreset (c : Config) (busy : BitVec 16) (hc : c.valid = true) : Inv (State.resetOf c busy) ∧ CleanEntry (State.resetOf c busy) := by
    refine ⟨inv_resetOf c busy, rfl, hc, fun p => by simp [Port.reset], fun b => ?_⟩
    simp [Bus.reset, Bus.atRest, IdleFlagsClear]
  exact ⟨hreset, hreset _ 0 (by decide)⟩

/-! ## No step stops (R38 (f), R256) -/

section NeverStops
variable {s : State} {b : BusId}

theorem i2cAcked_next (s : State) (b : BusId) : ∃ t, i2cAcked s b = .next t := by
  cases hd : (s.bus b).job.dir with
  | write =>
    by_cases hl : (s.bus b).job.len = 0
    · exact ⟨_, i2cAcked_emptyWrite hd hl⟩
    · exact ⟨_, i2cAcked_write hd hl (bufRead_isSome (i := 0) (by decide))⟩
  | read => exact ⟨_, i2cAcked_read hd⟩

theorem i2cByteSent_next (h : BusInv s.cfg b (s.bus b)) (hw : (s.bus b).i2cState = .transferActive) : ∃ t, i2cByteSent s b = .next t := by
  cases ha : (s.bus b).af
  · by_cases hl : (s.bus b).job.idx + 1 = (s.bus b).job.len
    · exact ⟨_, i2cByteSent_last ha hl⟩
    · exact ⟨_, i2cByteSent_more ha hl (bufRead_isSome (lt_of_lt_of_le (next_lt h (.inl hw) hl) h.counts.2))⟩
  · exact ⟨_, i2cByteSent_nack ha⟩

theorem i2cByteReceived_next (h : BusInv s.cfg b (s.bus b)) (hw : (s.bus b).i2cState = .transferActive) :
    ∃ t, i2cByteReceived s b = .next t := by
  obtain ⟨m, hm⟩ := bufWrite_isSome (m := (s.bus b).jobBuf) (v := (s.bus b).dr) (lt_of_lt_of_le (h.bytes.2.1 (.inl hw)) h.counts.2)
  rw [i2cByteReceived_stored hm]
  split_ifs <;> exact ⟨_, rfl⟩

theorem spiExchange_next (h : BusInv s.cfg b (s.bus b)) (hw : (s.bus b).spiState = .transferring) :
    ∃ t, spiExchange s b = .next t := by
  have hi := lt_of_lt_of_le (h.bytes.2.1 (.inr hw)) h.counts.2
  obtain ⟨m, hm⟩ := bufWrite_isSome (m := (s.bus b).jobBuf) (v := (s.bus b).sdr) hi
  rw [spiExchange_stored (bufRead_isSome hi) hm]
  split_ifs <;> exact ⟨_, rfl⟩

end NeverStops

theorem presentCommand_next {s : State} {p : PortIx} {bytes : List Byte} (hp : presentable s p = true) :
    ∃ t, presentCommand s p bytes = .next t := by
  cases hd : decode s.cfg bytes with
  | ok d =>
    rw [presentCommand_ok hd]
    cases hc : firstFault s p d.instr with
    | none => exact ⟨_, exec_accepted (s := { s with pres := ⟨p, d.header, d.payload⟩ }) hp hc⟩
    | some c => exact ⟨_, exec_fault (s := { s with pres := ⟨p, d.header, d.payload⟩ }) hp hc⟩
  | error e => cases e <;> simp [presentCommand, hd]

theorem runMove_next {s : State} {m : Move} (hi : Inv s) (he : enabledRunning s m = true) : ∃ t, runMove s m = .next t := by
  cases m with
  | present p bytes => exact presentCommand_next (by simp only [enabledRunning, Bool.and_eq_true] at he; exact he.1)
  | i2cAcked b => exact i2cAcked_next s b
  | i2cByteSent b => exact i2cByteSent_next (hi.buses b) (i2cByteSentEnabled_iff.1 (onTwoWire_imp he).2).1
  | i2cByteReceived b => exact i2cByteReceived_next (hi.buses b) (i2cByteReceivedEnabled_iff.1 (onTwoWire_imp he).2).1
  | spiExchange b => exact spiExchange_next (hi.buses b) (spiExchangeEnabled_iff.1 (onFourWire_imp he).2).1
  | _ => exact ⟨_, rfl⟩

theorem takeStep_next {s : State} (hi : Inv s) (m : Move) : ∃ t, takeStep s m = .next t := by
  unfold takeStep
  split_ifs with he
  · exact runMove_next hi (moveEnabled_imp he)
  · exact ⟨s, rfl⟩

/-- Settles O55: only the engines' steps can stop, at an index outside the job buffer, and R38 (f) rules that out. -/
theorem stepNeverStops : Obligations.StepNeverStops := by
  intro s hi hv
  obtain ⟨t, ht⟩ := takeStep_next hi.nextMove s.nextMove.1
  exact ⟨t, by simp [step, hv, ht]⟩

end Sys2Proof.Machine
end

section
/-! PROOFS. What a step leaves of the buses: it writes the bus of its move alone (R61, R156, R219), it takes no client's lock away (R115), and
an idle consumer's step is not lost (R211, R279). -/

namespace Sys2Proof.Machine

/-! ## The bus of a move -/

theorem Answered.sameBusesBut {s t : State} {b : BusId} {u : Bus} {st : Status} {n : Nat} {data : Bool} {bytes : List Byte}
    (h : Answered s t b u st n data bytes) : SameBusesBut s t b := by
  unfold Answered at h
  split at h
  · exact h.1.2.2
  · exact h.1.2.2

/-- R38 (a): the job that is about to end is of the bus it runs on. -/
theorem Ending.jobOfBus {c : Config} {b : BusId} {u u' : Bus} (h : Ending c b u u') (hb : BusInv c b u) : JobOfBus b u' :=
  fun _ hp => ((hb.ownerRuns h.active).2 _ (h.goesOn.port.symm.trans hp)).1

theorem AgentStep.sameBusesBut {s t : State} {m : Move} (h : AgentStep s m t) (hi : Inv s) :
    ∀ c, moveBus s m ≠ some c → t.bus c = s.bus c := by
  intro c hc
  have hne {b : BusId} (hm : moveBus s m = some b) : c ≠ b := fun h => hc (h ▸ hm)
  have hwait {p : PortIx} {w : Wait} (hw : (s.port p).pstate = .waiting w) : (s.waitOf p).map (·.bus) = some w.bus := by
    rw [waitOf_eq_some_iff.2 hw]; rfl
  cases h with
  | bus hm _ _ => exact bus_setBus_of_ne _ _ (hne hm)
  | i2cEnd hm _ hu _ => exact (i2cFinish_ended _ (hu.jobOfBus (hi.buses _))).sameBusesBut c (hne hm)
  | spiEnd hm _ hu _ => exact (spiFinish_ended _ (hu.jobOfBus (hi.buses _))).sameBusesBut c (hne hm)
  | timeout _ => rfl
  | enqueue hw _ => exact (enqueueFor_spec ..).1.2.2 c (hne (hwait hw))
  | @dequeue p q b _ _ _ hw ht =>
    have hcb := hne (hwait hw)
    rcases dequeueFor_cases s p b q with ⟨-, -, hd⟩ | ⟨-, -, hd⟩ | ⟨_, _, -, -, hd⟩ | ⟨_, _, -, -, hd⟩
    all_goals rw [hd] at ht; cases ht
    all_goals exact bus_setBus_of_ne _ _ hcb
  | grant _ _ _ => exact (takeLock_spec ..).1.2.2 c (hne rfl)

theorem MoveStep.sameBusesBut {s t : State} {m : Move} (h : MoveStep s m t) (hi : Inv s) (hr : m.isReset = false) :
    ∀ c, moveBus s m ≠ some c → t.bus c = s.bus c := by
  intro c hc
  cases h with
  | present _ hp =>
    obtain ⟨_, _, _, rfl⟩ | ⟨d, _, _, _, hd, rfl, -⟩ := hp.frame
    · rfl
    · have hne : c ≠ d.instr.bus := fun h => hc (by simp [moveBus, hd, h])
      exact bus_setBus_of_ne _ _ hne
  | reset _ => cases hr
  | clockTick => rfl
  | agent ha => exact ha.sameBusesBut hi c hc

/-- Settles O15: a step writes the bus of its move alone (`MoveStep.sameBusesBut`). -/
theorem aStepChangesOneBus : Obligations.AStepChangesOneBus := by
  intro s t hi h hr c hc
  obtain ⟨-, rfl | ⟨-, hm⟩⟩ := moveStep_of_step h
  · exact bus_nextMove s c
  · rw [← bus_nextMove s c]
    exact hm.sameBusesBut hi.nextMove hr c (by rwa [moveBus_nextMove])

/-! ## A client's lock (R112, R115) -/

/-- The answer to a client writes the bus no more: only the consumer's frees the lock. -/
theorem Answered.bus_of_client {s t : State} {b : BusId} {u : Bus} {st : Status} {n : Nat} {data : Bool} {bytes : List Byte}
    (h : Answered s t b u st n data bytes) {p : PortIx} (hp : u.job.port = .client p) : t.bus b = u := by
  unfold Answered at h
  rw [hp] at h
  exact h.2.1

theorem Ending.job_of_clientLock {c : Config} {b : BusId} {u u' : Bus} (h : Ending c b u u') (hb : BusInv c b u) {p : PortIx}
    (hl : u.lockOwner = some (.client p)) : u'.job.port = .client p := by
  have hown := (hb.ownerRuns h.active).1
  rw [hl, Option.some.injEq] at hown
  exact h.goesOn.port.trans hown.symm

/-- A field of a bus that a write of some bus leaves. -/
theorem field_setBus {α : Type} (f : Bus → α) {s : State} {b c : BusId} {u : Bus} {v : α} (hv : f (s.bus b) = v)
    (h : f u = f (s.bus c)) : f ((s.setBus c u).bus b) = v := by
  rw [bus_setBus]
  split_ifs with hc
  · rw [h, ← hc, hv]
  · exact hv

theorem AgentStep.clientLock {s t : State} {m : Move} (h : AgentStep s m t) (hi : Inv s) {b : BusId} {p : PortIx}
    (hl : (s.bus b).lockOwner = some (.client p)) : (t.bus b).lockOwner = some (.client p) := by
  have hended {c : BusId} {u : Bus} {t' : State} {st : Status} {n : Nat} {data : Bool} {bytes : List Byte} {e : Bus}
      (hu : Ending s.cfg c (s.bus c) u) (ha : Answered s t' c e st n data bytes)
      (he : e.lockOwner = u.lockOwner ∧ e.job = u.job) : (t'.bus b).lockOwner = some (.client p) := by
    by_cases hc : b = c
    · subst hc
      have hport := he.2 ▸ hu.job_of_clientLock (hi.buses b) hl
      rw [ha.bus_of_client hport]
      exact he.1.trans (hu.goesOn.lockOwner.trans hl)
    · rw [ha.sameBusesBut b hc]
      exact hl
  cases h with
  | @bus _ c u _ hu _ =>
    rw [bus_setBus]
    split_ifs with hc
    · exact hu.clientLock p (hc ▸ hl)
    · exact hl
  | i2cEnd _ _ hu _ => exact hended hu (i2cFinish_ended _ (hu.jobOfBus (hi.buses _))) ⟨rfl, rfl⟩
  | spiEnd _ _ hu _ => exact hended hu (spiFinish_ended _ (hu.jobOfBus (hi.buses _))) ⟨rfl, rfl⟩
  | timeout _ => exact hl
  | enqueue _ _ => exact field_setBus Bus.lockOwner hl (by rfl)
  | @dequeue q sel c _ _ _ _ ht =>
    rcases dequeueFor_cases s q c sel with ⟨-, -, hd⟩ | ⟨-, -, hd⟩ | ⟨_, _, -, -, hd⟩ | ⟨_, _, -, -, hd⟩
    all_goals rw [hd] at ht; cases ht
    all_goals exact field_setBus Bus.lockOwner hl (by rfl)
  | @grant c q _ _ _ hfree _ =>
    by_cases hc : b = c
    · subst hc
      exact absurd (hl.symm.trans hfree) (by simp)
    · rw [(takeLock_spec s c q).1.2.2 b hc]
      exact hl

/-- A client's lock that a step takes away was reset, or released by its owner. -/
theorem MoveStep.clientLock {s t : State} {m : Move} (h : MoveStep s m t) (hi : Inv s) {b : BusId} {p : PortIx}
    (hl : (s.bus b).lockOwner = some (.client p)) (ht : (t.bus b).lockOwner ≠ some (.client p)) :
    m.isReset = true ∨
      ∃ bytes d, m = .present p bytes ∧ decode s.cfg bytes = .ok d ∧ d.instr = .lockRelease b ∧ (t.bus b).lockOwner = none := by
  cases h with
  | @present q bytes _ hready hp =>
    cases hp with
    | illegal _ _ => exact absurd hl ht
    | fault _ _ => exact absurd hl ht
    | @accepted d hd hc =>
      obtain ⟨u, x, he, hu, -⟩ := commandBody_writes d.instr (acceptedState s q d)
      rw [he, bus_setPort] at ht ⊢
      by_cases hb : b = d.instr.bus
      case neg =>
        rw [bus_setBus_of_ne _ _ hb] at ht
        exact absurd hl ht
      case pos =>
        subst hb
        rw [bus_setBus_same] at ht ⊢
        obtain hkept | ⟨hrel, hnone⟩ := hu.lock p hl
        · exact absurd hkept ht
        · obtain ⟨-, -, -, -, -, hown, -⟩ := firstFault_eq_none_iff.1 hc
          obtain rfl : p = q := by simpa using hl.symm.trans (hown (by rw [hrel]; rfl))
          exact .inr ⟨bytes, d, rfl, hd, hrel, hnone⟩
  | reset _ => exact .inl rfl
  | clockTick => exact absurd hl ht
  | agent ha => exact absurd (ha.clientLock hi hl) ht

/-- Settles O26: of the moves only reset, and of the commands only LOCK_RELEASE by the owner, take the lock (`MoveStep.clientLock`). -/
theorem lockFreedOnlyByItsOwner : Obligations.LockFreedOnlyByItsOwner := by
  intro s t b p hi h hl ht
  obtain ⟨-, rfl | ⟨-, hm⟩⟩ := moveStep_of_step h
  · exact absurd ((congrArg Bus.lockOwner (bus_nextMove s b)).trans hl) ht
  · simpa using hm.clientLock hi.nextMove (by simpa using hl) ht

/-! ## Schedules (R279) -/

/-- A move that is taken from a state of the invariant. -/
theorem moveStep_of_takeStep {s t : State} {m : Move} (h : takeStep s m = .next t) : t = s ∨ MoveStep s m t := by
  unfold takeStep at h
  split at h
  case isTrue he => exact .inr (moveStep_of_runMove (moveEnabled_imp he) h)
  case isFalse => cases h; exact .inl rfl

theorem stateAt_succ {s : State} {sched : Nat → Move} {n : Nat} (hi : Inv (stateAt s sched n)) :
    takeStep (stateAt s sched n) (sched n) = .next (stateAt s sched (n + 1)) := by
  obtain ⟨t, ht⟩ := takeStep_next hi (sched n)
  simp [stateAt, ht]

theorem inv_stateAt {s : State} (hi : Inv s) (sched : Nat → Move) (n : Nat) : Inv (stateAt s sched n) := by
  induction n with
  | zero => exact hi
  | succ n ih =>
    obtain he | hm := moveStep_of_takeStep (stateAt_succ ih)
    · exact he ▸ ih
    · exact hm.inv ih

theorem cfg_stateAt {s : State} (hi : Inv s) (sched : Nat → Move) (n : Nat) : (stateAt s sched n).cfg = s.cfg := by
  induction n with
  | zero => rfl
  | succ n ih =>
    obtain he | hm := moveStep_of_takeStep (stateAt_succ (inv_stateAt hi sched n))
    · rw [he, ih]
    · rw [hm.cfg, ih]

/-- An idle consumer stays idle but by its own step: its job runs in CRun (R211). -/
theorem AgentStep.consIdle {s t : State} {m : Move} (h : AgentStep s m t) (hi : Inv s) {b : BusId}
    (hc : (s.bus b).consState = .cIdle) : (t.bus b).consState = .cIdle ∨ m = .consTake b := by
  have hended {c : BusId} {u : Bus} {t' : State} {st : Status} {n : Nat} {data : Bool} {bytes : List Byte} {e : Bus}
      (hu : Ending s.cfg c (s.bus c) u) (ha : Answered s t' c e st n data bytes)
      (he : e.consState = u.consState ∧ e.job = u.job) : (t'.bus b).consState = .cIdle := by
    by_cases hb : b = c
    · subst hb
      cases hp : u.job.port with
      | client p =>
        rw [ha.bus_of_client (he.2 ▸ hp)]
        exact he.1.trans (hu.goesOn.consState.trans hc)
      | consumer b' =>
        have hrun := (((hi.buses b).ownerRuns hu.active).2 b' (hu.goesOn.port.symm.trans hp)).2
        exact absurd (hc.symm.trans hrun) (by decide)
    · rw [ha.sameBusesBut b hb]
      exact hc
  cases h with
  | @bus _ c u hm hu hidle =>
    rw [bus_setBus]
    split_ifs with hb
    · subst hb; exact hidle hc
    · exact .inl hc
  | i2cEnd _ _ hu _ => exact .inl (hended hu (i2cFinish_ended _ (hu.jobOfBus (hi.buses _))) ⟨rfl, rfl⟩)
  | spiEnd _ _ hu _ => exact .inl (hended hu (spiFinish_ended _ (hu.jobOfBus (hi.buses _))) ⟨rfl, rfl⟩)
  | timeout _ => exact .inl hc
  | enqueue _ _ => exact .inl (field_setBus Bus.consState hc (by rfl))
  | @dequeue q sel c _ _ _ _ ht =>
    rcases dequeueFor_cases s q c sel with ⟨-, -, hd⟩ | ⟨-, -, hd⟩ | ⟨_, _, -, -, hd⟩ | ⟨_, _, -, -, hd⟩
    all_goals rw [hd] at ht; cases ht
    all_goals exact .inl (field_setBus Bus.consState hc (by rfl))
  | grant _ _ _ => exact .inl (field_setBus Bus.consState hc (by rfl))

theorem MoveStep.consIdle {s t : State} {m : Move} (h : MoveStep s m t) (hi : Inv s) {b : BusId}
    (hc : (s.bus b).consState = .cIdle) : (t.bus b).consState = .cIdle ∨ m = .consTake b := by
  cases h with
  | present _ hp =>
    obtain ⟨_, _, _, rfl⟩ | ⟨_, pres, _, _, -, rfl, hu, -⟩ := hp.frame
    · exact .inl hc
    · exact .inl (field_setBus (s := { s with pres := pres }) Bus.consState hc hu.consState)
  | reset _ => exact .inl (by rw [bus_resetBlock]; rfl)
  | clockTick => exact .inl hc
  | agent ha => exact ha.consIdle hi hc

theorem moveEnabled_consTake_iff {s : State} {b : BusId} (hf : s.fatal = false) (hch : s.cfg.hasChannel b = true) :
    moveEnabled s (.consTake b) = true ↔ (s.bus b).consState = .cIdle ∧ (s.bus b).rq ≠ [] :=
  moveEnabled_consumer_iff hf hch rfl consTakeEnabled_iff

/-- Settles O50: until its step is taken, the FIFO emptied or the block fatal, the consumer stays idle and its step enabled, and weak
fairness does the rest. -/
theorem queuedRequestIsTaken : Obligations.QueuedRequestIsTaken := by
  intro s sched b hi hch hfair n hidle hq
  by_contra hnot
  have hno : ∀ k, n ≤ k → ¬ (sched k = .consTake b ∧ moveEnabled (stateAt s sched k) (.consTake b) = true) ∧
      ((stateAt s sched k).bus b).rq ≠ [] ∧ (stateAt s sched k).fatal = false := by
    intro k hk
    refine ⟨fun h => hnot ⟨k, hk, .inl h⟩, fun h => hnot ⟨k, hk, .inr (.inl h)⟩, ?_⟩
    exact Bool.eq_false_iff.2 fun h => hnot ⟨k, hk, .inr (.inr h)⟩
  have henabled : ∀ k, n ≤ k → ((stateAt s sched k).bus b).consState = .cIdle → moveEnabled (stateAt s sched k) (.consTake b) = true :=
    fun k hk hc => (moveEnabled_consTake_iff (hno k hk).2.2 ((cfg_stateAt hi sched k).symm ▸ hch)).2 ⟨hc, (hno k hk).2.1⟩
  have hstays : ∀ k, n ≤ k → ((stateAt s sched k).bus b).consState = .cIdle := by
    intro k hk
    induction k, hk using Nat.le_induction with
    | base => exact hidle
    | succ k hk ih =>
      obtain he | hm := moveStep_of_takeStep (stateAt_succ (inv_stateAt hi sched k))
      · rw [he]; exact ih
      · exact (hm.consIdle (inv_stateAt hi sched k) ih).resolve_right fun h => (hno k hk).1 ⟨h, henabled k hk ih⟩
  obtain ⟨k, hk, htake⟩ := hfair n fun k hk => henabled k hk (hstays k hk)
  exact (hno k hk).1 ⟨htake, henabled k hk (hstays k hk)⟩

end Sys2Proof.Machine
end

section
/-! PROOFS. What each command does that passes its checks (spec/40_lock.md, spec/41_i2c.md, spec/42_spi.md, spec/43_channel.md), and the
step that presents it. -/

namespace Sys2Proof.Machine

/-! ## The step (R41, log 3, log 4, log 5) -/

/-- Settles O10: `step` is `takeStep` of the next move, which is the first fixed one or the next free one. -/
theorem stepTakesTheNextMove : Obligations.StepTakesTheNextMove := by
  intro s hv
  have hstep : step s = takeStep s.nextMove.2 s.nextMove.1 := if_pos hv
  refine ⟨fun m rest hm => ⟨step_of_enabled hv hm, step_of_disabled hv hm⟩, fun hm => ?_⟩
  rw [hstep, nextMove_nil hm]
  exact ⟨fun he => if_pos he, fun he => if_neg (by simp [he])⟩

theorem completeCommand_of_decode {c : Config} {bytes : List Byte} {d : Decoded} (hd : decode c bytes = .ok d) :
    completeCommand c bytes = true := by simp [completeCommand, hd]

/-- Settles O11: the presented bytes are a whole command on a Ready client port, so the move is enabled and runs it. -/
theorem stepRunsThePresentedCommand : Obligations.StepRunsThePresentedCommand := by
  intro s p bytes rest d hv hf hn hr hm hd
  have hp : presentable { s with moves := rest } p = true := presentable_iff.2 ⟨hf, hn, hr⟩
  have he : moveEnabled { s with moves := rest } (.present p bytes) = true := by
    rw [moveEnabled_running (s := { s with moves := rest }) hf]
    simp [enabledRunning, hp, completeCommand_of_decode hd]
  exact (step_of_enabled hv hm he).trans (presentCommand_ok (s := { s with moves := rest }) hd)

/-! ## The forms of a command that passes its checks -/

section Forms
variable {s : State} {p : PortIx} {i : Instr} {b : BusId} {u : Bus}

/-- The port with the presented command copied in (R21; log 9). -/
def acceptedPort (s : State) (p : PortIx) (i : Instr) : Port :=
  { s.port p with cmd := s.pres.cmd, desc := (commandDesc i).getD (s.port p).desc, payload := s.pres.payload }

theorem port_accept (s : State) (i : Instr) : (accept s (commandDesc i)).port s.pres.port = acceptedPort s s.pres.port i :=
  port_accept_same s (commandDesc i)

/-- A command that only answers its port. -/
theorem exec_respond {w : Word} {bytes : List Byte} (hp : Presenting s p) (hc : firstFault s p i = none)
    (hb : commandBody i (accept s (commandDesc i)) = respond (accept s (commandDesc i)) s.pres.port w bytes) :
    ∃ t, exec i s = .next t ∧ OnlyPort s t p ∧ t.port p = { acceptedPort s p i with pstate := .ready, resp := w, rdata := bytes } := by
  have hpres := presenting_presentable hp
  obtain ⟨rfl, -⟩ := hp
  refine ⟨_, (exec_accepted hpres hc).trans (congrArg _ hb), ?_⟩
  rw [respond, port_accept, accept, setPort_setPort_same]
  exact ⟨onlyPort_setPort .., port_setPort_same ..⟩

/-- A command whose port waits. -/
theorem exec_startWait {k : WaitKind} {T : Timeout} (hp : Presenting s p) (hc : firstFault s p i = none)
    (hb : commandBody i (accept s (commandDesc i)) = startWait (accept s (commandDesc i)) s.pres.port k b T) :
    ∃ t, exec i s = .next t ∧ OnlyPort s t p ∧ t.port p = { acceptedPort s p i with pstate := .waiting ⟨k, b, s.tick, T⟩ } := by
  have hpres := presenting_presentable hp
  obtain ⟨rfl, -⟩ := hp
  refine ⟨_, (exec_accepted hpres hc).trans (congrArg _ hb), ?_⟩
  rw [startWait, port_accept, tick_accept, accept, setPort_setPort_same]
  exact ⟨onlyPort_setPort .., port_setPort_same ..⟩

/-- A command that writes its bus and answers its port. -/
theorem exec_respond_setBus {w : Word} {bytes : List Byte} (hp : Presenting s p) (hc : firstFault s p i = none)
    (hb : commandBody i (accept s (commandDesc i)) = respond ((accept s (commandDesc i)).setBus b u) s.pres.port w bytes) :
    ∃ t, exec i s = .next t ∧ OnlyPortAndBus s t p b ∧ t.bus b = u ∧
      t.port p = { acceptedPort s p i with pstate := .ready, resp := w, rdata := bytes } := by
  have hpres := presenting_presentable hp
  obtain ⟨rfl, -⟩ := hp
  refine ⟨_, (exec_accepted hpres hc).trans (congrArg _ hb), ?_⟩
  rw [respond, port_setBus, port_accept, accept, setBus_setPort, setPort_setPort_same]
  exact ⟨onlyPortAndBus_setPort_setBus .., bus_setBus_same .., port_setPort_same ..⟩

/-- A command that starts a job of its port. -/
theorem exec_setExecuting (hp : Presenting s p) (hc : firstFault s p i = none)
    (hb : commandBody i (accept s (commandDesc i)) = setExecuting ((accept s (commandDesc i)).setBus b u) s.pres.port) :
    ∃ t, exec i s = .next t ∧ OnlyPortAndBus s t p b ∧ t.bus b = u ∧ t.port p = { acceptedPort s p i with pstate := .executing } := by
  have hpres := presenting_presentable hp
  obtain ⟨rfl, -⟩ := hp
  refine ⟨_, (exec_accepted hpres hc).trans (congrArg _ hb), ?_⟩
  rw [setExecuting, port_setBus, port_accept, accept, setBus_setPort, setPort_setPort_same]
  exact ⟨onlyPortAndBus_setPort_setBus .., bus_setBus_same .., port_setPort_same ..⟩

end Forms

/-! ## The Transaction Lock (R110, R112, R116) -/

/-- Settles O21: the one check is the bus; the lock's owner and T decide between the three answers. -/
theorem lockAcquireResult : Obligations.LockAcquireResult := by
  intro s p b T hp hb
  have hc : firstFault s p (.lockAcquire b T) = none := firstFault_eq_none_iff.2 ⟨hb, rfl, rfl, rfl, rfl, by simp [needsLock], rfl⟩
  refine ⟨fun hfree => exec_respond_setBus hp hc ?_, fun hheld hT => exec_respond hp hc ((if_neg hheld).trans (if_pos hT)),
    fun hheld hT => exec_startWait hp hc ((if_neg hheld).trans (if_neg hT))⟩
  rw [← hp.1]
  exact if_pos hfree

/-- Settles O22: the owner's release passes every check, and its pseudocode has one branch. -/
theorem lockReleaseResult : Obligations.LockReleaseResult := by
  intro s p b hp hb hl hcs
  have hsel : selectOk s (.lockRelease b) = true := by
    cases hk : s.cfg.isFourWire b <;> simp [selectOk, hk, hcs]
  exact exec_respond_setBus hp (firstFault_eq_none_iff.2 ⟨hb, rfl, rfl, rfl, rfl, fun _ => hl, hsel⟩) rfl

/-! ## The job buffer a command loads (R130, R173, R212) -/

/-- The bytes of a length that the data have are loaded; every other byte stays. -/
theorem bufRead_bufLoad_take (m : Vector Byte 63) (data : List Byte) (n : Nat) {k : Nat} (hk : k < 63) :
    bufRead (bufLoad m (data.take n)) k = if k < n ∧ k < data.length then data[k]? else bufRead m k := by
  rw [bufRead_bufLoad m _ hk, List.getElem?_take, bufRead_isSome hk]
  by_cases hn : k < n <;> by_cases hd : k < data.length <;> simp [hn, hd]

/-- The payload of a command that has its length is loaded whole. -/
theorem bufRead_bufLoad_payload (m : Vector Byte 63) {data : List Byte} {n : Nat} (hl : data.length = n) {k : Nat} (hk : k < 63) :
    bufRead (bufLoad m (data.take n)) k = if k < n then data[k]? else bufRead m k := by
  simp only [bufRead_bufLoad_take m data n hk, hl, and_self]

theorem payload_accept (s : State) (d : Option Word) : ((accept s d).port s.pres.port).payload = s.pres.payload := by
  rw [port_accept_same]

/-! ## The two-wire engine (R130, R131) -/

/-- Settles O27: the payload is loaded, and the job starts. -/
theorem i2cWriteStartsAJob : Obligations.I2cWriteStartsAJob := by
  intro s p b a n hp hk hn hl hlen
  have hc : firstFault s p (.i2cWrite b a n) = none :=
    firstFault_eq_none_iff.2 ⟨Config.hasBus_of_twoWire hk, hk, rfl, by simpa [lengthOk] using hn, rfl, fun _ => hl, rfl⟩
  obtain ⟨t, he, hframe, hbus, hport⟩ := exec_setExecuting hp hc rfl
  rw [pres_accept, payload_accept, hp.1] at hbus
  exact ⟨t, _, he, hframe, hbus, fun k hk' => bufRead_bufLoad_payload _ hlen hk', hport⟩

/-- Settles O28: a read loads nothing, and the job starts. -/
theorem i2cReadStartsAJob : Obligations.I2cReadStartsAJob := by
  intro s p b dest a n hp hk hch h1 hn hl
  have hdest : (dest == .port || s.cfg.hasChannel b) = true := by
    cases dest with
    | port => rfl
    | fifo => exact hch rfl
  have hc : firstFault s p (.i2cRead b dest a n) = none :=
    firstFault_eq_none_iff.2 ⟨Config.hasBus_of_twoWire hk, by simp [kindOk, hk, hdest], rfl, by simp [lengthOk, h1, hn], rfl,
      fun _ => hl, rfl⟩
  obtain ⟨t, he, hframe, hbus, hport⟩ := exec_setExecuting hp hc rfl
  rw [Bus.startI2c, bufLoad_nil, pres_accept, hp.1] at hbus
  exact ⟨t, he, hframe, hbus, hport⟩

/-! ## The four-wire engine (R170..R173) -/

theorem csBit_clear_getLsbD (cs : BitVec 16) (sl k : SlaveId) :
    (cs &&& ~~~csBit sl).getLsbD k.toNat = (cs.getLsbD k.toNat && decide (k ≠ sl)) := by
  have hk : k.toNat < 16 := k.isLt
  rw [BitVec.getLsbD_and, BitVec.getLsbD_not, csBit_getLsbD]
  simp [hk, eq_comm]

/-- Settles O38: the slave's bit is the only line the command changes. -/
theorem spiSelectAndDeselectResult : Obligations.SpiSelectAndDeselectResult := by
  intro s p b sl hp hk hsl hl
  have hb := Config.hasBus_of_fourWire hk
  have hdeselect : firstFault s p (.spiDeselect b sl) = none :=
    firstFault_eq_none_iff.2 ⟨hb, hk, rfl, rfl, hsl, fun _ => hl, rfl⟩
  refine ⟨fun hcs => ?select, fun hon => ?deselect, fun hoff => ?nothing⟩
  case select =>
    have hc : firstFault s p (.spiSelect b sl) = none :=
      firstFault_eq_none_iff.2 ⟨hb, hk, rfl, rfl, hsl, fun _ => hl, by simp [selectOk, hcs]⟩
    obtain ⟨t, he, hframe, hbus, hport⟩ := exec_respond_setBus hp hc rfl
    rw [bus_accept, Bus.select_eq hcs] at hbus
    exact ⟨t, _, he, hframe, hport, hbus, fun k => by rw [csBit_getLsbD]; simp [eq_comm]⟩
  case deselect =>
    obtain ⟨t, he, hframe, hbus, hport⟩ := exec_respond_setBus hp hdeselect rfl
    rw [bus_accept, Bus.deselect, if_pos hon] at hbus
    exact ⟨t, _, he, hframe, hport, hbus, csBit_clear_getLsbD _ _⟩
  case nothing =>
    refine exec_respond hp hdeselect ?_
    rw [commandBody, bus_accept, Bus.deselect, if_neg (by simp [hoff]), ← bus_accept s (commandDesc (.spiDeselect b sl)), setBus_self,
      pres_accept]

theorem any_csBit {cs : BitVec 16} {sl : SlaveId} (h : cs = csBit sl) : (slaveIds.any fun sl => cs == csBit sl) = true :=
  oneAsserted_iff.2 ⟨sl, h⟩

/-- Settles O39: the one byte is loaded at index 0, and the transfer starts. -/
theorem spiXferByteStartsAJob : Obligations.SpiXferByteStartsAJob := by
  intro s p b tx sl hp hk hl hcs
  have hc : firstFault s p (.spiXferByte b tx) = none :=
    firstFault_eq_none_iff.2 ⟨Config.hasBus_of_fourWire hk, hk, rfl, rfl, rfl, fun _ => hl, any_csBit hcs⟩
  obtain ⟨t, he, hframe, hbus, hport⟩ := exec_setExecuting hp hc rfl
  rw [pres_accept, hp.1] at hbus
  refine ⟨t, _, he, hframe, hbus, fun k hk' => ?_, hport⟩
  rw [bus_accept, bufRead_bufLoad _ _ hk', bufRead_isSome hk']
  cases k <;> simp

/-- Settles O40: of no byte the answer is immediate; any other payload is loaded, and the transfer starts. -/
theorem spiXferBufResult : Obligations.SpiXferBufResult := by
  intro s p b n sl hp hk hn hl hcs hlen
  have hc : firstFault s p (.spiXferBuf b n) = none :=
    firstFault_eq_none_iff.2
      ⟨Config.hasBus_of_fourWire hk, hk, rfl, by simpa [lengthOk] using hn, rfl, fun _ => hl, any_csBit hcs⟩
  refine ⟨fun hzero => exec_respond hp hc (if_pos hzero), fun hpos => ?_⟩
  obtain ⟨t, he, hframe, hbus, hport⟩ := exec_setExecuting hp hc (if_neg hpos)
  rw [pres_accept, payload_accept, hp.1] at hbus
  exact ⟨t, _, he, hframe, hbus, fun k hk' => bufRead_bufLoad_payload _ hlen hk', hport⟩

/-! ## The channel (R201, R203) -/

/-- Settles O44: room, and where there is none T, decide between the three answers; the request is `requestOf`'s. -/
theorem chEnqReqResult : Obligations.ChEnqReqResult := by
  intro s p b T d hp hch hres hlen hsl hpay
  have hc : firstFault s p (.chEnqReq b T d) = none :=
    firstFault_eq_none_iff.2 ⟨Config.hasBus_of_channel hch, hch, hres, hlen, hsl, by simp [needsLock], rfl⟩
  have hnoroom (hfull : s.cfg.rqDepth b ≤ (s.bus b).rq.length) : ¬ rqHasRoom (accept s (some d)) b = true := fun h =>
    hfull.not_gt (rqHasRoom_iff.1 h)
  refine ⟨fun h => ?room, fun hfull hT => exec_respond hp hc ((if_neg (hnoroom hfull)).trans (if_pos hT)),
    fun hfull hT => exec_startWait hp hc ((if_neg (hnoroom hfull)).trans (if_neg hT))⟩
  case room =>
    have hreq : requestOf s.cfg b d s.pres.payload =
        { dir := if d.getLsbD 15 then .read else .write
          target := if s.cfg.isFourWire b then (d.extractLsb' 8 4).setWidth 7 else d.extractLsb' 8 7
          len := d.extractLsb' 0 6, data := s.pres.payload } := by
      have hdata : s.pres.payload.take (payloadLen s.cfg (.chEnqReq b T d)) = s.pres.payload :=
        List.take_of_length_le hpay.le
      exact congrArg (Request.mk _ _ _) hdata
    refine hreq ▸ exec_respond_setBus hp hc ?_
    have hroom : rqHasRoom (accept s (some d)) b = true := rqHasRoom_iff.2 h
    simp only [commandBody, commandDesc, hroom, if_true, enqueueFor, pres_accept, port_accept_same, bus_accept, cfg_accept,
      Option.getD_some]

/-- Settles O45: the head of the selected FIFO is answered as its item; on an empty FIFO T decides. -/
theorem chDeqResult : Obligations.ChDeqResult := by
  intro s p b T hp hch
  have hc (q) : firstFault s p (.chDeq b q T) = none :=
    firstFault_eq_none_iff.2 ⟨Config.hasBus_of_channel hch, hch, rfl, rfl, rfl, by simp [needsLock], rfl⟩
  refine ⟨fun r rest hq => ?request, fun e rest hq => ?entry, fun q hq => ?empty⟩
  case request =>
    refine itemWord_eq ▸ exec_respond_setBus (bytes := r.item) hp (hc .rq) ?_
    rw [commandBody, pres_accept, dequeueFor_rq (s := accept s (commandDesc (.chDeq b .rq T))) hq]
    rfl
  case entry =>
    refine itemWord_eq ▸ exec_respond_setBus (bytes := e.item) hp (hc .rsp) ?_
    rw [commandBody, pres_accept, dequeueFor_rsp (s := accept s (commandDesc (.chDeq b .rsp T))) hq]
    rfl
  case empty =>
    have hnone : dequeueFor (accept s (commandDesc (.chDeq b q T))) s.pres.port b q = none := by
      rcases hq with ⟨rfl, hq⟩ | ⟨rfl, hq⟩ <;> simp [dequeueFor, hq]
    refine ⟨fun hT => exec_respond hp (hc q) ?_, fun hT => exec_startWait hp (hc q) ?_⟩
    · rw [commandBody, pres_accept, hnone]
      exact if_pos hT
    · rw [commandBody, pres_accept, hnone]
      exact if_neg hT

end Sys2Proof.Machine
end

section
/-! PROOFS. The last steps of the engines and of the consumer (spec/42_spi.md R180, spec/43_channel.md R213), the status outputs
(spec/10_state.md R36), and the clean end (spec/70_reset_and_hazards.md R283). -/

namespace Sys2Proof.Machine

/-! ## A completed exchange (R180, R182) -/

/-- Settles O41: the index is in the job buffer, so the byte is stored, and `spiExchange_stored` has the two cases. -/
theorem spiExchangeStep : Obligations.SpiExchangeStep := by
  intro s b hf hk hj
  refine ⟨moveEnabled_fourWire_iff hf hk rfl spiExchangeEnabled_iff, fun hi h63 => ?_⟩
  have hlt : (s.bus b).job.idx < 63 := lt_of_lt_of_le hi h63
  have htx := bufRead_isSome (m := (s.bus b).jobBuf) hlt
  obtain ⟨m, hm⟩ := bufWrite_isSome (m := (s.bus b).jobBuf) (v := (s.bus b).sdr) hlt
  have hrun := spiExchange_stored htx hm
  refine ⟨m, _, htx, fun k _ => bufRead_bufWrite hm, fun hl => ?_, fun hl => ?_⟩
  · rw [if_pos hl] at hrun
    exact ⟨_, hrun, spiFinish_ended (u := (s.bus b).afterExchange _ m) .ok hj⟩
  · rw [if_neg hl.ne] at hrun
    exact onlyBus_of_eq_setBus hrun

/-! ## The consumer's start (R212, R213) -/

/-- R212: a write's data are loaded up to its length; a read loads nothing. -/
theorem bufRead_requestBuf (m : Vector Byte 63) (r : Request) {k : Nat} (hk : k < 63) :
    bufRead (requestBuf m r) k =
      if r.dir = .write ∧ k < r.len.toNat ∧ k < r.data.length then r.data[k]? else bufRead m k := by
  unfold requestBuf
  cases hd : r.dir with
  | write => simp only [bufRead_bufLoad_take _ _ _ hk, true_and]
  | read => simp only [bufLoad_nil, reduceCtorEq, false_and, if_false]

/-- Settles O49: the bus's kind, and on a four-wire bus the request's length, decide between the three starts. -/
theorem consumerStartStep : Obligations.ConsumerStartStep := by
  intro s b hf hch
  refine ⟨moveEnabled_consumer_iff hf hch rfl consStartEnabled_iff, fun hk => ?two, fun hk hcs hr => ?empty, fun hk hcs hr => ?four⟩
  case two =>
    obtain ⟨t, hrun, hframe, hbus⟩ := onlyBus_of_eq_setBus (congrArg Host.Outcome.next (consStart_twoWire hk))
    exact ⟨t, _, hrun, hframe, fun k => bufRead_requestBuf _ _, hbus⟩
  case empty =>
    have hstart := consStart_empty hk hr
    rw [Bus.emptyBracket_eq hcs] at hstart
    exact onlyBus_of_eq_setBus (congrArg Host.Outcome.next hstart)
  case four =>
    have hstart := consStart_fourWire hk hr
    rw [hcs, select_alone] at hstart
    obtain ⟨t, hrun, hframe, hbus⟩ := onlyBus_of_eq_setBus (congrArg Host.Outcome.next hstart)
    exact ⟨t, _, hrun, hframe, fun k => bufRead_bufLoad_take _ _ _, hbus⟩

/-! ## The clean end (R283) -/

/-- With the two-wire engine at rest no step of it or of its environment but the change of BUSY is enabled. -/
theorem onTwoWire_of_idle {s : State} {b : BusId} (h : (s.bus b).i2cState = .idle) :
    ∀ cond ∈ [i2cStartEnabled, i2cAddressEnabled, i2cAckedEnabled, i2cNotAckedEnabled, i2cByteSentEnabled,
      i2cByteReceivedEnabled s.cfg b, i2cWireTimeoutEnabled s.cfg s.tick, envStartLatchedEnabled, envAddressEnabled,
      envByteDoneEnabled, envByteReadyEnabled], onTwoWire s b cond = false := by
  simp [onTwoWire, i2cStartEnabled, i2cAddressEnabled, i2cAckedEnabled, i2cNotAckedEnabled, i2cByteSentEnabled,
    i2cByteReceivedEnabled, i2cWireTimeoutEnabled, Bus.i2cAwaiting, envStartLatchedEnabled, envAddressEnabled, envByteDoneEnabled,
    envByteReadyEnabled, h]

theorem onFourWire_of_idle {s : State} {b : BusId} (h : (s.bus b).spiState = .idle) :
    ∀ cond ∈ [spiExchangeEnabled, spiWireTimeoutEnabled s.cfg s.tick, envExchangeEnabled], onFourWire s b cond = false := by
  simp [onFourWire, spiExchangeEnabled, spiWireTimeoutEnabled, envExchangeEnabled, h]

/-- At a clean end no port waits. -/
theorem waitOf_of_ready {s : State} {p : PortIx} (h : (s.port p).pstate = .ready) : s.waitOf p = none := by
  simp [State.waitOf, h]

/-- R283: with every port Ready and every engine and consumer at rest, only these moves can be enabled. -/
theorem CleanEnd.enabled {s : State} (h : CleanEnd s) {m : Move} (he : enabledRunning s m = true) :
    (∃ p bytes, m = .present p bytes) ∨ m = .clockTick ∨ (∃ b x, m = .envBusy b x) ∨ m.isReset = true := by
  obtain ⟨-, hready, hbus⟩ := h
  choose hi2c hspi hcons hrq using hbus
  have hwait (p) : s.waitOf p = none := waitOf_of_ready (hready p)
  cases m
  case present p bytes => exact .inl ⟨p, bytes, rfl⟩
  case clockTick => exact .inr (.inl rfl)
  case envBusy b x => exact .inr (.inr (.inl ⟨b, x, rfl⟩))
  case reset busy => exact .inr (.inr (.inr rfl))
  case portTimeout p => simp [enabledRunning, portTimeoutEnabled, hwait] at he
  case portEnqueue p => simp [enabledRunning, portEnqueueEnabled, hwait] at he
  case portDequeue p => simp [enabledRunning, portDequeue?, hwait] at he
  case lockGrant b q => simp [enabledRunning, lockGrantEnabled, hwait] at he
  case consTake b => simp [enabledRunning, consTakeEnabled, hrq] at he
  case consStart b => simp [enabledRunning, consStartEnabled, hcons] at he
  case consPush b => simp [enabledRunning, consPushEnabled, hcons] at he
  case spiExchange b | spiWireTimeout b | envExchange b v =>
    have hoff := he.symm.trans (onFourWire_of_idle (hspi b) _ (by simp))
    simp at hoff
  case i2cStart b | i2cAddress b | i2cAcked b | i2cNotAcked b | i2cByteSent b | i2cByteReceived b | i2cWireTimeout b
    | envStartLatched b | envAddrAck b | envAddrNack b | envByteDone b nack | envByteReady b v =>
    have hoff := he.symm.trans (onTwoWire_of_idle (hi2c b) _ (by simp))
    simp at hoff

/-- Settles O59: `CleanEnd.enabled` names the moves; a tick and a change of BUSY write one field. -/
theorem cleanEndIsQuiet : Obligations.CleanEndIsQuiet := fun _ h =>
  ⟨fun _ he => h.enabled (moveEnabled_imp he), rfl, fun _ _ => onlyBus_of_eq_setBus rfl⟩

/-! ## The status outputs (R36) -/

theorem statFatal_hasFields (s : State) :
    HasFields (statFatal s) 0 [⟨1, BitVec.ofBool s.fatal⟩, ⟨4, s.fatalCause⟩, ⟨5, s.fatalPort⟩, ⟨22, 0⟩] := by
  simp only [HasFields, Nat.reduceAdd]
  simp (disch := decide) only [statFatal, BitVec.extractLsb'_append_eq_of_le, BitVec.extractLsb'_append_eq_of_add_le,
    BitVec.extractLsb'_eq_self, Nat.reduceSub]
  simp

theorem statBus_hasFields (s : State) (b : BusId) :
    HasFields (statBus s b) 0
      [⟨5, ownerField (s.bus b).lockOwner⟩, ⟨3, engineField s.cfg b (s.bus b)⟩,
        ⟨1, BitVec.ofBool (s.cfg.isTwoWire b && (s.bus b).ackEn)⟩,
        ⟨2, if s.cfg.hasChannel b then (s.bus b).consState.code else 0⟩, ⟨4, 0⟩, ⟨1, BitVec.ofBool (s.bus b).lockOwner.isSome⟩,
        ⟨8, BitVec.ofNat 8 (s.bus b).rq.length⟩, ⟨8, BitVec.ofNat 8 (s.bus b).rsp.length⟩] := by
  simp only [HasFields, Nat.reduceAdd]
  simp (disch := decide) only [statBus, BitVec.extractLsb'_append_eq_of_le, BitVec.extractLsb'_append_eq_of_add_le,
    BitVec.extractLsb'_eq_self, Nat.reduceSub]
  simp

theorem PortId.code_toNat_client (q : PortIx) : (PortId.client q).code.toNat = q.val := by revert q; decide

theorem PortId.code_toNat_consumer (c : BusId) : (PortId.consumer c).code.toNat = 16 + c.toNat := by revert c; decide

theorem ownerField_toNat (o : Option PortId) :
    (ownerField o).toNat = match o with | none => 0 | some (.client q) => q.val | some (.consumer c) => 16 + c.toNat := by
  rcases o with _ | _ | _
  · rfl
  · exact PortId.code_toNat_client _
  · exact PortId.code_toNat_consumer _

theorem engineField_toNat (c : Config) (b : BusId) (u : Bus) :
    (engineField c b u).toNat =
      if c.isFourWire b then (match u.spiState with | .idle => 0 | .transferring => 1)
      else match u.i2cState with | .idle => 0 | .waitBusFree => 1 | .started => 2 | .addressSent => 3 | .transferActive => 4 := by
  unfold engineField
  split_ifs
  · cases u.spiState <;> rfl
  · cases u.i2cState <;> rfl

theorem consField_toNat (c : Config) (b : BusId) (st : ConsState) :
    (if c.hasChannel b then st.code else 0).toNat =
      if c.hasChannel b then (match st with | .cIdle => 0 | .cLock => 1 | .cRun => 2 | .cPush => 3) else 0 := by
  split_ifs
  · cases st <;> rfl
  · rfl

theorem toNat_ofNat_eight {n : Nat} (h : n ≤ 255) : (BitVec.ofNat 8 n).toNat = n := by
  rw [BitVec.toNat_ofNat]
  exact Nat.mod_eq_of_lt (by omega)

/-- Setting the bits of a list of slaves sets exactly theirs. -/
theorem getLsbD_foldl_csBit (l : List SlaveDesc) (m : BitVec 16) (sl : SlaveId) :
    (l.foldl (fun m d => m ||| csBit d.id) m).getLsbD sl.toNat = (m.getLsbD sl.toNat || l.any (·.id == sl)) := by
  induction l generalizing m with
  | nil => simp
  | cons d l ih =>
    rw [List.foldl_cons, ih, BitVec.getLsbD_or, csBit_getLsbD, List.any_cons, Bool.or_assoc]
    rfl

/-- R36: the bit of a slave id is set exactly where it is one of the bus's. -/
theorem slaveMask_getLsbD (c : Config) (b : BusId) (sl : SlaveId) : (slaveMask c b).getLsbD sl.toNat = c.hasSlave b sl := by
  simp [slaveMask, getLsbD_foldl_csBit, Config.hasSlave]

theorem statCs_getLsbD (s : State) (b : BusId) (sl : SlaveId) :
    (statCs s b).getLsbD sl.toNat = (s.cfg.hasSlave b sl && (s.bus b).cs.getLsbD sl.toNat) := by
  have hlt : sl.toNat < 32 := lt_trans sl.isLt (by decide)
  rw [statCs, BitVec.getLsbD_setWidth, decide_eq_true hlt, Bool.true_and, BitVec.getLsbD_and, slaveMask_getLsbD, Bool.and_comm]

/-- The bits above a word's own are 0. -/
theorem extract_setWidth_above {n w k : Nat} (x : BitVec n) : (x.setWidth w).extractLsb' n k = 0 := by
  apply BitVec.eq_of_getLsbD_eq
  intro i _
  simp [BitVec.getLsbD_of_ge]

theorem statPort_state (s : State) (p : PortIx) :
    (statPort s p).extractLsb' 0 2 = match (s.port p).pstate with | .ready => 0 | .waiting _ => 1 | .executing => 2 := by
  unfold statPort
  cases (s.port p).pstate <;> rfl

/-- Settles O52: each output has its fields (`statFatal_hasFields`, `statBus_hasFields`), and the FIFOs fit eight bits. -/
theorem statusOutputFields : Obligations.StatusOutputFields := by
  intro s b p hv hb hq
  obtain ⟨hfatal, hcause, hport, hzero, -⟩ := statFatal_hasFields s
  obtain ⟨howner, hengine, hack, hcons, hgap, hheld, hrq, hrsp, -⟩ := statBus_hasFields s b
  have hrqLe := hq.1.trans (Config.depth_le b hv).1
  have hrspLe := hq.2.trans (Config.depth_le b hv).2
  refine ⟨⟨getLsbD_eq_of_extract hfatal, hcause, hport, hzero⟩, ⟨rfl, rfl⟩, ?bus, ⟨statCs_getLsbD s b, extract_setWidth_above _⟩,
    statPort_state s p, extract_setWidth_above _⟩
  exact ⟨(congrArg BitVec.toNat howner).trans (ownerField_toNat _), (congrArg BitVec.toNat hengine).trans (engineField_toNat ..),
    getLsbD_eq_of_extract hack, (congrArg BitVec.toNat hcons).trans (consField_toNat ..), hgap, getLsbD_eq_of_extract hheld,
    (congrArg BitVec.toNat hrq).trans (toNat_ofNat_eight hrqLe), (congrArg BitVec.toNat hrsp).trans (toNat_ofNat_eight hrspLe)⟩

end Sys2Proof.Machine
end

section
/-! PROOFS. Runs of several steps: a wait that times out (spec/60_exceptions.md R251), and the transactions that succeed (spec/41_i2c.md
R154, spec/42_spi.md R180..R182). -/

namespace Sys2Proof.Machine

/-! ## The steps of a run -/

theorem run_succ {s t : State} (h : step s = .next t) (k : Nat) :
    Host.Core.run core (k + 1) s = Host.Core.run core k t := by
  have hs : core.step s = .next t := h
  simp only [Host.Core.run, hs]

/-- One fixed move that is enabled, then the rest of the run. -/
theorem run_move {s t : State} {m : Move} {rest : List Move} (hv : s.cfg.valid = true) (hm : s.moves = m :: rest)
    (he : moveEnabled { s with moves := rest } m = true) (hr : runMove { s with moves := rest } m = .next t) (k : Nat) :
    Host.Core.run core (k + 1) s = Host.Core.run core k t :=
  run_succ ((step_of_enabled hv hm he).trans hr) k

/-! ## A wait that times out (R111, R202, R204, R251) -/

/-- The clock's step is enabled in every running state. -/
theorem moveEnabled_clockTick {s : State} (hf : s.fatal = false) : moveEnabled s .clockTick = true := by
  rw [moveEnabled_running hf]; rfl

/-- The state `n` ticks later, with the moves `rest` still to come. -/
def State.after (s : State) (n : Nat) (rest : List Move) : State := { s with tick := s.tick + BitVec.ofNat 32 n, moves := rest }

/-- `n` steps of the clock add `n` to `tick`, modulo 2^32. -/
theorem run_clockTicks {s : State} {rest : List Move} (hv : s.cfg.valid = true) (hf : s.fatal = false) (n k : Nat)
    (hm : s.moves = List.replicate n .clockTick ++ rest) :
    Host.Core.run core (n + k) s = Host.Core.run core k (s.after n rest) := by
  induction n generalizing s with
  | zero =>
    obtain rfl : s.moves = rest := hm
    rw [Nat.zero_add, State.after, BitVec.add_zero]
  | succ n ih =>
    have htick : s.tick + BitVec.ofNat 32 (n + 1) = s.tick + 1 + BitVec.ofNat 32 n := by
      rw [BitVec.ofNat_add, BitVec.add_comm (BitVec.ofNat 32 n), ← BitVec.add_assoc]
      rfl
    rw [Nat.succ_add, run_move hv hm (moveEnabled_clockTick hf) rfl, State.after, htick]
    exact ih hv hf rfl

/-- The first `n < 2^32` ticks after a time `t0` have each a different count. -/
theorem toNat_elapsed (t0 : Word) {n : Nat} (h : n < 2 ^ 32) : (t0 + BitVec.ofNat 32 n - t0).toNat = n := by
  rw [BitVec.add_comm, BitVec.add_sub_cancel, BitVec.toNat_ofNat, Nat.mod_eq_of_lt h]

/-- Settles O25: the elapsed time is the number of ticks (`toNat_elapsed`), so the wait expires at its timeout and not before. -/
theorem waitTimesOutAfterItsTimeout : Obligations.WaitTimesOutAfterItsTimeout := by
  rintro s p w n rest hv hf hp hw ht0 hT rfl hm
  have hlt : w.timeout.toNat < 2 ^ 32 := lt_trans w.timeout.isLt (by decide)
  refine ⟨fun k hk => ?_, ?_⟩
  · have hnot := (moveEnabled_portTimeout_iff (s := { s with tick := s.tick + BitVec.ofNat 32 k }) hf hp hw).not
    rw [← Bool.not_eq_true]
    refine hnot.2 fun h => ?_
    have hle := h.2
    rw [ht0, toNat_elapsed _ (hk.trans hlt)] at hle
    omega
  · have he : moveEnabled (s.after w.timeout.toNat rest) (.portTimeout p) = true :=
      (moveEnabled_portTimeout_iff (s := s.after w.timeout.toNat rest) hf hp hw).2 ⟨hT, by
        rw [State.after, ht0, toNat_elapsed _ hlt]⟩
    have hrun := run_move (s := s.after w.timeout.toNat (.portTimeout p :: rest)) hv rfl he
      (runMove_portTimeout (s := s.after w.timeout.toNat rest) hw) 0
    refine ⟨_, (run_clockTicks hv hf _ 1 hm).trans hrun, rfl, rfl, fun q hq => port_respond_of_ne _ _ _ hq, fun _ => rfl, ?_⟩
    rw [port_respond_same]
    cases w.kind <;> rfl

/-! ## The job buffer as bytes in order -/

/-- The byte written follows the bytes before its index. -/
theorem bufPrefix_bufWrite {m m' : Vector Byte 63} {i : Nat} {x : Byte} (h : bufWrite m i x = some m') :
    bufPrefix m' (i + 1) = bufPrefix m i ++ [x] := by
  have hi : i < 63 := by
    by_contra hn
    rw [bufWrite_none.2 (by omega)] at h
    cases h
  obtain rfl : m.set i x hi = m' := by simpa [bufWrite, hi] using h
  simp [bufPrefix, List.take_add_one, Vector.toList_set, List.take_set_of_le, hi]

/-! ## Runs on one bus -/

/-- The state with bus `b` at `u` and the moves `ms` still to come. -/
def State.onBus (s : State) (b : BusId) (u : Bus) (ms : List Move) : State := { s with moves := ms }.setBus b u

section OnBus
variable (s : State) (b : BusId) (u : Bus) (ms : List Move)

theorem bus_onBus : (s.onBus b u ms).bus b = u := bus_setBus_same ..

theorem setBus_onBus (v : Bus) : (s.onBus b u ms).setBus b v = s.onBus b v ms := setBus_setBus_same ..

theorem onBus_self {s : State} {ms : List Move} (b : BusId) (hm : s.moves = ms) : s.onBus b (s.bus b) ms = s := by
  subst hm; exact setBus_self s b

end OnBus

/-- The outcome of the moves `ms`, with bus `b` at `u` and the moves `rest` still to come after them. -/
def runMoves (s : State) (b : BusId) (u : Bus) (ms rest : List Move) : Host.Outcome State Fault Refusal :=
  Host.Core.run core ms.length (s.onBus b u (ms ++ rest))

theorem run_eq_runMoves {s : State} {ms rest : List Move} (b : BusId) (hm : s.moves = ms ++ rest) :
    Host.Core.run core ms.length s = runMoves s b (s.bus b) ms rest := by
  rw [runMoves, onBus_self b hm]

section Runs
variable {s : State} {b : BusId} {u : Bus} {m : Move} {ms rest : List Move} {f : Bus → Bus} (hv : s.cfg.valid = true)
  (hf : s.fatal = false) (he : ∀ t : State, t.cfg = s.cfg → t.bus b = u → enabledRunning t m = true)
include hv hf he

/-- A move that writes the bus, then the rest of the run. -/
theorem runMoves_cons (hr : ∀ t : State, t.tick = s.tick → t.bus b = u → runMove t m = .next (t.setBus b (f (t.bus b)))) :
    runMoves s b u (m :: ms) rest = runMoves s b (f u) ms rest := by
  have hen : moveEnabled (s.onBus b u (ms ++ rest)) m = true :=
    (moveEnabled_running (s := s.onBus b u (ms ++ rest)) hf).trans (he _ rfl (bus_onBus ..))
  have hrun := hr (s.onBus b u (ms ++ rest)) rfl (bus_onBus ..)
  rw [bus_onBus, setBus_onBus] at hrun
  exact run_move (s := s.onBus b u (m :: (ms ++ rest))) hv rfl hen hrun ms.length

/-- The last move of a run: `f` on the bus, and then `g`. -/
theorem runMoves_last {g : State → State}
    (hr : ∀ t : State, t.tick = s.tick → t.bus b = u → runMove t m = .next (g (t.setBus b (f (t.bus b))))) :
    runMoves s b u [m] rest = .next (g (s.onBus b (f u) rest)) := by
  have hen : moveEnabled (s.onBus b u rest) m = true :=
    (moveEnabled_running (s := s.onBus b u rest) hf).trans (he _ rfl (bus_onBus ..))
  have hrun := hr (s.onBus b u rest) rfl (bus_onBus ..)
  rw [bus_onBus, setBus_onBus] at hrun
  exact run_move (s := s.onBus b u (m :: rest)) hv rfl hen hrun 0

end Runs

/-! ## The moves of a two-wire transaction -/

section TwoWire
variable {s : State} {b : BusId} {u : Bus} {ms rest : List Move} (hv : s.cfg.valid = true) (hf : s.fatal = false)
  (hk : s.cfg.isTwoWire b = true)

/-- R20: a move of the two-wire side of the bus is enabled by its condition. -/
theorem enabled_twoWire {m : Move} {cond : Bus → Bool} (hk : s.cfg.isTwoWire b = true) (hc : cond u = true)
    (hm : ∀ t : State, t.cfg = s.cfg → enabledRunning t m = onTwoWire t b cond) (t : State) (ht : t.cfg = s.cfg) (hu : t.bus b = u) :
    enabledRunning t m = true := by
  rw [hm t ht, onTwoWire, ht, hk, hu, hc]; rfl

include hv hf hk

theorem runMoves_i2cStart (hw : u.i2cState = .waitBusFree) (hb : u.busy = false) :
    runMoves s b u (.i2cStart b :: ms) rest = runMoves s b ((u.emit .start).enter .started s.tick) ms rest :=
  runMoves_cons (f := fun u : Bus => (u.emit .start).enter .started s.tick) hv hf
    (enabled_twoWire hk (i2cStartEnabled_iff.2 ⟨hw, hb⟩) fun _ _ => rfl) fun t ht _ => by rw [← ht]; rfl

theorem runMoves_envStartLatched (hw : u.i2cState = .started) (hb : u.sb = false) :
    runMoves s b u (.envStartLatched b :: ms) rest = runMoves s b { u with sb := true } ms rest :=
  runMoves_cons (f := fun u : Bus => { u with sb := true }) hv hf
    (enabled_twoWire hk (envStartLatchedEnabled_iff.2 ⟨hw, hb⟩) fun _ _ => rfl) fun _ _ _ => rfl

theorem runMoves_i2cAddress (hw : u.i2cState = .started) (hb : u.sb = true) :
    runMoves s b u (.i2cAddress b :: ms) rest =
      runMoves s b (({ u with sb := false }.emit (.addr (addressByte u.job.addr u.job.dir))).enter .addressSent s.tick) ms rest :=
  runMoves_cons (f := fun u : Bus => ({ u with sb := false }.emit (.addr (addressByte u.job.addr u.job.dir))).enter .addressSent s.tick)
    hv hf (enabled_twoWire hk (i2cAddressEnabled_iff.2 ⟨hw, hb⟩) fun _ _ => rfl) fun t ht _ => by rw [← ht]; rfl

theorem runMoves_envAddrAck (hw : u.i2cState = .addressSent) (ha : u.addr = false) (haf : u.af = false) :
    runMoves s b u (.envAddrAck b :: ms) rest = runMoves s b { u with addr := true } ms rest :=
  runMoves_cons (f := fun u : Bus => { u with addr := true }) hv hf
    (enabled_twoWire hk (envAddressEnabled_iff.2 ⟨hw, ha, haf⟩) fun _ _ => rfl) fun _ _ _ => rfl

/-- The bus when the slave has acknowledged its address (R140, R141, R150). -/
def Bus.addressed (u : Bus) (tick : Word) : Bus :=
  { u with
    sb := false, addr := true, i2cState := .addressSent, job := { u.job with t0 := tick }
    trace := u.trace ++ [.start] ++ [.addr (addressByte u.job.addr u.job.dir)] }

/-- The moves before the engine's answer to the acknowledged address. -/
theorem runMoves_addressed (hw : u.i2cState = .waitBusFree) (hbusy : u.busy = false) (hsb : u.sb = false) (haddr : u.addr = false)
    (haf : u.af = false) :
    runMoves s b u (.i2cStart b :: .envStartLatched b :: .i2cAddress b :: .envAddrAck b :: ms) rest =
      runMoves s b (u.addressed s.tick) ms rest := by
  rw [runMoves_i2cStart hv hf hk hw hbusy,
    runMoves_envStartLatched (u := (u.emit .start).enter .started s.tick) hv hf hk rfl hsb, runMoves_i2cAddress hv hf hk rfl rfl]
  exact runMoves_envAddrAck hv hf hk rfl haddr haf

/-! ## The bytes of a write (R142, R145, R151) -/

theorem runMoves_acked_emptyWrite (hw : u.i2cState = .addressSent) (ha : u.addr = true) (hd : u.job.dir = .write)
    (hl : u.job.len = 0) :
    runMoves s b u [.i2cAcked b] rest = .next (i2cFinish (s.onBus b { u with addr := false } rest) b .ok) :=
  runMoves_last (f := fun u : Bus => { u with addr := false }) (g := (i2cFinish · b .ok)) hv hf
    (enabled_twoWire hk (i2cAckedEnabled_iff.2 ⟨hw, ha⟩) fun _ _ => rfl)
    fun t _ hu => i2cAcked_emptyWrite (by rwa [hu]) (by rwa [hu])

theorem runMoves_acked_write {d : Byte} (hw : u.i2cState = .addressSent) (ha : u.addr = true) (hd : u.job.dir = .write)
    (hl : u.job.len ≠ 0) (hbuf : bufRead u.jobBuf 0 = some d) :
    runMoves s b u (.i2cAcked b :: ms) rest =
      runMoves s b (({ u with addr := false }.emit (.tx d)).enter .transferActive s.tick) ms rest :=
  runMoves_cons (f := fun u : Bus => ({ u with addr := false }.emit (.tx d)).enter .transferActive s.tick) hv hf
    (enabled_twoWire hk (i2cAckedEnabled_iff.2 ⟨hw, ha⟩) fun _ _ => rfl)
    fun t ht hu => ht ▸ i2cAcked_write (by rwa [hu]) (by rwa [hu]) (by rwa [hu])

theorem runMoves_envByteDone (hw : u.i2cState = .transferActive) (hd : u.job.dir = .write) (hb : u.btf = false) :
    runMoves s b u (.envByteDone b false :: ms) rest = runMoves s b { u with btf := true, af := false } ms rest :=
  runMoves_cons (f := fun u : Bus => { u with btf := true, af := false }) hv hf
    (enabled_twoWire hk (envByteDoneEnabled_iff.2 ⟨hw, hd, hb⟩) fun _ _ => rfl) fun _ _ _ => rfl

/-- The bus when a byte of a write is acknowledged and counted. -/
def Bus.byteAcked (u : Bus) : Bus := { u with btf := false, af := false }.nextByte

theorem runMoves_byteAcked_last (hw : u.i2cState = .transferActive) (hd : u.job.dir = .write) (hb : u.btf = false)
    (hl : u.job.idx + 1 = u.job.len) :
    runMoves s b u [.envByteDone b false, .i2cByteSent b] rest = .next (i2cFinish (s.onBus b u.byteAcked rest) b .ok) :=
  (runMoves_envByteDone hv hf hk hw hd hb).trans <|
    runMoves_last (u := { u with btf := true, af := false }) (f := fun u => Bus.nextByte { u with btf := false })
      (g := (i2cFinish · b .ok)) hv hf (enabled_twoWire hk (i2cByteSentEnabled_iff.2 ⟨hw, hd, rfl⟩) fun _ _ => rfl)
      fun t _ hu => i2cByteSent_last (by rw [hu]) (by rwa [hu])

theorem runMoves_byteAcked_more {d : Byte} (hw : u.i2cState = .transferActive) (hd : u.job.dir = .write) (hb : u.btf = false)
    (hl : u.job.idx + 1 ≠ u.job.len) (hbuf : bufRead u.jobBuf (u.job.idx + 1) = some d) :
    runMoves s b u (.envByteDone b false :: .i2cByteSent b :: ms) rest =
      runMoves s b ((u.byteAcked.emit (.tx d)).stamp s.tick) ms rest :=
  (runMoves_envByteDone hv hf hk hw hd hb).trans <|
    runMoves_cons (u := { u with btf := true, af := false })
      (f := fun u => ((Bus.nextByte { u with btf := false }).emit (.tx d)).stamp s.tick) hv hf
      (enabled_twoWire hk (i2cByteSentEnabled_iff.2 ⟨hw, hd, rfl⟩) fun _ _ => rfl)
      fun t ht hu => ht ▸ i2cByteSent_more (by rw [hu]) (by rwa [hu]) (by rwa [hu])

/-- The moves of the bytes of a write. -/
def writeBytes (b : BusId) (n : Nat) : List Move := (List.replicate n [.envByteDone b false, .i2cByteSent b]).flatten

omit hv hf hk in
theorem writeSchedule_eq (n : Nat) :
    writeSchedule b n =
      .i2cStart b :: .envStartLatched b :: .i2cAddress b :: .envAddrAck b :: .i2cAcked b :: writeBytes b n := rfl

/-- What a job leaves of its bus: its port, its direction and destination, the lock and the lines. -/
structure SameJob (u v : Bus) : Prop where
  port : v.job.port = u.job.port
  dir : v.job.dir = u.job.dir
  dest : v.job.dest = u.job.dest
  lockOwner : v.lockOwner = u.lockOwner
  cs : v.cs = u.cs

/-- From the byte at the index in flight, with `more` after it, every byte is acknowledged, and the job ends OK. -/
theorem runMoves_writeBytes (more : List Byte) (hw : u.i2cState = .transferActive) (hd : u.job.dir = .write) (hb : u.btf = false)
    (hl : u.job.idx + 1 + more.length = u.job.len)
    (hbuf : ∀ i < more.length, bufRead u.jobBuf (u.job.idx + 1 + i) = more[i]?) :
    ∃ v, runMoves s b u (writeBytes b (more.length + 1)) rest = .next (i2cFinish (s.onBus b v rest) b .ok) ∧ SameJob u v ∧
      v.job.idx = u.job.len ∧ v.trace = u.trace ++ more.map .tx := by
  induction more generalizing u with
  | nil =>
    exact ⟨u.byteAcked, runMoves_byteAcked_last hv hf hk hw hd hb hl, ⟨rfl, rfl, rfl, rfl, rfl⟩, hl,
      (List.append_nil _).symm⟩
  | cons d more ih =>
    rw [List.length_cons] at hl
    have hnext : bufRead u.jobBuf (u.job.idx + 1) = some d := hbuf 0 (by simp)
    have hrest (i) (hi : i < more.length) : bufRead u.jobBuf (u.job.idx + 1 + 1 + i) = more[i]? := by
      rw [Nat.add_right_comm _ 1 i]
      exact hbuf (i + 1) (by simpa using hi)
    obtain ⟨v, hrun, hsame, hidx, htrace⟩ :=
      ih (u := (u.byteAcked.emit (.tx d)).stamp s.tick) hw hd rfl (by change u.job.idx + 1 + 1 + _ = u.job.len; omega) hrest
    refine ⟨v, (runMoves_byteAcked_more hv hf hk hw hd hb (by omega) hnext).trans hrun, ⟨hsame.port, hsame.dir, hsame.dest,
      hsame.lockOwner, hsame.cs⟩, hidx, ?_⟩
    rw [htrace, List.map_cons, List.append_cons]
    rfl

/-! ## The bytes of a read (R142, R144, R146, R151) -/

theorem runMoves_acked_read (hw : u.i2cState = .addressSent) (ha : u.addr = true) (hd : u.job.dir = .read) :
    runMoves s b u (.i2cAcked b :: ms) rest =
      runMoves s b (({ u with addr := false }.setAck 0).enter .transferActive s.tick) ms rest :=
  runMoves_cons (f := fun u : Bus => ({ u with addr := false }.setAck 0).enter .transferActive s.tick) hv hf
    (enabled_twoWire hk (i2cAckedEnabled_iff.2 ⟨hw, ha⟩) fun _ _ => rfl) fun t ht hu => ht ▸ i2cAcked_read (by rwa [hu])

theorem runMoves_envByteReady (x : Byte) (hw : u.i2cState = .transferActive) (hd : u.job.dir = .read) (hb : u.rxne = false) :
    runMoves s b u (.envByteReady b x :: ms) rest = runMoves s b { u with rxne := true, dr := x } ms rest :=
  runMoves_cons (f := fun u : Bus => { u with rxne := true, dr := x }) hv hf
    (enabled_twoWire hk (envByteReadyEnabled_iff.2 ⟨hw, hd, hb⟩) fun _ _ => rfl) fun _ _ _ => rfl

/-- The bus when the byte `x` is received, traced and stored; `m` is the job buffer with it. -/
def Bus.byteStored (u : Bus) (x : Byte) (m : Vector Byte 63) : Bus := Bus.afterReceive { u with rxne := true, dr := x } m

section Received
variable {x : Byte} {m : Vector Byte 63} (hw : u.i2cState = .transferActive) (hd : u.job.dir = .read)
  (hdest : u.job.dest = .port) (hb : u.rxne = false) (hm : bufWrite u.jobBuf u.job.idx x = some m)
include hw hd hdest hb hm

theorem runMoves_byteStored_last (hl : u.job.idx + 1 = u.job.len) :
    runMoves s b u [.envByteReady b x, .i2cByteReceived b] rest =
      .next (i2cFinish (s.onBus b (u.byteStored x m) rest) b .ok) :=
  (runMoves_envByteReady hv hf hk x hw hd hb).trans <|
    runMoves_last (u := { u with rxne := true, dr := x }) (f := fun u => u.afterReceive m) (g := (i2cFinish · b .ok)) hv hf
      (enabled_twoWire hk (i2cByteReceivedEnabled_iff (c := s.cfg) (b := b).2 ⟨hw, hd, rfl, .inl hdest⟩) fun t ht => by rw [← ht]; rfl)
      fun t _ hu => (i2cByteReceived_stored (by rw [hu]; exact hm)).trans (if_pos (by rw [hu]; exact hl))

theorem runMoves_byteStored_more (hl : u.job.idx + 1 ≠ u.job.len) :
    runMoves s b u (.envByteReady b x :: .i2cByteReceived b :: ms) rest =
      runMoves s b (((u.byteStored x m).setAck (u.job.idx + 1)).stamp s.tick) ms rest :=
  (runMoves_envByteReady hv hf hk x hw hd hb).trans <|
    runMoves_cons (u := { u with rxne := true, dr := x })
      (f := fun u => ((u.afterReceive m).setAck (u.job.idx + 1)).stamp s.tick) hv hf
      (enabled_twoWire hk (i2cByteReceivedEnabled_iff (c := s.cfg) (b := b).2 ⟨hw, hd, rfl, .inl hdest⟩) fun t ht => by rw [← ht]; rfl)
      fun t ht hu => ht ▸ (i2cByteReceived_stored (by rw [hu]; exact hm)).trans (if_neg (by rw [hu]; exact hl))

end Received

/-- The moves of the bytes of a read. -/
def readBytes (b : BusId) (vs : List Byte) : List Move := vs.flatMap fun v => [.envByteReady b v, .i2cByteReceived b]

omit hv hf hk in
theorem readSchedule_eq (vs : List Byte) :
    readSchedule b vs =
      .i2cStart b :: .envStartLatched b :: .i2cAddress b :: .envAddrAck b :: .i2cAcked b :: readBytes b vs := rfl

/-- From the byte at the index in flight, the bytes `x :: xs` are received and stored, and the job ends OK. -/
theorem runMoves_readBytes (x : Byte) (xs : List Byte) (hw : u.i2cState = .transferActive) (hd : u.job.dir = .read)
    (hdest : u.job.dest = .port) (hb : u.rxne = false) (hl : u.job.idx + 1 + xs.length = u.job.len) (h63 : u.job.len ≤ 63)
    {tr : List WireEvent} (htr : u.trace = tr ++ [.ackCtl (ackBit u.job u.job.idx)]) :
    ∃ v, runMoves s b u (readBytes b (x :: xs)) rest = .next (i2cFinish (s.onBus b v rest) b .ok) ∧ SameJob u v ∧
      v.job.idx = u.job.len ∧ bufPrefix v.jobBuf v.job.idx = bufPrefix u.jobBuf u.job.idx ++ x :: xs ∧
      v.trace = tr ++ readEvents (x :: xs) := by
  obtain ⟨m, hm⟩ := bufWrite_isSome (m := u.jobBuf) (i := u.job.idx) (v := x) (by omega)
  induction xs generalizing u x tr m with
  | nil =>
    have hack : ackBit u.job u.job.idx = false := by
      rw [← Bool.not_eq_true, ackBit_iff]
      exact hl.not_lt
    refine ⟨u.byteStored x m, runMoves_byteStored_last hv hf hk hw hd hdest hb hm hl, ⟨rfl, rfl, rfl, rfl, rfl⟩, hl,
      bufPrefix_bufWrite hm, ?_⟩
    change u.trace ++ [.rx x] = _
    rw [htr, hack, List.append_assoc]
    rfl
  | cons y ys ih =>
    rw [List.length_cons] at hl
    have hack : ackBit u.job u.job.idx = true := ackBit_iff.2 (by omega)
    obtain ⟨m', hm'⟩ := bufWrite_isSome (m := m) (i := u.job.idx + 1) (v := y) (by omega)
    have hnext : (((u.byteStored x m).setAck (u.job.idx + 1)).stamp s.tick).trace =
        tr ++ [.ackCtl true, .rx x] ++ [.ackCtl (ackBit u.job (u.job.idx + 1))] := by
      change u.trace ++ [.rx x] ++ _ = _
      rw [htr, hack, List.append_assoc tr]
      rfl
    obtain ⟨v, hrun, hsame, hidx, hbuf, htrace⟩ :=
      ih (u := ((u.byteStored x m).setAck (u.job.idx + 1)).stamp s.tick) y hw hd hdest rfl
        (by change u.job.idx + 1 + 1 + _ = u.job.len; omega) h63 hnext m' hm'
    refine ⟨v, (runMoves_byteStored_more hv hf hk hw hd hdest hb hm (by omega)).trans hrun,
      ⟨hsame.port, hsame.dir, hsame.dest, hsame.lockOwner, hsame.cs⟩, hidx, ?_, ?_⟩
    · refine hbuf.trans ?_
      change bufPrefix m (u.job.idx + 1) ++ y :: ys = _
      rw [bufPrefix_bufWrite hm, List.append_assoc]
      rfl
    · rw [htrace, List.append_assoc]
      rfl

/-! ## The data phases (R142) -/

/-- From the acknowledged address, every byte of a write of `data` is acknowledged, and the job ends OK. -/
theorem runMoves_writeData (data : List Byte) (hw : u.i2cState = .addressSent) (ha : u.addr = true) (hd : u.job.dir = .write)
    (hb : u.btf = false) (hidx : u.job.idx = 0) (hl : u.job.len = data.length)
    (hbuf : ∀ i < data.length, bufRead u.jobBuf i = data[i]?) :
    ∃ v, runMoves s b u (.i2cAcked b :: writeBytes b data.length) rest = .next (i2cFinish (s.onBus b v rest) b .ok) ∧
      SameJob u v ∧ v.job.idx = data.length ∧ v.trace = u.trace ++ data.map .tx := by
  cases data with
  | nil =>
    exact ⟨_, runMoves_acked_emptyWrite hv hf hk hw ha hd hl, ⟨rfl, rfl, rfl, rfl, rfl⟩, hidx, (List.append_nil _).symm⟩
  | cons d more =>
    rw [List.length_cons] at hl
    have hrest (i) (hi : i < more.length) : bufRead u.jobBuf (u.job.idx + 1 + i) = more[i]? := by
      rw [hidx, Nat.zero_add, Nat.add_comm]
      exact hbuf (i + 1) (by simpa using hi)
    obtain ⟨v, hrun, hsame, hvidx, htrace⟩ := runMoves_writeBytes
      (u := ({ u with addr := false }.emit (.tx d)).enter .transferActive s.tick) (rest := rest) hv hf hk more rfl hd hb
      (by change u.job.idx + 1 + _ = u.job.len; omega) hrest
    refine ⟨v, (runMoves_acked_write hv hf hk hw ha hd (by omega) (hbuf 0 (by simp))).trans hrun,
      ⟨hsame.port, hsame.dir, hsame.dest, hsame.lockOwner, hsame.cs⟩, hvidx.trans hl, ?_⟩
    rw [htrace, List.map_cons, List.append_cons]
    rfl

/-- From the acknowledged address, the bytes `x :: xs` of a read are received, and the job ends OK. -/
theorem runMoves_readData (x : Byte) (xs : List Byte) (hw : u.i2cState = .addressSent) (ha : u.addr = true)
    (hd : u.job.dir = .read) (hdest : u.job.dest = .port) (hb : u.rxne = false) (hidx : u.job.idx = 0)
    (hl : u.job.len = xs.length + 1) (h63 : u.job.len ≤ 63) :
    ∃ v, runMoves s b u (.i2cAcked b :: readBytes b (x :: xs)) rest = .next (i2cFinish (s.onBus b v rest) b .ok) ∧
      SameJob u v ∧ v.job.idx = xs.length + 1 ∧ bufPrefix v.jobBuf v.job.idx = x :: xs ∧
      v.trace = u.trace ++ readEvents (x :: xs) := by
  obtain ⟨v, hrun, hsame, hvidx, hbuf, htrace⟩ := runMoves_readBytes
    (u := ({ u with addr := false }.setAck 0).enter .transferActive s.tick) (rest := rest) hv hf hk x xs rfl hd hdest hb
    (by change u.job.idx + 1 + _ = u.job.len; omega) h63 (tr := u.trace) (by
      change u.trace ++ [.ackCtl (ackBit u.job 0)] = u.trace ++ [.ackCtl (ackBit u.job u.job.idx)]
      rw [hidx])
  refine ⟨v, (runMoves_acked_read hv hf hk hw ha hd).trans hrun, ⟨hsame.port, hsame.dir, hsame.dest, hsame.lockOwner, hsame.cs⟩,
    hvidx.trans hl, hbuf.trans ?_, htrace⟩
  change bufPrefix u.jobBuf u.job.idx ++ x :: xs = x :: xs
  rw [hidx]
  rfl

end TwoWire

/-! ## The end of a client's job -/

section End
variable (s : State) (b : BusId) (rest : List Move) {v : Bus} {p : PortIx}

/-- What a run that ends by answering a port leaves: `t` differs from `s` in the moves, in bus `b` and in port `p` alone. -/
structure RunEnd (s t : State) (b : BusId) (p : PortIx) (rest : List Move) (u : Bus) (x : Port) : Prop where
  moves : t.moves = rest
  ports : SamePortsBut s t p
  buses : SameBusesBut s t b
  bus : t.bus b = u
  port : t.port p = x

theorem runEnd_respond (u : Bus) (p : PortIx) (w : Word) (bytes : List Byte) :
    RunEnd s (respond (s.onBus b u rest) p w bytes) b p rest u
      { s.port p with pstate := .ready, resp := w, rdata := bytes } where
  moves := rfl
  ports _ h := port_respond_of_ne _ _ _ h
  buses _ h := bus_setBus_of_ne _ _ h
  bus := bus_onBus ..
  port := port_respond_same ..

theorem runEnd_i2cFinish (hp : v.job.port = .client p) (st : Status) :
    RunEnd s (i2cFinish (s.onBus b v rest) b st) b p rest v.i2cEnd
      { s.port p with pstate := .ready, resp := W st v.job.idx v.job.hasData, rdata := v.i2cData } := by
  rw [i2cFinish, bus_onBus, setBus_onBus, hp]
  exact runEnd_respond ..

theorem runEnd_spiFinish (hp : v.job.port = .client p) (st : Status) :
    RunEnd s (spiFinish (s.onBus b v rest) b st) b p rest v.spiEnd
      { s.port p with pstate := .ready, resp := W st v.job.idx true, rdata := bufPrefix v.jobBuf v.job.idx } := by
  rw [spiFinish, bus_onBus, setBus_onBus, hp]
  exact runEnd_respond ..

end End

/-! ## The two-wire transactions (R154, R149) -/

theorem bufRead_of_prefix {m : Vector Byte 63} {data : List Byte} (h : m.toList.take data.length = data) {i : Nat}
    (hi : i < data.length) : bufRead m i = data[i]? := by
  rw [← h, List.getElem?_take, if_pos hi]
  simp [bufRead]

theorem eq_of_toNat {w : Nat} {x : BitVec w} {n : Nat} (h : x.toNat = n) : x = BitVec.ofNat w n := by
  rw [← h, BitVec.ofNat_toNat, BitVec.setWidth_eq]

theorem trace_addressed (u : Bus) (tick : Word) (evs : List WireEvent) {n : Nat}
    (hn : (addressByte u.job.addr u.job.dir).toNat = n) :
    (u.addressed tick).trace ++ evs = u.trace ++ .start :: .addr (BitVec.ofNat 8 n) :: evs := by
  simp [Bus.addressed, eq_of_toNat hn]

/-- Settles O36: the address phase, the data phase of `runMoves_writeData`, and `finish`. -/
theorem successfulWriteTrace : Obligations.SuccessfulWriteTrace := by
  intro s b p a dest t0 data rest hv hf hk hw hbusy hsb haddr haf hbtf h63 hjob hbuf hm
  rw [writeSchedule_eq] at hm ⊢
  have hU : ((s.bus b).addressed s.tick).job = ⟨.client p, .write, a, data.length, 0, dest, s.tick⟩ := by
    rw [Bus.addressed, hjob]
  obtain ⟨v, hrun, hsame, hidx, htrace⟩ := runMoves_writeData (u := (s.bus b).addressed s.tick) (rest := rest) hv hf hk data rfl rfl
    (by rw [hU]) hbtf (by rw [hU]) (by rw [hU]) fun i => bufRead_of_prefix hbuf
  have hdata : v.job.hasData = false := by simp [Job.hasData, hsame.dir, hU]
  have hend := runEnd_i2cFinish s b rest (hsame.port.trans (congrArg Job.port hU)) .ok
  refine ⟨_, (run_eq_runMoves b hm).trans ((runMoves_addressed hv hf hk hw hbusy hsb haddr haf).trans hrun), hend.moves, hend.ports,
    hend.buses, congrArg Bus.i2cState hend.bus, (congrArg Bus.lockOwner hend.bus).trans hsame.lockOwner,
    (congrArg Bus.trace hend.bus).trans ?_, hend.port.trans ?_⟩
  · change v.trace ++ [.stop] = _
    rw [htrace, trace_addressed (n := 2 * a.toNat) _ _ _ (by rw [hjob]; exact addressByte_toNat a .write)]
  · rw [Bus.i2cData, hdata, hidx]
    rfl

/-- Settles O37: the address phase, the data phase of `runMoves_readData`, and `finish`. -/
theorem successfulReadTrace : Obligations.SuccessfulReadTrace := by
  intro s b p a t0 vs rest hv hf hk hw hbusy hsb haddr haf hrxne h1 h63 hjob hm
  rw [readSchedule_eq] at hm ⊢
  obtain ⟨x, xs, rfl⟩ := List.exists_cons_of_length_pos h1
  have hU : ((s.bus b).addressed s.tick).job = ⟨.client p, .read, a, xs.length + 1, 0, .port, s.tick⟩ := by
    rw [Bus.addressed, hjob, List.length_cons]
  obtain ⟨v, hrun, hsame, hidx, hbuf, htrace⟩ := runMoves_readData (u := (s.bus b).addressed s.tick) (rest := rest) hv hf hk x xs
    rfl rfl (by rw [hU]) (by rw [hU]) hrxne (by rw [hU]) (by rw [hU]) (by rw [hU]; exact h63)
  have hdata : v.job.hasData = true := by simp [Job.hasData, hsame.dir, hsame.dest, hU]
  have hend := runEnd_i2cFinish s b rest (hsame.port.trans (congrArg Job.port hU)) .ok
  refine ⟨_, (run_eq_runMoves b hm).trans ((runMoves_addressed hv hf hk hw hbusy hsb haddr haf).trans hrun), hend.moves, hend.ports,
    hend.buses, congrArg Bus.i2cState hend.bus, (congrArg Bus.lockOwner hend.bus).trans hsame.lockOwner,
    (congrArg Bus.trace hend.bus).trans ?_, hend.port.trans ?_⟩
  · change v.trace ++ [.stop] = _
    rw [htrace, trace_addressed (n := 2 * a.toNat + 1) _ _ _ (by rw [hjob]; exact addressByte_toNat a .read)]
  · rw [Bus.i2cData, hdata, if_pos rfl, hbuf, hidx]
    rfl

/-! ## The four-wire transfer (R180, R181, R182, R184) -/

section FourWire
variable {s : State} {b : BusId} {u : Bus} {ms rest : List Move} (hv : s.cfg.valid = true) (hf : s.fatal = false)
  (hk : s.cfg.isFourWire b = true)

/-- R20: a move of the four-wire side of the bus is enabled by its condition. -/
theorem enabled_fourWire {m : Move} {cond : Bus → Bool} (hk : s.cfg.isFourWire b = true) (hc : cond u = true)
    (hm : ∀ t : State, enabledRunning t m = onFourWire t b cond) (t : State) (ht : t.cfg = s.cfg) (hu : t.bus b = u) :
    enabledRunning t m = true := by
  rw [hm t, onFourWire, ht, hk, hu, hc]; rfl

include hv hf hk

theorem runMoves_envExchange (x : Byte) (hw : u.spiState = .transferring) (hb : u.srxne = false) :
    runMoves s b u (.envExchange b x :: ms) rest = runMoves s b { u with srxne := true, sdr := x } ms rest :=
  runMoves_cons (f := fun u : Bus => { u with srxne := true, sdr := x }) hv hf
    (enabled_fourWire hk (envExchangeEnabled_iff.2 ⟨hw, hb⟩) fun _ => rfl) fun _ _ _ => rfl

/-- The bus when `x` is received for `tx`, traced and stored; `m` is the job buffer with it. -/
def Bus.exchanged (u : Bus) (tx x : Byte) (m : Vector Byte 63) : Bus := Bus.afterExchange { u with srxne := true, sdr := x } tx m

section Exchanged
variable {tx x : Byte} {m : Vector Byte 63} (hw : u.spiState = .transferring) (hb : u.srxne = false)
  (htx : bufRead u.jobBuf u.job.idx = some tx) (hm : bufWrite u.jobBuf u.job.idx x = some m)
include hw hb htx hm

theorem runMoves_exchanged_last (hl : u.job.idx + 1 = u.job.len) :
    runMoves s b u [.envExchange b x, .spiExchange b] rest = .next (spiFinish (s.onBus b (u.exchanged tx x m) rest) b .ok) :=
  (runMoves_envExchange hv hf hk x hw hb).trans <|
    runMoves_last (u := { u with srxne := true, sdr := x }) (f := fun u => u.afterExchange tx m) (g := (spiFinish · b .ok)) hv hf
      (enabled_fourWire hk (spiExchangeEnabled_iff.2 ⟨hw, rfl⟩) fun _ => rfl)
      fun t _ hu => (spiExchange_stored (by rw [hu]; exact htx) (by rw [hu]; exact hm)).trans (if_pos (by rw [hu]; exact hl))

theorem runMoves_exchanged_more (hl : u.job.idx + 1 ≠ u.job.len) :
    runMoves s b u (.envExchange b x :: .spiExchange b :: ms) rest =
      runMoves s b ((u.exchanged tx x m).stamp s.tick) ms rest :=
  (runMoves_envExchange hv hf hk x hw hb).trans <|
    runMoves_cons (u := { u with srxne := true, sdr := x }) (f := fun u => (u.afterExchange tx m).stamp s.tick) hv hf
      (enabled_fourWire hk (spiExchangeEnabled_iff.2 ⟨hw, rfl⟩) fun _ => rfl)
      fun t ht hu => ht ▸ (spiExchange_stored (by rw [hu]; exact htx) (by rw [hu]; exact hm)).trans (if_neg (by rw [hu]; exact hl))

end Exchanged

/-- From the byte at the index in flight, `xs` are received for `txs`, and the job ends OK. -/
theorem runMoves_transfer (x : Byte) (xs txs : List Byte) (hw : u.spiState = .transferring) (hb : u.srxne = false)
    (hl : u.job.idx + 1 + xs.length = u.job.len) (h63 : u.job.len ≤ 63) (htxs : txs.length = xs.length + 1)
    (hbuf : ∀ i < txs.length, bufRead u.jobBuf (u.job.idx + i) = txs[i]?) :
    ∃ v, runMoves s b u (transferSchedule b (x :: xs)) rest = .next (spiFinish (s.onBus b v rest) b .ok) ∧ SameJob u v ∧
      v.job.idx = u.job.len ∧ bufPrefix v.jobBuf v.job.idx = bufPrefix u.jobBuf u.job.idx ++ x :: xs ∧
      v.trace = u.trace ++ List.zipWith .xfer txs (x :: xs) := by
  induction xs generalizing u x txs with
  | nil =>
    obtain ⟨m, hm⟩ := bufWrite_isSome (m := u.jobBuf) (i := u.job.idx) (v := x) (by omega)
    obtain ⟨tx, rfl⟩ := List.length_eq_one_iff.1 htxs
    exact ⟨u.exchanged tx x m, runMoves_exchanged_last hv hf hk hw hb (hbuf 0 (by simp)) hm hl, ⟨rfl, rfl, rfl, rfl, rfl⟩, hl,
      bufPrefix_bufWrite hm, rfl⟩
  | cons y ys ih =>
    rw [List.length_cons] at hl htxs
    obtain ⟨m, hm⟩ := bufWrite_isSome (m := u.jobBuf) (i := u.job.idx) (v := x) (by omega)
    obtain ⟨tx, txs, rfl⟩ := List.exists_cons_of_length_pos (l := txs) (by omega)
    have hrest (i) (hi : i < txs.length) : bufRead m (u.job.idx + 1 + i) = txs[i]? := by
      rw [bufRead_bufWrite hm, if_neg (by omega), Nat.add_assoc, Nat.add_comm 1]
      exact hbuf (i + 1) (by simpa using hi)
    obtain ⟨v, hrun, hsame, hidx, hpre, htrace⟩ := ih (u := (u.exchanged tx x m).stamp s.tick) y txs hw rfl
      (by change u.job.idx + 1 + 1 + _ = u.job.len; omega) h63 (by simpa using htxs) hrest
    refine ⟨v, (runMoves_exchanged_more hv hf hk hw hb (hbuf 0 (by simp)) hm (by omega)).trans hrun,
      ⟨hsame.port, hsame.dir, hsame.dest, hsame.lockOwner, hsame.cs⟩, hidx, hpre.trans ?_, ?_⟩
    · change bufPrefix m (u.job.idx + 1) ++ y :: ys = _
      rw [bufPrefix_bufWrite hm, List.append_assoc]
      rfl
    · rw [htrace, List.zipWith_cons_cons, List.append_cons]
      rfl

end FourWire

/-- Settles O43: the exchanges of `runMoves_transfer`, and `spi_finish`. -/
theorem successfulTransferTrace : Obligations.SuccessfulTransferTrace := by
  intro s b p txs vs rest hv hf hk hw hb hp hidx hlen h1 h63 htxs hbuf hm
  obtain ⟨x, xs, rfl⟩ := List.exists_cons_of_length_pos h1
  rw [List.length_cons] at hlen
  obtain ⟨v, hrun, hsame, hvidx, hpre, htrace⟩ := runMoves_transfer (u := s.bus b) (rest := rest) hv hf hk x xs txs hw hb
    (by omega) (hlen ▸ h63) htxs fun i hi => by
      rw [hidx, Nat.zero_add]
      exact bufRead_of_prefix (htxs ▸ hbuf) hi
  have hend := runEnd_spiFinish s b rest (hsame.port.trans hp) .ok
  refine ⟨_, (run_eq_runMoves b hm).trans hrun, hend.moves, hend.ports, hend.buses, congrArg Bus.spiState hend.bus,
    (congrArg Bus.cs hend.bus).trans hsame.cs, (congrArg Bus.lockOwner hend.bus).trans hsame.lockOwner,
    (congrArg Bus.trace hend.bus).trans htrace, hend.port.trans ?_⟩
  rw [hpre, hvidx, hidx, hlen]
  rfl

end Sys2Proof.Machine
end

section
/-! PROOFS. The trace is never read (spec/10_state.md R35, spec/60_exceptions.md R259): what two states that differ in the traces only can
do is the same. -/

namespace Sys2Proof.Machine

/-! ## States that differ in the traces only -/

/-- The two buses differ in the trace only. -/
def Bus.Retraced (u u' : Bus) : Prop := ∃ tr, u' = { u with trace := tr }

/-- The operation hands a change of the trace on, and nothing more of it. -/
def Carries (F : Bus → Bus) : Prop := ∀ u tr, (F u).Retraced (F { u with trace := tr })

theorem Carries.retraced {F : Bus → Bus} (hF : Carries F) {u u' : Bus} (h : u.Retraced u') : (F u).Retraced (F u') := by
  obtain ⟨tr, rfl⟩ := h
  exact hF u tr

/-- The two outcomes are of one kind, with next states that differ in the traces only. -/
inductive SameOutcome : Host.Outcome State Fault Refusal → Host.Outcome State Fault Refusal → Prop
  | next {t t' : State} (h : SameButTrace t t') : SameOutcome (.next t) (.next t')
  | fault (f : Fault) : SameOutcome (.fault f) (.fault f)
  | refused (r : Refusal) : SameOutcome (.refused r) (.refused r)

section Same
variable {s s' : State} (h : SameButTrace s s')
include h

theorem SameButTrace.tick : s'.tick = s.tick := h.1.tick
theorem SameButTrace.fatal : s'.fatal = s.fatal := h.1.fatal
theorem SameButTrace.cfg : s'.cfg = s.cfg := h.1.cfg
theorem SameButTrace.moves : s'.moves = s.moves := h.1.moves
theorem SameButTrace.draws : s'.draws = s.draws := h.1.draws
theorem SameButTrace.pres : s'.pres = s.pres := h.1.pres
theorem SameButTrace.port (p : PortIx) : s'.port p = s.port p := h.2.1 p
theorem SameButTrace.bus (b : BusId) : (s.bus b).Retraced (s'.bus b) := h.2.2 b

/-- A field of a bus that is not the trace. -/
theorem SameButTrace.field {α : Type} (f : Bus → α) (b : BusId) (hf : ∀ u tr, f { u with trace := tr } = f u := by intros; rfl) :
    f (s'.bus b) = f (s.bus b) := by
  obtain ⟨tr, hb⟩ := h.bus b
  rw [hb, hf]

theorem SameButTrace.setBus {b : BusId} {u u' : Bus} (hu : u.Retraced u') : SameButTrace (s.setBus b u) (s'.setBus b u') := by
  refine ⟨h.1, h.2.1, fun c => ?_⟩
  rw [bus_setBus, bus_setBus]
  split_ifs
  · exact hu
  · exact h.bus c

theorem SameButTrace.setPort (p : PortIx) (x : Port) : SameButTrace (s.setPort p x) (s'.setPort p x) := by
  refine ⟨h.1, fun q => ?_, h.2.2⟩
  rw [port_setPort, port_setPort, h.port]

/-- A write of one bus that carries the trace. -/
theorem SameButTrace.map {F : Bus → Bus} (hF : Carries F) (b : BusId) :
    SameButTrace (s.setBus b (F (s.bus b))) (s'.setBus b (F (s'.bus b))) :=
  h.setBus (hF.retraced (h.bus b))

/-! ## The shared operations -/

theorem SameButTrace.respond (p : PortIx) (w : Word) (bytes : List Byte) :
    SameButTrace (respond s p w bytes) (respond s' p w bytes) := by
  rw [Machine.respond, Machine.respond, h.port]
  exact h.setPort ..

theorem SameButTrace.startWait (p : PortIx) (k : WaitKind) (b : BusId) (T : Timeout) :
    SameButTrace (startWait s p k b T) (startWait s' p k b T) := by
  rw [Machine.startWait, Machine.startWait, h.port, h.tick]
  exact h.setPort ..

theorem SameButTrace.setExecuting (p : PortIx) : SameButTrace (setExecuting s p) (setExecuting s' p) := by
  rw [Machine.setExecuting, Machine.setExecuting, h.port]
  exact h.setPort ..

theorem SameButTrace.takeFatal (p : PortIx) (c : Cause) (w : Word) : SameButTrace (takeFatal s p c w) (takeFatal s' p c w) :=
  ⟨⟨h.tick, rfl, rfl, rfl, rfl, h.cfg, h.moves, h.draws, h.pres⟩, h.2.1, h.2.2⟩

omit h in
theorem carries_consumerEnd (c : Config) (b : BusId) (st : Status) (n : Nat) (bytes : List Byte) :
    Carries (·.consumerEnd c b st n bytes) := by
  intro u tr
  cases hk : c.isFourWire b
  all_goals
    simp only [Bus.consumerEnd, hk, if_true, if_false, Bool.false_eq_true]
    exact ⟨_, rfl⟩

theorem SameButTrace.answer (p : PortId) (st : Status) (n : Nat) (data : Bool) (bytes : List Byte) :
    SameButTrace (answer s p st n data bytes) (answer s' p st n data bytes) := by
  cases p with
  | client p => exact h.respond ..
  | consumer b =>
    rw [answer_consumer, answer_consumer, consumerDone, consumerDone, h.cfg]
    exact h.map (carries_consumerEnd s.cfg b st n bytes) b

theorem SameButTrace.i2cFinish {F : Bus → Bus} (hF : Carries F) (b : BusId) (st : Status) :
    SameButTrace (i2cFinish (s.setBus b (F (s.bus b))) b st) (i2cFinish (s'.setBus b (F (s'.bus b))) b st) := by
  obtain ⟨tr, hu⟩ := hF.retraced (h.bus b)
  simp only [Machine.i2cFinish, bus_setBus_same, setBus_setBus_same, hu]
  exact (h.setBus ⟨_, rfl⟩).answer ..

theorem SameButTrace.spiFinish {F : Bus → Bus} (hF : Carries F) (b : BusId) (st : Status) :
    SameButTrace (spiFinish (s.setBus b (F (s.bus b))) b st) (spiFinish (s'.setBus b (F (s'.bus b))) b st) := by
  obtain ⟨tr, hu⟩ := hF.retraced (h.bus b)
  simp only [Machine.spiFinish, bus_setBus_same, setBus_setBus_same, hu]
  exact (h.setBus ⟨_, rfl⟩).answer ..

theorem SameButTrace.takeLock (b : BusId) (p : PortIx) : SameButTrace (takeLock s b p) (takeLock s' b p) :=
  (h.map (F := fun u => { u with lockOwner := some (.client p) }) (fun _ _ => ⟨_, rfl⟩) b).respond ..

theorem SameButTrace.enqueueFor (p : PortIx) (b : BusId) : SameButTrace (enqueueFor s p b) (enqueueFor s' p b) := by
  rw [Machine.enqueueFor, Machine.enqueueFor, h.port, h.cfg]
  exact (h.map (F := fun u => { u with rq := u.rq ++ [_] }) (fun _ _ => ⟨_, rfl⟩) b).respond ..

/-- Both dequeues take an item, or neither does. -/
theorem SameButTrace.dequeueFor (p : PortIx) (b : BusId) (q : QSel) :
    (dequeueFor s p b q = none ∧ dequeueFor s' p b q = none) ∨
    ∃ t t', dequeueFor s p b q = some t ∧ dequeueFor s' p b q = some t' ∧ SameButTrace t t' := by
  have hrq := h.field Bus.rq b
  have hrsp := h.field Bus.rsp b
  rcases dequeueFor_cases s p b q with ⟨rfl, hq, hd⟩ | ⟨rfl, hq, hd⟩ | ⟨r, rest, rfl, hq, hd⟩ | ⟨e, rest, rfl, hq, hd⟩
  · exact .inl ⟨hd, by simp [Machine.dequeueFor, hrq, hq]⟩
  · exact .inl ⟨hd, by simp [Machine.dequeueFor, hrsp, hq]⟩
  · exact .inr ⟨_, _, hd, dequeueFor_rq (hrq.trans hq), (h.map (F := fun u => { u with rq := rest }) (fun _ _ => ⟨_, rfl⟩) b).respond ..⟩
  · exact .inr ⟨_, _, hd, dequeueFor_rsp (hrsp.trans hq), (h.map (F := fun u => { u with rsp := rest }) (fun _ _ => ⟨_, rfl⟩) b).respond ..⟩

theorem SameButTrace.rqHasRoom (b : BusId) : rqHasRoom s' b = rqHasRoom s b := by
  simp only [Machine.rqHasRoom, h.field Bus.rq b, h.cfg]

/-! ## The presenting step -/

theorem SameButTrace.accept (d : Option Word) : SameButTrace (accept s d) (accept s' d) := by
  rw [Machine.accept, Machine.accept, h.pres, h.port]
  exact h.setPort ..

omit h in
theorem carries_deselect (sl : SlaveId) : Carries (·.deselect sl) := by
  intro u tr
  cases hcs : u.cs.getLsbD sl.toNat
  all_goals
    simp only [Bus.deselect, hcs, if_true, if_false, Bool.false_eq_true]
    exact ⟨_, rfl⟩

theorem SameButTrace.commandBody (i : Instr) : SameButTrace (commandBody i s) (commandBody i s') := by
  cases i with
  | lockAcquire b T =>
    simp only [Machine.commandBody, h.pres, h.field Bus.lockOwner b]
    split_ifs
    · exact h.takeLock ..
    · exact h.respond ..
    · exact h.startWait ..
  | lockRelease b =>
    simp only [Machine.commandBody, h.pres]
    exact (h.map (F := fun u => { u with lockOwner := none }) (fun _ _ => ⟨_, rfl⟩) b).respond ..
  | i2cWrite b a n =>
    simp only [Machine.commandBody, h.pres, h.port, h.tick]
    exact (h.map (F := fun u => u.startI2c _ _ _ _ _ _ _) (fun _ _ => ⟨_, rfl⟩) b).setExecuting _
  | i2cRead b dest a n =>
    simp only [Machine.commandBody, h.pres, h.tick]
    exact (h.map (F := fun u => u.startI2c _ _ _ _ _ _ _) (fun _ _ => ⟨_, rfl⟩) b).setExecuting _
  | spiSelect b sl =>
    simp only [Machine.commandBody, h.pres]
    exact (h.map (F := (·.select sl)) (fun _ _ => ⟨_, rfl⟩) b).respond ..
  | spiDeselect b sl =>
    simp only [Machine.commandBody, h.pres]
    exact (h.map (carries_deselect sl) b).respond ..
  | spiXferByte b tx =>
    simp only [Machine.commandBody, h.pres, h.tick]
    exact (h.map (F := fun u => u.startSpi _ _ _ _) (fun _ _ => ⟨_, rfl⟩) b).setExecuting _
  | spiXferBuf b n =>
    simp only [Machine.commandBody, h.pres, h.port, h.tick]
    split_ifs
    · exact h.respond ..
    · exact (h.map (F := fun u => u.startSpi _ _ _ _) (fun _ _ => ⟨_, rfl⟩) b).setExecuting _
  | chEnqReq b T d =>
    simp only [Machine.commandBody, h.pres, h.rqHasRoom b]
    split_ifs
    · exact h.enqueueFor ..
    · exact h.respond ..
    · exact h.startWait ..
  | chDeq b q T =>
    rcases h.dequeueFor s.pres.port b q with ⟨hd, hd'⟩ | ⟨t, t', hd, hd', ht⟩
    · simp only [Machine.commandBody, h.pres, hd, hd']
      split_ifs
      · exact h.respond ..
      · exact h.startWait ..
    · simpa only [Machine.commandBody, h.pres, hd, hd'] using ht

theorem SameButTrace.firstFault (p : PortIx) (i : Instr) : firstFault s' p i = firstFault s p i := by
  have hsel : selectOk s' i = selectOk s i := by
    cases i <;> simp only [selectOk, h.cfg, h.field Bus.cs _]
  simp only [Machine.firstFault, h.cfg, h.field Bus.lockOwner i.bus, hsel]

theorem SameButTrace.presentable (p : PortIx) : presentable s' p = presentable s p := by
  simp only [Machine.presentable, h.fatal, h.cfg, h.port]

theorem SameButTrace.withPres (pres : Presented) : SameButTrace { s with pres := pres } { s' with pres := pres } := by
  obtain ⟨⟨h1, h2, h3, h4, h5, h6, h7, h8, -⟩, hp, hb⟩ := h
  exact ⟨⟨h1, h2, h3, h4, h5, h6, h7, h8, rfl⟩, hp, hb⟩

theorem SameButTrace.presentCommand {p : PortIx} {bytes : List Byte} (hp : Machine.presentable s p = true)
    (hc : completeCommand s.cfg bytes = true) : SameOutcome (presentCommand s p bytes) (presentCommand s' p bytes) := by
  rcases completeCommand_cases hc with ⟨d, hd⟩ | ⟨w, after, hw, hr⟩
  · rw [presentCommand_ok hd, presentCommand_ok (s := s') (by rw [h.cfg, hd])]
    have hpres := h.withPres ⟨p, d.header, d.payload⟩
    have hp' := (h.presentable p).trans hp
    cases hf : Machine.firstFault s p d.instr with
    | none =>
      rw [exec_accepted (s := { s with pres := ⟨p, d.header, d.payload⟩ }) hp hf,
        exec_accepted (s := { s' with pres := ⟨p, d.header, d.payload⟩ }) hp' ((h.firstFault p d.instr).trans hf)]
      exact .next ((hpres.accept _).commandBody _)
    | some c =>
      rw [exec_fault (s := { s with pres := ⟨p, d.header, d.payload⟩ }) hp hf,
        exec_fault (s := { s' with pres := ⟨p, d.header, d.payload⟩ }) hp' ((h.firstFault p d.instr).trans hf)]
      exact .next (hpres.takeFatal ..)
  · rw [presentCommand_illegal hw hr, presentCommand_illegal hw hr]
    exact .next (h.takeFatal ..)

/-! ## The moves that are enabled -/

theorem SameButTrace.waitOf (p : PortIx) : s'.waitOf p = s.waitOf p := by simp only [State.waitOf, h.port]

theorem SameButTrace.onTwoWire (b : BusId) (cond : Bus → Bool) (hc : ∀ u tr, cond { u with trace := tr } = cond u := by intros; rfl) :
    onTwoWire s' b cond = onTwoWire s b cond := by
  rw [Machine.onTwoWire, Machine.onTwoWire, h.cfg, h.field cond b hc]

theorem SameButTrace.onFourWire (b : BusId) (cond : Bus → Bool) (hc : ∀ u tr, cond { u with trace := tr } = cond u := by intros; rfl) :
    onFourWire s' b cond = onFourWire s b cond := by
  rw [Machine.onFourWire, Machine.onFourWire, h.cfg, h.field cond b hc]

theorem SameButTrace.portDequeue? (p : PortIx) :
    (portDequeue? s p = none ∧ portDequeue? s' p = none) ∨
    ∃ t t', portDequeue? s p = some t ∧ portDequeue? s' p = some t' ∧ SameButTrace t t' := by
  simp only [Machine.portDequeue?, h.waitOf]
  rcases s.waitOf p with _ | ⟨_ | _ | q, b, t0, T⟩
  · exact .inl ⟨rfl, rfl⟩
  · exact .inl ⟨rfl, rfl⟩
  · exact .inl ⟨rfl, rfl⟩
  · exact h.dequeueFor p b q

theorem SameButTrace.enabledRunning (m : Move) : enabledRunning s' m = enabledRunning s m := by
  cases m with
  | present p bytes => simp only [Machine.enabledRunning, h.presentable, h.cfg]
  | reset busy | clockTick => rfl
  | portTimeout p => simp only [Machine.enabledRunning, isClient, portTimeoutEnabled, h.waitOf, h.cfg, h.tick]
  | portEnqueue p => simp only [Machine.enabledRunning, isClient, portEnqueueEnabled, h.waitOf, h.cfg, h.rqHasRoom]
  | portDequeue p =>
    rcases h.portDequeue? p with ⟨hd, hd'⟩ | ⟨t, t', hd, hd', -⟩ <;>
      simp only [Machine.enabledRunning, isClient, h.cfg, hd, hd', Option.isSome_some]
  | lockGrant b q =>
    simp only [Machine.enabledRunning, isClient, lockGrantEnabled, h.waitOf, h.cfg, h.field Bus.lockOwner b]
  | i2cByteReceived b | i2cWireTimeout b =>
    simp only [Machine.enabledRunning, h.cfg, h.tick]
    exact h.onTwoWire b _
  | i2cStart b | i2cAddress b | i2cAcked b | i2cNotAcked b | i2cByteSent b | envStartLatched b | envAddrAck b | envAddrNack b
  | envByteDone b _ | envByteReady b _ => exact h.onTwoWire b _
  | spiExchange b | envExchange b _ => exact h.onFourWire b _
  | spiWireTimeout b =>
    simp only [Machine.enabledRunning, h.cfg, h.tick]
    exact h.onFourWire b _
  | consTake b => simp only [Machine.enabledRunning, h.cfg, h.field consTakeEnabled b]
  | consStart b => simp only [Machine.enabledRunning, h.cfg, h.field consStartEnabled b]
  | consPush b => simp only [Machine.enabledRunning, consPushEnabled, rspHasRoom, h.cfg, h.field Bus.rsp b, h.field Bus.consState b]
  | envBusy b level => simp only [Machine.enabledRunning, h.cfg]

theorem SameButTrace.moveEnabled (m : Move) : moveEnabled s' m = moveEnabled s m := by
  rw [Machine.moveEnabled, Machine.moveEnabled, h.fatal, h.enabledRunning]

/-! ## What they do -/

theorem SameButTrace.portTimeout (p : PortIx) : SameButTrace (portTimeout s p) (portTimeout s' p) := by
  simp only [Machine.portTimeout, h.waitOf]
  cases s.waitOf p
  · exact h
  · exact h.respond ..

theorem SameButTrace.portEnqueue (p : PortIx) : SameButTrace (portEnqueue s p) (portEnqueue s' p) := by
  simp only [Machine.portEnqueue, h.waitOf]
  cases s.waitOf p
  · exact h
  · exact h.enqueueFor ..

theorem SameButTrace.i2cAcked (b : BusId) : SameOutcome (i2cAcked s b) (i2cAcked s' b) := by
  have hjob := h.field Bus.job b
  cases hd : (s.bus b).job.dir with
  | write =>
    by_cases hl : (s.bus b).job.len = 0
    · rw [i2cAcked_emptyWrite hd hl, i2cAcked_emptyWrite (s := s') (hjob ▸ hd) (hjob ▸ hl)]
      exact .next (h.i2cFinish (F := fun u => { u with addr := false }) (fun _ _ => ⟨_, rfl⟩) b .ok)
    · obtain ⟨d, hbuf⟩ : ∃ d, bufRead (s.bus b).jobBuf 0 = some d := ⟨_, bufRead_isSome (by decide)⟩
      have hbuf' := hbuf
      rw [← h.field Bus.jobBuf b] at hbuf'
      rw [i2cAcked_write hd hl hbuf, i2cAcked_write (s := s') (hjob ▸ hd) (hjob ▸ hl) hbuf', h.tick]
      exact .next (h.map (F := fun u => ({ u with addr := false }.emit (.tx d)).enter .transferActive s.tick) (fun _ _ => ⟨_, rfl⟩) b)
  | read =>
    rw [i2cAcked_read hd, i2cAcked_read (hjob ▸ hd), h.tick]
    exact .next (h.map (F := fun u => ({ u with addr := false }.setAck 0).enter .transferActive s.tick) (fun _ _ => ⟨_, rfl⟩) b)

theorem SameButTrace.i2cByteSent (b : BusId) : SameOutcome (i2cByteSent s b) (i2cByteSent s' b) := by
  have hjob := h.field Bus.job b
  have haf' := h.field Bus.af b
  cases haf : (s.bus b).af with
  | true =>
    rw [i2cByteSent_nack haf, i2cByteSent_nack (haf'.trans haf)]
    exact .next (h.i2cFinish (F := fun u => { u with btf := false, af := false }) (fun _ _ => ⟨_, rfl⟩) b .dataNack)
  | false =>
    by_cases hl : (s.bus b).job.idx + 1 = (s.bus b).job.len
    · rw [i2cByteSent_last haf hl, i2cByteSent_last (haf'.trans haf) (hjob ▸ hl)]
      exact .next (h.i2cFinish (F := fun u => Bus.nextByte { u with btf := false }) (fun _ _ => ⟨_, rfl⟩) b .ok)
    · cases hbuf : bufRead (s.bus b).jobBuf ((s.bus b).job.idx + 1)
      all_goals
        have hbuf' := hbuf
        rw [← h.field Bus.jobBuf b, ← hjob] at hbuf'
      case none =>
        rw [i2cByteSent_fault haf hl hbuf, i2cByteSent_fault (haf'.trans haf) (hjob ▸ hl) hbuf']
        exact .fault _
      case some d =>
        rw [i2cByteSent_more haf hl hbuf, i2cByteSent_more (haf'.trans haf) (hjob ▸ hl) hbuf', h.tick]
        exact .next (h.map (F := fun u => ((Bus.nextByte { u with btf := false }).emit (.tx d)).stamp s.tick)
          (fun _ _ => ⟨_, rfl⟩) b)

theorem SameButTrace.i2cByteReceived (b : BusId) : SameOutcome (i2cByteReceived s b) (i2cByteReceived s' b) := by
  have hjob := h.field Bus.job b
  cases hm : bufWrite (s.bus b).jobBuf (s.bus b).job.idx (s.bus b).dr
  all_goals
    have hm' := hm
    rw [← h.field Bus.jobBuf b, ← hjob, ← h.field Bus.dr b] at hm'
  case none =>
    rw [i2cByteReceived_fault hm, i2cByteReceived_fault hm']
    exact .fault _
  case some m =>
    rw [i2cByteReceived_stored hm, i2cByteReceived_stored hm', hjob, h.tick]
    split_ifs
    · exact .next (h.i2cFinish (F := (·.afterReceive m)) (fun _ _ => ⟨_, rfl⟩) b .ok)
    · exact .next (h.map (F := fun u => ((u.afterReceive m).setAck ((s.bus b).job.idx + 1)).stamp s.tick) (fun _ _ => ⟨_, rfl⟩) b)

theorem SameButTrace.spiExchange (b : BusId) : SameOutcome (spiExchange s b) (spiExchange s' b) := by
  have hjob := h.field Bus.job b
  cases htx : bufRead (s.bus b).jobBuf (s.bus b).job.idx
  all_goals
    have htx' := htx
    rw [← h.field Bus.jobBuf b, ← hjob] at htx'
  case none =>
    rw [spiExchange_fault htx, spiExchange_fault htx']
    exact .fault _
  case some tx =>
    obtain ⟨m, hm⟩ := bufWrite_isSome (m := (s.bus b).jobBuf) (v := (s.bus b).sdr) (bufRead_eq_some.1 htx).1
    have hm' := hm
    rw [← h.field Bus.jobBuf b, ← hjob, ← h.field Bus.sdr b] at hm'
    rw [spiExchange_stored htx hm, spiExchange_stored htx' hm', hjob, h.tick]
    split_ifs
    · exact .next (h.spiFinish (F := (·.afterExchange tx m)) (fun _ _ => ⟨_, rfl⟩) b .ok)
    · exact .next (h.map (F := fun u => (u.afterExchange tx m).stamp s.tick) (fun _ _ => ⟨_, rfl⟩) b)

theorem SameButTrace.consTake (b : BusId) : SameButTrace (consTake s b) (consTake s' b) := by
  have hrq := h.field Bus.rq b
  cases hq : (s.bus b).rq with
  | nil => simpa only [Machine.consTake, hrq, hq] using h
  | cons r rest =>
    rw [consTake_of_cons hq, consTake_of_cons (hrq.trans hq)]
    exact h.map (F := fun u => { u with creq := r, rq := rest, consState := .cLock }) (fun _ _ => ⟨_, rfl⟩) b

omit h in
theorem carries_emptyBracket (o : Option PortId) : Carries fun u => { u with lockOwner := o }.emptyBracket := by
  intro u tr
  obtain ⟨tr', he⟩ := (carries_deselect u.creq.slave).retraced
    (u := { u with lockOwner := o }.select u.creq.slave) (u' := { u with lockOwner := o, trace := tr }.select u.creq.slave) ⟨_, rfl⟩
  refine ⟨tr', ?_⟩
  simp only [Bus.emptyBracket]
  rw [he]

theorem SameButTrace.consStart {b : BusId} (hch : s.cfg.hasChannel b = true) :
    SameButTrace (consStart s b) (consStart s' b) := by
  have hcreq := h.field Bus.creq b
  rcases Config.kind_of_hasBus (Config.hasBus_of_channel hch) with hk | hk
  · rw [consStart_twoWire hk, consStart_twoWire (h.cfg.symm ▸ hk), h.tick]
    exact h.map (F := fun u => { u with
      lockOwner := some (.consumer b)
      job := ⟨.consumer b, u.creq.dir, u.creq.target, u.creq.len.toNat, 0, .port, s.tick⟩
      jobBuf := requestBuf u.jobBuf u.creq
      i2cState := .waitBusFree
      consState := .cRun }) (fun _ _ => ⟨_, rfl⟩) b
  · by_cases hr : (s.bus b).creq.len = 0
    · rw [consStart_empty hk hr, consStart_empty (h.cfg.symm ▸ hk) (hcreq.symm ▸ hr)]
      exact h.map (carries_emptyBracket (some (.consumer b))) b
    · rw [consStart_fourWire hk hr, consStart_fourWire (h.cfg.symm ▸ hk) (hcreq.symm ▸ hr), h.tick]
      exact h.map (F := fun u => { u with
        lockOwner := some (.consumer b)
        cs := u.cs ||| csBit u.creq.slave
        trace := u.trace ++ [.cs u.creq.slave true]
        job := { u.job with port := .consumer b, len := u.creq.len.toNat, idx := 0, t0 := s.tick }
        jobBuf := bufLoad u.jobBuf (u.creq.data.take u.creq.len.toNat)
        spiState := .transferring
        consState := .cRun }) (fun _ _ => ⟨_, rfl⟩) b

omit h in
theorem SameButTrace.refl (s : State) : SameButTrace s s := ⟨sameGlobals_rfl s, fun _ => rfl, fun _ => ⟨_, rfl⟩⟩

theorem SameButTrace.resetBlock (busy : BitVec 16) : SameButTrace (resetBlock s busy) (resetBlock s' busy) := by
  rw [Machine.resetBlock, Machine.resetBlock, h.cfg, h.moves, h.draws]
  exact .refl _

theorem SameButTrace.clockTick : SameButTrace { s with tick := s.tick + 1 } { s' with tick := s'.tick + 1 } := by
  obtain ⟨⟨ht, hg⟩, hp, hb⟩ := h
  exact ⟨⟨congrArg (· + 1) ht, hg⟩, hp, hb⟩

/-- R259: a move that is enabled does the same in both states. -/
theorem SameButTrace.runMove {m : Move} (he : Machine.enabledRunning s m = true) : SameOutcome (runMove s m) (runMove s' m) := by
  cases m with
  | present p bytes =>
    obtain ⟨hp, hc⟩ : Machine.presentable s p = true ∧ completeCommand s.cfg bytes = true := by
      simpa [Machine.enabledRunning] using he
    exact h.presentCommand hp hc
  | reset busy => exact .next (h.resetBlock busy)
  | clockTick => exact .next h.clockTick
  | portTimeout p => exact .next (h.portTimeout p)
  | portEnqueue p => exact .next (h.portEnqueue p)
  | portDequeue p =>
    rcases h.portDequeue? p with ⟨hd, hd'⟩ | ⟨t, t', hd, hd', ht⟩
    · simpa only [Machine.runMove, hd, hd'] using .next h
    · simpa only [Machine.runMove, hd, hd'] using .next ht
  | lockGrant b q => exact .next (h.takeLock b q)
  | i2cStart b =>
    simp only [Machine.runMove, i2cStart, h.tick]
    exact .next (h.map (F := fun u => (u.emit .start).enter .started s.tick) (fun _ _ => ⟨_, rfl⟩) b)
  | i2cAddress b =>
    simp only [Machine.runMove, i2cAddress, h.tick]
    exact .next (h.map (F := fun u =>
      ({ u with sb := false }.emit (.addr (addressByte u.job.addr u.job.dir))).enter .addressSent s.tick) (fun _ _ => ⟨_, rfl⟩) b)
  | i2cAcked b => exact h.i2cAcked b
  | i2cNotAcked b => exact .next (h.i2cFinish (F := fun u => { u with af := false }) (fun _ _ => ⟨_, rfl⟩) b .addrNack)
  | i2cByteSent b => exact h.i2cByteSent b
  | i2cByteReceived b => exact h.i2cByteReceived b
  | i2cWireTimeout b =>
    have hend := h.i2cFinish (F := id) (fun _ _ => ⟨_, rfl⟩) b .busTimeout
    simp only [id, setBus_self] at hend
    exact .next hend
  | spiExchange b => exact h.spiExchange b
  | spiWireTimeout b => exact .next (h.spiFinish (F := Bus.deassertAll) (fun _ _ => ⟨_, rfl⟩) b .busTimeout)
  | consTake b => exact .next (h.consTake b)
  | consStart b =>
    simp only [Machine.enabledRunning, Bool.and_eq_true] at he
    exact .next (h.consStart he.1)
  | consPush b =>
    exact .next (h.map (F := fun u => { u with rsp := u.rsp ++ [u.cres], consState := .cIdle }) (fun _ _ => ⟨_, rfl⟩) b)
  | envBusy b level => exact .next (h.map (F := fun u => { u with busy := level }) (fun _ _ => ⟨_, rfl⟩) b)
  | envStartLatched b => exact .next (h.map (F := fun u => { u with sb := true }) (fun _ _ => ⟨_, rfl⟩) b)
  | envAddrAck b => exact .next (h.map (F := fun u => { u with addr := true }) (fun _ _ => ⟨_, rfl⟩) b)
  | envAddrNack b => exact .next (h.map (F := fun u => { u with af := true }) (fun _ _ => ⟨_, rfl⟩) b)
  | envByteDone b nack => exact .next (h.map (F := fun u => { u with btf := true, af := nack }) (fun _ _ => ⟨_, rfl⟩) b)
  | envByteReady b v => exact .next (h.map (F := fun u => { u with rxne := true, dr := v }) (fun _ _ => ⟨_, rfl⟩) b)
  | envExchange b v => exact .next (h.map (F := fun u => { u with srxne := true, sdr := v }) (fun _ _ => ⟨_, rfl⟩) b)

/-! ## The step -/

theorem SameButTrace.takeStep (m : Move) : SameOutcome (takeStep s m) (takeStep s' m) := by
  rw [Machine.takeStep, Machine.takeStep, h.moveEnabled]
  split_ifs with he
  · exact h.runMove (moveEnabled_imp he)
  · exact .next h

/-- The next move is the same, and the states without it differ in the traces only. -/
theorem SameButTrace.nextMove : s'.nextMove.1 = s.nextMove.1 ∧ SameButTrace s.nextMove.2 s'.nextMove.2 := by
  obtain ⟨⟨h1, h2, h3, h4, h5, h6, hm, hd, h9⟩, hp, hb⟩ := h
  cases hs : s.moves with
  | cons m rest =>
    rw [nextMove_cons hs, nextMove_cons (hm.trans hs)]
    exact ⟨rfl, ⟨h1, h2, h3, h4, h5, h6, rfl, hd, h9⟩, hp, hb⟩
  | nil =>
    rw [nextMove_nil hs, nextMove_nil (hm.trans hs), hd]
    exact ⟨rfl, ⟨h1, h2, h3, h4, h5, h6, hm, rfl, h9⟩, hp, hb⟩

theorem SameButTrace.step : SameOutcome (step s) (step s') := by
  obtain ⟨hmove, hrest⟩ := h.nextMove
  rw [Machine.step, Machine.step, h.cfg, hmove]
  split_ifs
  · exact hrest.takeStep _
  · exact .refused _

end Same

theorem SameOutcome.agree {o o' : Host.Outcome State Fault Refusal} (h : SameOutcome o o') :
    (∀ t, o = .next t → ∃ t', o' = .next t' ∧ SameButTrace t t') ∧ (∀ f, o = .fault f → o' = .fault f) ∧
      ∀ r, o = .refused r → o' = .refused r := by
  cases h with
  | next ht =>
    refine ⟨?_, by simp, by simp⟩
    rintro _ ⟨rfl⟩
    exact ⟨_, rfl, ht⟩
  | fault f => exact ⟨by simp, fun _ => id, by simp⟩
  | refused r => exact ⟨by simp, by simp, fun _ => id⟩

/-- Settles O57: the two steps are of one kind (`SameButTrace.step`), which every move and command keeps. -/
theorem traceIsNeverRead : Obligations.TraceIsNeverRead := fun _ _ h => h.step.agree

end Sys2Proof.Machine
end
